-- ==== Sys2Proof/Word.lean ====
section
/-! DEFINITION. The words of the block: 32-bit bus words, bytes, and the two sets of floating-point patterns. -/
namespace Sys2Proof

/-- A 32-bit bus word, bit 0 least significant (00_scope.md R10). -/
abbrev Word := BitVec 32

/-- One byte lane of a word (20_memory.md R62). -/
abbrev Byte := BitVec 8

/-- A binary32 bit pattern (00_scope.md R11). -/
abbrev F32 := BitVec 32

/-- A binary64 bit pattern (00_scope.md R11). -/
abbrev F64 := BitVec 64

end Sys2Proof
end

