-- ==== Sys2Proof/Config.lean ====
section
/-! DEFINITION. What an implementation of the block fixes, and the values the spec leaves free (00_scope.md R9).
Every `opaque` here has no body: a claim about the model holds whatever its value. -/
namespace Sys2Proof.Config

/-- `BUF_LEN` above its least value 512; `BUF_LEN` is an integer from 512 to 16384 (00_scope.md R9, log 6). -/
opaque bufLenAbove512 : Fin 15873

/-- `BUF_LEN`: sample words per lane (00_scope.md R9, 92_eei_decisions.md D11). -/
@[irreducible] def bufLen : Nat := bufLenAbove512.val + 512

/-- `BASE` in units of 0x40000 (00_scope.md R9, log 6). -/
opaque baseIndex : Nat

/-- `BASE`: byte address of the register window, a multiple of 0x40000 (00_scope.md R9, 92_eei_decisions.md D12). -/
def base : Nat := 0x40000 * baseIndex

/-- `FS_MIN` = 8000.0 (00_scope.md R9). -/
def fsMin : F32 := 0x45FA0000#32

/-- `FS_MAX` = 192000.0 (00_scope.md R9). -/
def fsMax : F32 := 0x483B8000#32

/-- What `cos64` is before the properties of 40_coeff_factory.md R112 are imposed on it (log 7). -/
opaque cosFree : F64 → F64

/-- What `sin64` is before the properties of 40_coeff_factory.md R112 are imposed on it (log 7). -/
opaque sinFree : F64 → F64

/-- What `exp10_64` is before the properties of 40_coeff_factory.md R112 are imposed on it (log 7). -/
opaque exp10Free : F64 → F64

/-- `NAN_DRAW`: sign and fraction (less one) of the binary32 NaN that draw number `n` gives (00_scope.md R9,
41_biquad_stage.md R144, log 8). -/
opaque nanDraw (n : Nat) : Bool × Fin 8388607

/-- The arbitrary word that busy read number `n` returns (20_memory.md R66, 10_state.md R32, log 11). -/
opaque busyWord (n : Nat) : Word

/-- Sign and fraction (less one) of the binary64 NaN a factory operation gives for its operands; `op` tells the
operations apart (log 9). -/
opaque factoryNan (op : Nat) (a b : F64) : Bool × Fin 4503599627370495

/-- Sign and fraction (less one) of the binary64 NaN that widening a binary32 NaN gives (log 9). -/
opaque widenNan (x : F32) : Bool × Fin 4503599627370495

/-- Sign and fraction (less one) of the binary32 NaN that rounding a binary64 NaN gives (log 9). -/
opaque narrowNan (v : F64) : Bool × Fin 8388607

/-- `min64` (op 0) and `max64` (op 1) where an operand is a NaN: the spec states no result there (log 10). -/
opaque minMaxOfNan (op : Nat) (a b : F64) : F64

end Sys2Proof.Config
end

