-- ==== Sys2Proof/Machine/Float.lean ====
section
/-! DEFINITION. IEEE 754 binary32 and binary64 (00_scope.md R11): unpacking, roundTiesToEven, the operations and the
conversions. A finite magnitude is held as an exact whole number of least subnormals of its format, so that every
operation is exact integer arithmetic followed by one rounding (log 25). -/
namespace Sys2Proof.Machine

/-- A binary interchange format: `frac` fraction bits and `exp` exponent bits. -/
structure Fmt where
  frac : Nat
  exp : Nat
  deriving DecidableEq, Repr

namespace Fmt

/-- binary32 (20_memory.md R62: bit 31 sign, [30:23] exponent, [22:0] fraction). -/
def b32 : Fmt := ⟨23, 8⟩

/-- binary64. -/
def b64 : Fmt := ⟨52, 11⟩

/-- The least subnormal is `2^-(unit)`: 149 for binary32, 1074 for binary64. -/
def unit (f : Fmt) : Nat := 2 ^ (f.exp - 1) - 2 + f.frac

/-- The pattern of +infinity. -/
def infPattern (f : Fmt) : Nat := (2 ^ f.exp - 1) * 2 ^ f.frac

/-- The sign bit as a number. -/
def signBit (f : Fmt) (neg : Bool) : Nat := if neg then 2 ^ (f.frac + f.exp) else 0

/-- A NaN pattern from a sign and a fraction less one: every NaN pattern arises, and nothing else. -/
def nanPattern (f : Fmt) (neg : Bool) (fracLessOne : Nat) : Nat := f.signBit neg + f.infPattern + (fracLessOne + 1)

end Fmt

/-- What a pattern means: a NaN, a signed infinity, or a signed magnitude in least subnormals. -/
inductive Val where
  | nan
  | inf (neg : Bool)
  | fin (neg : Bool) (mag : Nat)
  deriving DecidableEq, Repr

/-- The magnitude of a finite pattern without its sign, in least subnormals. -/
def Fmt.magnitude (f : Fmt) (p : Nat) : Nat :=
  if p / 2 ^ f.frac = 0 then p
  else (2 ^ f.frac + p % 2 ^ f.frac) * 2 ^ (p / 2 ^ f.frac - 1)

/-- The meaning of a bit pattern. -/
def Fmt.unpack (f : Fmt) (w : Nat) : Val :=
  let neg := decide (w / 2 ^ (f.frac + f.exp) % 2 = 1)
  let p := w % 2 ^ (f.frac + f.exp)
  if p < f.infPattern then .fin neg (f.magnitude p)
  else if p = f.infPattern then .inf neg
  else .nan

/-- `num / den` to the nearest whole number, ties to even. -/
def roundEven (num den : Nat) : Nat :=
  let q := num / den
  let r := num % den
  if 2 * r < den ∨ (2 * r = den ∧ q % 2 = 0) then q else q + 1

/-- The pattern, without a sign, of the magnitude `num / den` (in least subnormals) rounded with roundTiesToEven;
beyond the range, the pattern of infinity (00_scope.md R11). -/
def Fmt.roundMag (f : Fmt) (num den : Nat) : Nat :=
  let shift := Nat.log2 (num / den) - f.frac
  let p := shift * 2 ^ f.frac + roundEven num (den * 2 ^ shift)
  if p < f.infPattern then p else f.infPattern

/-- The signed pattern of a rounded magnitude. -/
def Fmt.round (f : Fmt) (neg : Bool) (num den : Nat) : Nat := f.signBit neg + f.roundMag num den

/-- The whole part of a square root, found bit by bit: `bits` bits remain below the part `r` found so far. -/
def sqrtBits (x : Nat) : (bits : Nat) → (r : Nat) → Nat
  | 0, r => r
  | b + 1, r => sqrtBits x b (if (r + 2 ^ b) * (r + 2 ^ b) ≤ x then r + 2 ^ b else r)

/-- The whole part of the square root of `x`. -/
def natSqrt (x : Nat) : Nat := sqrtBits x (Nat.log2 x / 2 + 1) 0

namespace Val

/-- The same value with the other sign; a NaN stays one. -/
def neg : Val → Val
  | nan => nan
  | inf s => inf (!s)
  | fin s m => fin (!s) m

/-- The sum's pattern; none where IEEE gives a NaN. An exact zero from opposite signs is +0. -/
def add (f : Fmt) : Val → Val → Option Nat
  | nan, _ => none
  | _, nan => none
  | inf s, inf t => if s = t then some (f.signBit s + f.infPattern) else none
  | inf s, fin _ _ => some (f.signBit s + f.infPattern)
  | fin _ _, inf t => some (f.signBit t + f.infPattern)
  | fin s m, fin t n =>
    if s = t then some (f.round s (m + n) 1)
    else if n < m then some (f.round s (m - n) 1)
    else if m < n then some (f.round t (n - m) 1)
    else some 0

/-- The product's pattern; none for a NaN operand and for zero times infinity. -/
def mul (f : Fmt) : Val → Val → Option Nat
  | nan, _ => none
  | _, nan => none
  | inf s, inf t => some (f.signBit (s != t) + f.infPattern)
  | inf s, fin t n => if n = 0 then none else some (f.signBit (s != t) + f.infPattern)
  | fin s m, inf t => if m = 0 then none else some (f.signBit (s != t) + f.infPattern)
  | fin s m, fin t n => some (f.round (s != t) (m * n) (2 ^ f.unit))

/-- The quotient's pattern; none for a NaN operand, 0/0 and infinity over infinity. -/
def div (f : Fmt) : Val → Val → Option Nat
  | nan, _ => none
  | _, nan => none
  | inf _, inf _ => none
  | inf s, fin t _ => some (f.signBit (s != t) + f.infPattern)
  | fin s _, inf t => some (f.signBit (s != t))
  | fin s m, fin t n =>
    if n = 0 then (if m = 0 then none else some (f.signBit (s != t) + f.infPattern))
    else some (f.round (s != t) (m * 2 ^ f.unit) n)

/-- The square root's pattern; none for a NaN and below zero; the root of -0 is -0. The root is taken of the magnitude
scaled by 16, and a remainder adds a half unit of that scale, which settles every rounding. -/
def sqrt (f : Fmt) : Val → Option Nat
  | nan => none
  | inf s => if s then none else some f.infPattern
  | fin s m =>
    if m = 0 then some (f.signBit s)
    else if s then none
    else
      let x := m * 2 ^ f.unit * 16
      let r := natSqrt x
      some (f.round false (2 * r + if r * r = x then 0 else 1) 8)

/-- A number that orders values: infinity stands for the magnitude just beyond the range. -/
def order (f : Fmt) : Val → Int
  | nan => 0
  | inf s => if s then -((2 ^ (f.frac + 2 ^ f.exp) : Nat) : Int) else ((2 ^ (f.frac + 2 ^ f.exp) : Nat) : Int)
  | fin s m => if s then -(m : Int) else (m : Int)

/-- `a < b`; false where either is a NaN. -/
def lt (f : Fmt) (a b : Val) : Bool :=
  a != .nan && b != .nan && decide (a.order f < b.order f)

/-- `a ≤ b`; false where either is a NaN. -/
def le (f : Fmt) (a b : Val) : Bool :=
  a != .nan && b != .nan && decide (a.order f ≤ b.order f)

end Val

/-- The meaning of a binary32 pattern. -/
def val32 (x : F32) : Val := Fmt.b32.unpack x.toNat

/-- The meaning of a binary64 pattern. -/
def val64 (v : F64) : Val := Fmt.b64.unpack v.toNat

/-- `isNaN` on binary32 (00_scope.md R11). -/
def isNaN32 (x : F32) : Bool := val32 x == .nan

/-- `isNaN` on binary64 (00_scope.md R11). -/
def isNaN64 (v : F64) : Bool := val64 v == .nan

/-- Neither a NaN nor an infinity, on binary32. -/
def isFinite32 (x : F32) : Bool := match val32 x with | .fin _ _ => true | _ => false

/-- Neither a NaN nor an infinity, on binary64. -/
def isFinite64 (v : F64) : Bool := match val64 v with | .fin _ _ => true | _ => false

/-- Either zero, on binary64. -/
def isZero64 (v : F64) : Bool := match val64 v with | .fin _ m => m == 0 | _ => false

/-- `<` on binary32 (43_stereo_processor.md R180). -/
def lt32 (a b : F32) : Bool := (val32 a).lt .b32 (val32 b)

/-- `<` on binary64. -/
def lt64 (a b : F64) : Bool := (val64 a).lt .b64 (val64 b)

/-- `≤` on binary64. -/
def le64 (a b : F64) : Bool := (val64 a).le .b64 (val64 b)

/-- The binary32 NaN pattern with the given sign and fraction. -/
def nan32 (d : Bool × Fin 8388607) : F32 := BitVec.ofNat 32 (Fmt.b32.nanPattern d.1 d.2.val)

/-- The binary64 NaN pattern with the given sign and fraction. -/
def nan64 (d : Bool × Fin 4503599627370495) : F64 := BitVec.ofNat 64 (Fmt.b64.nanPattern d.1 d.2.val)

/-- The `NAN_DRAW` pattern of draw `n` (41_biquad_stage.md R144). -/
def drawnNan (n : Nat) : F32 := nan32 (Config.nanDraw n)

/-- A binary32 result: the pattern, or the NaN of draw `n`. -/
def result32 (n : Nat) : Option Nat → F32
  | some p => BitVec.ofNat 32 p
  | none => drawnNan n

/-- `a +32 b` with draw `n` for a NaN result (00_scope.md R11, 41_biquad_stage.md R144). -/
def add32 (n : Nat) (a b : F32) : F32 := result32 n ((val32 a).add .b32 (val32 b))

/-- `a -32 b` with draw `n` for a NaN result. -/
def sub32 (n : Nat) (a b : F32) : F32 := result32 n ((val32 a).add .b32 (val32 b).neg)

/-- `a *32 b` with draw `n` for a NaN result. -/
def mul32 (n : Nat) (a b : F32) : F32 := result32 n ((val32 a).mul .b32 (val32 b))

/-- A binary64 result of factory operation `op` on `a` and `b`: the pattern, or the NaN that operation gives. -/
def result64 (op : Nat) (a b : F64) : Option Nat → F64
  | some p => BitVec.ofNat 64 p
  | none => nan64 (Config.factoryNan op a b)

/-- `a +64 b` (00_scope.md R11). -/
def add64 (a b : F64) : F64 := result64 0 a b ((val64 a).add .b64 (val64 b))

/-- `a -64 b`. -/
def sub64 (a b : F64) : F64 := result64 1 a b ((val64 a).add .b64 (val64 b).neg)

/-- `a *64 b`. -/
def mul64 (a b : F64) : F64 := result64 2 a b ((val64 a).mul .b64 (val64 b))

/-- `a /64 b`. -/
def div64 (a b : F64) : F64 := result64 3 a b ((val64 a).div .b64 (val64 b))

/-- `sqrt64(a)`. -/
def sqrt64 (a : F64) : F64 := result64 4 a a ((val64 a).sqrt .b64)

/-- The pattern with the other sign (the unary minus of 40_coeff_factory.md R122). -/
def neg64 (v : F64) : F64 := v ^^^ 0x8000000000000000#64

/-- `widen(x)`: exact (00_scope.md R11). -/
def widen (x : F32) : F64 :=
  match val32 x with
  | .nan => nan64 (Config.widenNan x)
  | .inf s => BitVec.ofNat 64 (Fmt.b64.signBit s + Fmt.b64.infPattern)
  | .fin s m => BitVec.ofNat 64 (Fmt.b64.round s (m * 2 ^ (Fmt.b64.unit - Fmt.b32.unit)) 1)

/-- `rnd32(v)`: roundTiesToEven, overflow to an infinity of the same sign (00_scope.md R11). -/
def rnd32 (v : F64) : F32 :=
  match val64 v with
  | .nan => nan32 (Config.narrowNan v)
  | .inf s => BitVec.ofNat 32 (Fmt.b32.signBit s + Fmt.b32.infPattern)
  | .fin s m => BitVec.ofNat 32 (Fmt.b32.round s m (2 ^ (Fmt.b64.unit - Fmt.b32.unit)))

/-- `min64(a, b)` (00_scope.md R11); free where an operand is a NaN (log 10). -/
def min64 (a b : F64) : F64 :=
  if isNaN64 a || isNaN64 b then Config.minMaxOfNan 0 a b else if le64 a b then a else b

/-- `max64(a, b)` (00_scope.md R11); free where an operand is a NaN (log 10). -/
def max64 (a b : F64) : F64 :=
  if isNaN64 a || isNaN64 b then Config.minMaxOfNan 1 a b else if le64 a b then b else a

/-- `trunc(v)` of a finite value at or above zero, as a whole number (00_scope.md R11, 40_coeff_factory.md R117). -/
def truncNat (v : F64) : Nat :=
  match val64 v with
  | .fin _ m => m / 2 ^ Fmt.b64.unit
  | _ => 0

end Sys2Proof.Machine
end

