-- ==== Sys2Proof/Syntax.lean ====
section
/-! DEFINITION. The instructions: one constructor per row of spec/opcode_table.json, with its operands. -/
namespace Sys2Proof

/-- A channel lane: 0 left, 1 right (00_scope.md R9). -/
abbrev Lane := Fin 2

/-- A stage index 0..8 in a lane (10_state.md R31). -/
abbrev StageIdx := Fin 9

/-- A cut chain: `L` (low-cut, base 0) or `H` (high-cut, base 5) (42_cut_chain.md). -/
inductive Chain where
  | low
  | high
  deriving DecidableEq, Repr

/-- A coefficient set `(b0, b1, b2, a1, a2)`, a0 = 1 implied (00_scope.md R15). -/
structure CoeffSet where
  b0 : F32
  b1 : F32
  b2 : F32
  a1 : F32
  a2 : F32
  deriving DecidableEq, Repr

/-- The instructions (00_scope.md R2): four host commands, sixteen internal operations, two bus accesses. A host command
stands for the engine's completion of the command in flight; its acceptance is part of `memWrite` (log 3). -/
inductive Instr where
  /-- `NOP`, 43_stereo_processor.md R200. -/
  | nop
  /-- `PREPARE` with `LEN` = maximum block size, R201. -/
  | prepare (len : BitVec 16)
  /-- `RESET`, R202. -/
  | reset
  /-- `UPDATE_AND_PROCESS` with `LEN` = block length, R203. -/
  | updateAndProcess (len : BitVec 16)
  /-- `CONVERT_SNAPSHOT` of the hidden snapshot, 40_coeff_factory.md R118. -/
  | convertSnapshot (fsd : F64)
  /-- `DESIGN_PEAK`, R120. -/
  | designPeak (peakF gainDb q fsd : F64)
  /-- `DESIGN_LOWCUT`, R124. -/
  | designLowcut (lowF : F64) (kL : Nat) (fsd : F64)
  /-- `DESIGN_HIGHCUT`, R125. -/
  | designHighcut (highF : F64) (kH : Nat) (fsd : F64)
  /-- `STAGE_SET_COEFF`, 41_biquad_stage.md R140. -/
  | stageSetCoeff (c : Lane) (j : StageIdx) (set : CoeffSet)
  /-- `STAGE_SET_BYPASS`, R141. -/
  | stageSetBypass (c : Lane) (j : StageIdx) (b : Bool)
  /-- `STAGE_PROCESS`, R142. -/
  | stageProcess (c : Lane) (j : StageIdx) (x : F32)
  /-- `STAGE_CLEAR`, R146. -/
  | stageClear (c : Lane) (j : StageIdx)
  /-- `CHAIN_APPLY_ORDER`, 42_cut_chain.md R160. -/
  | chainApplyOrder (c : Lane) (ch : Chain) (k : Nat) (seq : List CoeffSet)
  /-- `CHAIN_PROCESS`, R164. -/
  | chainProcess (c : Lane) (ch : Chain) (x : F32)
  /-- `MONO_PROCESS`, R165. -/
  | monoProcess (c : Lane) (x : F32)
  /-- `UPDATE_CUT`, 43_stereo_processor.md R184. -/
  | updateCut (kL : Nat) (lowSeq : List CoeffSet) (kH : Nat) (highSeq : List CoeffSet)
  /-- `UPDATE_PEAK`, R185. -/
  | updatePeak (peakSet : CoeffSet)
  /-- `UPDATE`, R186. -/
  | update
  /-- `BLOCK_PROCESS`, R187. -/
  | blockProcess (n : BitVec 16)
  /-- `CHAINS_RESET`, 70_reset_and_hazards.md R251. -/
  | chainsReset
  /-- `MemRead(a, n)`, 20_memory.md R64; `n` is the width in bytes. -/
  | memRead (a : Word) (n : Nat)
  /-- `MemWrite(a, n, v)`, R68. -/
  | memWrite (a : Word) (n : Nat) (v : Word)
  deriving DecidableEq, Repr

/-- The host commands: the rows of the opcode map (30_encoding.md R92). -/
inductive Command where
  | nop
  | prepare (len : BitVec 16)
  | reset
  | updateAndProcess (len : BitVec 16)
  deriving DecidableEq, Repr

/-- The instruction a command is. -/
def Command.toInstr : Command → Instr
  | .nop => .nop
  | .prepare len => .prepare len
  | .reset => .reset
  | .updateAndProcess len => .updateAndProcess len

end Sys2Proof
end

