-- ==== Sys2Proof/WellFormed.lean ====
section
/-! DEFINITION. Which instructions are well formed, and the name of what is wrong with one that is not. -/
namespace Sys2Proof

/-- What can be wrong with an instruction's operands. -/
inductive IllFormed where
  /-- An order code above 3 (42_cut_chain.md R161). -/
  | orderCode (k : Nat)
  /-- A sequence that does not hold entries 0..k, or holds more than four (R160, log 17). -/
  | sequenceLength (n : Nat)
  /-- An access that is not one aligned 32-bit word (20_memory.md R63). -/
  | accessForm (a : Word) (n : Nat)
  deriving DecidableEq, Repr

/-- The order code is 0..3 (42_cut_chain.md R161). -/
def checkOrder (k : Nat) : Option IllFormed := if k ≤ 3 then none else some (.orderCode k)

/-- A sequence for order code `k` has entries 0..k and at most four (R160). -/
def checkSequence (k : Nat) (seq : List CoeffSet) : Option IllFormed :=
  if 3 < k then some (.orderCode k)
  else if k + 1 ≤ seq.length ∧ seq.length ≤ 4 then none
  else some (.sequenceLength seq.length)

/-- An access is one aligned 32-bit word (20_memory.md R63). -/
def checkAccess (a : Word) (n : Nat) : Option IllFormed :=
  if n = 4 ∧ a.toNat % 4 = 0 then none else some (.accessForm a n)

/-- The first thing wrong with an instruction's operands; none for a well-formed one. -/
def Instr.check : Instr → Option IllFormed
  | .nop => none
  | .prepare _ => none
  | .reset => none
  | .updateAndProcess _ => none
  | .convertSnapshot _ => none
  | .designPeak _ _ _ _ => none
  | .designLowcut _ kL _ => checkOrder kL
  | .designHighcut _ kH _ => checkOrder kH
  | .stageSetCoeff _ _ _ => none
  | .stageSetBypass _ _ _ => none
  | .stageProcess _ _ _ => none
  | .stageClear _ _ => none
  | .chainApplyOrder _ _ k seq => checkSequence k seq
  | .chainProcess _ _ _ => none
  | .monoProcess _ _ => none
  | .updateCut kL lowSeq kH highSeq => (checkSequence kL lowSeq).orElse fun _ => checkSequence kH highSeq
  | .updatePeak _ => none
  | .update => none
  | .blockProcess _ => none
  | .chainsReset => none
  | .memRead a n => checkAccess a n
  | .memWrite a n _ => checkAccess a n

/-- An instruction is well formed when nothing is wrong with its operands. -/
abbrev WellFormed (i : Instr) : Prop := i.check = none

end Sys2Proof
end

