-- ==== Sys2Proof/Decode.lean ====
section
/-! DEFINITION. The decoder and the encoder. A packet is what one of the block's three instruction formats carries
(the `format` column of spec/opcode_table.json): a command word (30_encoding.md R90), the words of an internal operation
(R96: no encoding in the spec; the operand words are the model's, log 4), or the words of a host bus transaction (R99). -/
namespace Sys2Proof

/-- The words of one instruction, in its format. -/
inductive Packet where
  | cmd (w : Word)
  | uop (ws : List Word)
  | bus (ws : List Word)
  deriving DecidableEq, Repr

/-- Why a packet is no instruction. -/
inductive DecodeError where
  /-- A command word that matches no row of 30_encoding.md R92 (R93). -/
  | illegalCommand (w : Word)
  /-- An internal-operation label outside 0x80..0x8F (R96). -/
  | unknownLabel (w : Word)
  /-- A bus transaction that is neither a read nor a write. -/
  | unknownAccess (w : Word)
  /-- An operand word is missing. -/
  | missingWord
  /-- A lane other than 0 and 1, a stage above 8, a chain other than L and H, a flag other than 0 and 1, a block
  length of more than 16 bits, or a sequence count above 4. -/
  | operandRange (w : Word)
  /-- Words that are not zero follow the last operand. -/
  | trailing
  /-- The operands are read and do not make a well-formed instruction. -/
  | illFormed (why : IllFormed)
  deriving DecidableEq, Repr

/-- The `OPC` field [7:0] of a command word (30_encoding.md R90). -/
def opcField (w : Word) : BitVec 8 := w.extractLsb' 0 8

/-- The `RSV` field [15:8]. -/
def rsvField (w : Word) : BitVec 8 := w.extractLsb' 8 8

/-- The `LEN` field [31:16]. -/
def lenField (w : Word) : BitVec 16 := w.extractLsb' 16 16

/-- The command word with the given `OPC` and `LEN` and `RSV` = 0 (30_encoding.md R90). -/
def commandWord (opc : BitVec 8) (len : BitVec 16) : Word := len ++ 0x00#8 ++ opc

/-- The opcode map: the row of 30_encoding.md R92 that a command word selects, `(word AND mask) = match`; an illegal word
selects none (R93). -/
def matchRow (w : Word) : Option Command :=
  if w &&& 0xFFFFFFFF#32 = 0x00000000#32 then some .nop
  else if w &&& 0x0000FFFF#32 = 0x00000001#32 then some (.prepare (lenField w))
  else if w &&& 0xFFFFFFFF#32 = 0x00000002#32 then some .reset
  else if w &&& 0x0000FFFF#32 = 0x00000003#32 then some (.updateAndProcess (lenField w))
  else none

/-- The instruction of a command word. -/
def decodeCommand (w : Word) : Except DecodeError Instr :=
  match matchRow w with
  | some c => .ok c.toInstr
  | none => .error (.illegalCommand w)

/-- One operand word. -/
def takeWord : List Word → Except DecodeError (Word × List Word)
  | w :: ws => .ok (w, ws)
  | [] => .error .missingWord

/-- A binary64 operand: its low word, then its high word. -/
def takeF64 : List Word → Except DecodeError (F64 × List Word)
  | lo :: hi :: ws => .ok (hi ++ lo, ws)
  | _ => .error .missingWord

/-- An operand word below `bound`, as a number. -/
def takeBelow (bound : Nat) : List Word → Except DecodeError (Nat × List Word)
  | w :: ws => if w.toNat < bound then .ok (w.toNat, ws) else .error (.operandRange w)
  | [] => .error .missingWord

/-- An order code; its range is checked with the finished instruction (42_cut_chain.md R161). -/
def takeOrder : List Word → Except DecodeError (Nat × List Word)
  | w :: ws => .ok (w.toNat, ws)
  | [] => .error .missingWord

/-- A lane operand, 0 or 1. -/
def takeLane : List Word → Except DecodeError (Lane × List Word)
  | w :: ws => if h : w.toNat < 2 then .ok (⟨w.toNat, h⟩, ws) else .error (.operandRange w)
  | [] => .error .missingWord

/-- A stage operand, 0..8. -/
def takeStage : List Word → Except DecodeError (StageIdx × List Word)
  | w :: ws => if h : w.toNat < 9 then .ok (⟨w.toNat, h⟩, ws) else .error (.operandRange w)
  | [] => .error .missingWord

/-- A chain operand: 0 for L, 1 for H. -/
def takeChain : List Word → Except DecodeError (Chain × List Word)
  | w :: ws => if w = 0 then .ok (.low, ws) else if w = 1 then .ok (.high, ws) else .error (.operandRange w)
  | [] => .error .missingWord

/-- A flag operand, 0 or 1. -/
def takeFlag : List Word → Except DecodeError (Bool × List Word)
  | w :: ws => if w = 0 then .ok (false, ws) else if w = 1 then .ok (true, ws) else .error (.operandRange w)
  | [] => .error .missingWord

/-- A block length of 16 bits. -/
def takeLen : List Word → Except DecodeError ((BitVec 16) × List Word)
  | w :: ws => if w.toNat < 65536 then .ok (w.setWidth 16, ws) else .error (.operandRange w)
  | [] => .error .missingWord

/-- A coefficient set: b0, b1, b2, a1, a2. -/
def takeSet : List Word → Except DecodeError (CoeffSet × List Word)
  | b0 :: b1 :: b2 :: a1 :: a2 :: ws => .ok (⟨b0, b1, b2, a1, a2⟩, ws)
  | _ => .error .missingWord

/-- `n` coefficient sets. -/
def takeSets : Nat → List Word → Except DecodeError ((List CoeffSet) × List Word)
  | 0, ws => .ok ([], ws)
  | n + 1, ws => do
    let (c, ws) ← takeSet ws
    let (cs, ws) ← takeSets n ws
    .ok (c :: cs, ws)

/-- A sequence: a word that is its length less one (0..3), then its sets. -/
def takeSequence (ws : List Word) : Except DecodeError ((List CoeffSet) × List Word) := do
  let (n, ws) ← takeBelow 4 ws
  takeSets (n + 1) ws

/-- The operands of the internal operation with the given label (30_encoding.md R96), in the order its rule lists them. -/
def parseUop (label : Word) (ws : List Word) : Except DecodeError (Instr × List Word) := do
  match label.toNat with
  | 0x80 =>
    let (fsd, ws) ← takeF64 ws
    .ok (.convertSnapshot fsd, ws)
  | 0x81 =>
    let (peakF, ws) ← takeF64 ws
    let (gainDb, ws) ← takeF64 ws
    let (q, ws) ← takeF64 ws
    let (fsd, ws) ← takeF64 ws
    .ok (.designPeak peakF gainDb q fsd, ws)
  | 0x82 =>
    let (lowF, ws) ← takeF64 ws
    let (kL, ws) ← takeOrder ws
    let (fsd, ws) ← takeF64 ws
    .ok (.designLowcut lowF kL fsd, ws)
  | 0x83 =>
    let (highF, ws) ← takeF64 ws
    let (kH, ws) ← takeOrder ws
    let (fsd, ws) ← takeF64 ws
    .ok (.designHighcut highF kH fsd, ws)
  | 0x84 =>
    let (c, ws) ← takeLane ws
    let (j, ws) ← takeStage ws
    let (set, ws) ← takeSet ws
    .ok (.stageSetCoeff c j set, ws)
  | 0x85 =>
    let (c, ws) ← takeLane ws
    let (j, ws) ← takeStage ws
    let (b, ws) ← takeFlag ws
    .ok (.stageSetBypass c j b, ws)
  | 0x86 =>
    let (c, ws) ← takeLane ws
    let (j, ws) ← takeStage ws
    let (x, ws) ← takeWord ws
    .ok (.stageProcess c j x, ws)
  | 0x87 =>
    let (c, ws) ← takeLane ws
    let (j, ws) ← takeStage ws
    .ok (.stageClear c j, ws)
  | 0x88 =>
    let (c, ws) ← takeLane ws
    let (ch, ws) ← takeChain ws
    let (k, ws) ← takeOrder ws
    let (seq, ws) ← takeSequence ws
    .ok (.chainApplyOrder c ch k seq, ws)
  | 0x89 =>
    let (c, ws) ← takeLane ws
    let (ch, ws) ← takeChain ws
    let (x, ws) ← takeWord ws
    .ok (.chainProcess c ch x, ws)
  | 0x8A =>
    let (c, ws) ← takeLane ws
    let (x, ws) ← takeWord ws
    .ok (.monoProcess c x, ws)
  | 0x8B =>
    let (kL, ws) ← takeOrder ws
    let (lowSeq, ws) ← takeSequence ws
    let (kH, ws) ← takeOrder ws
    let (highSeq, ws) ← takeSequence ws
    .ok (.updateCut kL lowSeq kH highSeq, ws)
  | 0x8C =>
    let (set, ws) ← takeSet ws
    .ok (.updatePeak set, ws)
  | 0x8D => .ok (.update, ws)
  | 0x8E =>
    let (n, ws) ← takeLen ws
    .ok (.blockProcess n, ws)
  | 0x8F => .ok (.chainsReset, ws)
  | _ => .error (.unknownLabel label)

/-- A host bus transaction (30_encoding.md R99): 0, offset, width for a read; 1, offset, width, word for a write. -/
def parseBus (kind : Word) (ws : List Word) : Except DecodeError (Instr × List Word) := do
  match kind.toNat with
  | 0 =>
    let (a, ws) ← takeWord ws
    let (n, ws) ← takeOrder ws
    .ok (.memRead a n, ws)
  | 1 =>
    let (a, ws) ← takeWord ws
    let (n, ws) ← takeOrder ws
    let (v, ws) ← takeWord ws
    .ok (.memWrite a n v, ws)
  | _ => .error (.unknownAccess kind)

/-- A parsed instruction, where only zero words follow it and it is well formed. -/
def finish : Instr × List Word → Except DecodeError Instr
  | (i, ws) =>
    if ws.all (· == 0#32) then
      match i.check with
      | none => .ok i
      | some why => .error (.illFormed why)
    else .error .trailing

/-- The decoder: total on every packet, and naming what it rejects. -/
def decode : Packet → Except DecodeError Instr
  | .cmd w => decodeCommand w
  | .uop [] => .error .missingWord
  | .uop (label :: ws) => parseUop label ws >>= finish
  | .bus [] => .error .missingWord
  | .bus (kind :: ws) => parseBus kind ws >>= finish

/-- A number as an operand word. -/
def numWord (n : Nat) : Word := BitVec.ofNat 32 n

/-- A binary64 operand as its low and its high word. -/
def f64Words (v : F64) : List Word := [v.extractLsb' 0 32, v.extractLsb' 32 32]

/-- A coefficient set as operand words. -/
def setWords (c : CoeffSet) : List Word := [c.b0, c.b1, c.b2, c.a1, c.a2]

/-- The words of the sets of a sequence. -/
def setsWords : List CoeffSet → List Word
  | [] => []
  | c :: cs => setWords c ++ setsWords cs

/-- A sequence as operand words: its length less one, then its sets. -/
def sequenceWords (seq : List CoeffSet) : List Word := numWord (seq.length - 1) :: setsWords seq

/-- A chain as an operand word. -/
def chainWord : Chain → Word
  | .low => 0
  | .high => 1

/-- A flag as an operand word. -/
def flagWord (b : Bool) : Word := if b then 1 else 0

/-- The encoder: the packet of an instruction (30_encoding.md R90, R92, R96, R99). -/
def encode : Instr → Packet
  | .nop => .cmd (commandWord 0x00 0)
  | .prepare len => .cmd (commandWord 0x01 len)
  | .reset => .cmd (commandWord 0x02 0)
  | .updateAndProcess len => .cmd (commandWord 0x03 len)
  | .convertSnapshot fsd => .uop (0x80 :: f64Words fsd)
  | .designPeak peakF gainDb q fsd => .uop (0x81 :: (f64Words peakF ++ f64Words gainDb ++ f64Words q ++ f64Words fsd))
  | .designLowcut lowF kL fsd => .uop (0x82 :: (f64Words lowF ++ numWord kL :: f64Words fsd))
  | .designHighcut highF kH fsd => .uop (0x83 :: (f64Words highF ++ numWord kH :: f64Words fsd))
  | .stageSetCoeff c j set => .uop (0x84 :: numWord c.val :: numWord j.val :: setWords set)
  | .stageSetBypass c j b => .uop [0x85, numWord c.val, numWord j.val, flagWord b]
  | .stageProcess c j x => .uop [0x86, numWord c.val, numWord j.val, x]
  | .stageClear c j => .uop [0x87, numWord c.val, numWord j.val]
  | .chainApplyOrder c ch k seq => .uop (0x88 :: numWord c.val :: chainWord ch :: numWord k :: sequenceWords seq)
  | .chainProcess c ch x => .uop [0x89, numWord c.val, chainWord ch, x]
  | .monoProcess c x => .uop [0x8A, numWord c.val, x]
  | .updateCut kL lowSeq kH highSeq =>
    .uop (0x8B :: numWord kL :: (sequenceWords lowSeq ++ numWord kH :: sequenceWords highSeq))
  | .updatePeak set => .uop (0x8C :: setWords set)
  | .update => .uop [0x8D]
  | .blockProcess n => .uop [0x8E, n.setWidth 32]
  | .chainsReset => .uop [0x8F]
  | .memRead a n => .bus [0, a, numWord n]
  | .memWrite a n v => .bus [1, a, numWord n, v]

/-- The words of the longest internal operation: `UPDATE_CUT` with two sequences of four sets. -/
def longestUop : Nat := 45

/-- The first `n` words of the bits `w`, least significant first. -/
def wordsOf : (n : Nat) → (w : Nat) → List Word
  | 0, _ => []
  | n + 1, w => BitVec.ofNat 32 w :: wordsOf n (w / 2 ^ 32)

/-- The packet whose bits are `w`, as spec/opcode_table.json numbers them: a row of 32 bits is a command word, a row of
8 bits the label of an internal operation, which operand words of zeros follow. The bus rows have no bits. -/
def packetOfTable (nbits w : Nat) : Option Packet :=
  if nbits = 32 then (if w < 2 ^ 32 then some (.cmd (BitVec.ofNat 32 w)) else none)
  else if nbits = 8 then some (.uop (wordsOf longestUop w))
  else none

/-- The instruction the decoder reads from an instruction whose bits are `w` (numbered as spec/opcode_table.json does). -/
def decodeTableWord (nbits w : Nat) : Option Instr :=
  match packetOfTable nbits w with
  | none => none
  | some p =>
    match decode p with
    | .ok i => some i
    | .error _ => none

end Sys2Proof
end

