-- ==== Sys2Proof/Machine/State.lean ====
section
/-! DEFINITION. The state of the block as plain data (10_state.md R20), its value after power-on reset (R40), and the
reasons a step can stop. -/
namespace Sys2Proof.Machine

/-- Why the machine stops with a fault. All are safe: the model stops where nothing is known of what follows. -/
inductive Fault where
  /-- Raised by `MemRead` of a sample-buffer word that was never written (20_memory.md R66). Safe. -/
  | noValue (off : Nat)
  /-- Raised by the processing of a sample `Buf[c][i]` that holds no value (43_stereo_processor.md R189). Safe. -/
  | unwrittenSample (c : Lane) (i : Nat)
  /-- Raised by an access beyond the 0x40000 bytes of the window (20_memory.md R60, log 15). Safe. -/
  | outsideWindow (off : Nat)
  deriving DecidableEq, Repr

/-- Why the machine gives an instruction no meaning. All are safe. -/
inductive Refusal where
  /-- Raised by an arm of `exec` whose instruction has no meaning yet. Safe. -/
  | notModelled (mnemonic : String)
  /-- Raised by an instruction whose operands break an obligation of its caller: an order code above 3 or a sequence
  without an entry for it (42_cut_chain.md R161), an access that is not one aligned word (20_memory.md R63). Safe. -/
  | illFormed (why : IllFormed)
  /-- Raised by a step whose next packet is no instruction (log 20). Safe. -/
  | undecodable (why : DecodeError)
  deriving DecidableEq, Repr

/-- An error cause (60_exceptions.md R220). Codes 8 to 15 are reserved and never arise: no state holds one
(93_implementation_defined.md, log 18). -/
inductive Cause where
  | none
  | cmdBusy
  | illegalCmd
  | notPrepared
  | badRate
  | badBlockSize
  | blockTooLong
  | accessBusy
  deriving DecidableEq, Repr

/-- One biquad stage: its coefficient set, its transposed direct form II state and its bypass flag (10_state.md R30). -/
structure Stage where
  coeffs : CoeffSet
  s1 : F32
  s2 : F32
  bypass : Bool
  deriving DecidableEq, Repr

/-- The command in flight (10_state.md R36). -/
structure Pending where
  opc : BitVec 8
  len : BitVec 16
  fsLatched : F32
  deriving DecidableEq, Repr

/-- The converted snapshot `P` (40_coeff_factory.md R118). -/
structure Converted where
  lowF : F64
  highF : F64
  peakF : F64
  gainDb : F64
  q : F64
  kL : Nat
  kH : Nat
  deriving DecidableEq, Repr

/-- The result of an internal operation that has one (the model's own, log 5). -/
inductive UopResult where
  | none
  | snapshot (p : Converted)
  | coeffs (set : CoeffSet)
  | sequence (seq : List CoeffSet)
  | sample (y : F32)
  deriving DecidableEq, Repr

/-- What happens next (the model's own, logs 1 and 2). -/
inductive Request where
  /-- The host performs a bus access, given by its transaction words (30_encoding.md R99). -/
  | host (ws : List Word)
  /-- The engine is given its turn: it completes the command in flight, if there is one (43_stereo_processor.md R181). -/
  | engine
  /-- One internal operation on its own, given by its words; no agent can do this (30_encoding.md R96, log 4). -/
  | micro (ws : List Word)
  /-- Power-on reset (70_reset_and_hazards.md R250, log 21). -/
  | powerOn
  deriving DecidableEq, Repr

/-- The sample buffer as bytes by window offset, in strictly rising order of offset. An offset that is not listed has no
value (`NOVALUE`, 10_state.md R34, log 14). -/
abbrev Memory := List Host.Cell

/-- The state of the block (10_state.md R20). The last five fields are the model's own. -/
structure State where
  busy : Bool
  prepared : Bool
  done : Bool
  err : Bool
  errCause : Cause
  fsArg : F32
  fs : F32
  maxBlk : Word
  param : Vector F32 7
  lanes : Vector (Vector Stage 9) 2
  mem : Memory
  snap : Vector F32 7
  pending : Option Pending
  /-- Next index of the `NAN_DRAW` stream (log 8). -/
  nanDraws : Nat
  /-- Next index of the stream of words busy reads return (log 11). -/
  readDraws : Nat
  /-- The word the last `MemRead` returned (log 5). -/
  readData : Option Word
  /-- The result of the last internal operation that has one (log 5). -/
  result : UopResult
  /-- What happens next, first to last (logs 1 and 2). -/
  inbox : List Request
  deriving DecidableEq, Repr

/-- The flat/unity coefficient set (1.0, +0, +0, +0, +0) (10_state.md R40). -/
def CoeffSet.unity : CoeffSet := ⟨0x3F800000#32, 0#32, 0#32, 0#32, 0#32⟩

/-- A stage after power-on reset (10_state.md R40). -/
def Stage.reset : Stage := ⟨CoeffSet.unity, 0#32, 0#32, true⟩

/-- The reset values of the parameter registers (10_state.md R29). -/
def paramReset : Vector F32 7 :=
  #v[0x41A00000#32, 0x469C4000#32, 0x443B8000#32, 0x00000000#32, 0x3F800000#32, 0x00000000#32, 0x00000000#32]

/-- The state after power-on reset (10_state.md R40, 70_reset_and_hazards.md R250). The snapshot's zeros are a DESIGN
CHOICE (log 13), and so are the values of the model's own fields. -/
def State.reset : State where
  busy := false
  prepared := false
  done := false
  err := false
  errCause := .none
  fsArg := 0#32
  fs := 0#32
  maxBlk := 0#32
  param := paramReset
  lanes := Vector.replicate 2 (Vector.replicate 9 Stage.reset)
  mem := []
  snap := Vector.replicate 7 0#32
  pending := none
  nanDraws := 0
  readDraws := 0
  readData := none
  result := .none
  inbox := []

end Sys2Proof.Machine
end

