-- ==== Sys2Proof/Machine/Ops.lean ====
section
/-! DEFINITION. The named operations over the stage register file, the sample buffer and the error latch. -/
namespace Sys2Proof.Machine

/-- How an instruction ends. -/
abbrev Result := Host.Outcome State Fault Refusal

/-! ### The stage register file (10_state.md R30) -/

/-- `stage[c][j]`. -/
def State.stage (s : State) (c : Lane) (j : StageIdx) : Stage := s.lanes[c][j]

/-- `stage[c][j] <- st`. -/
def State.setStage (s : State) (c : Lane) (j : StageIdx) (st : Stage) : State :=
  { s with lanes := s.lanes.set c (s.lanes[c].set j st) }

/-- The five coefficient registers of a stage change together (41_biquad_stage.md R140). -/
def State.setCoeffs (s : State) (c : Lane) (j : StageIdx) (set : CoeffSet) : State :=
  s.setStage c j { s.stage c j with coeffs := set }

/-- The bypass flag of a stage (R141). -/
def State.setBypass (s : State) (c : Lane) (j : StageIdx) (b : Bool) : State :=
  s.setStage c j { s.stage c j with bypass := b }

/-- A stage returns to its power-on value (R146). -/
def State.clearStage (s : State) (c : Lane) (j : StageIdx) : State := s.setStage c j Stage.reset

/-! ### The sample buffer: bytes by window offset (20_memory.md R62, R66) -/

/-- The strictly rising order of the listed offsets: the one canonical form of a memory. An unlisted offset has no value,
so no listed byte can equal it. -/
abbrev Memory.wf (m : Memory) : Prop := m.Pairwise fun p q => p.1 < q.1

/-- The byte at an offset; none where nothing was written. -/
def Memory.readByte : Memory → Nat → Option Byte
  | [], _ => none
  | (k, b) :: m, a => if k = a then some b else readByte m a

/-- A byte is stored, in its place in the order. -/
def Memory.writeByte : Memory → Nat → Byte → Memory
  | [], a, b => [(a, b)]
  | (k, c) :: m, a, b =>
    if a < k then (a, b) :: (k, c) :: m
    else if a = k then (a, b) :: m
    else (k, c) :: writeByte m a b

/-- Byte lane `i` of a word: `a+0` is bits [7:0] (20_memory.md R62). -/
def byteLane (w : Word) (i : Nat) : Byte := w.extractLsb' (8 * i) 8

/-- The word at an aligned offset, little-endian; none unless all four of its bytes were written. -/
def Memory.readWord (m : Memory) (a : Nat) : Option Word :=
  match m.readByte a, m.readByte (a + 1), m.readByte (a + 2), m.readByte (a + 3) with
  | some b0, some b1, some b2, some b3 => some (b3 ++ b2 ++ b1 ++ b0)
  | _, _, _, _ => none

/-- A word is stored as four bytes, little-endian. -/
def Memory.writeWord (m : Memory) (a : Nat) (w : Word) : Memory :=
  (((m.writeByte a (byteLane w 0)).writeByte (a + 1) (byteLane w 1)).writeByte (a + 2) (byteLane w 2)).writeByte
    (a + 3) (byteLane w 3)

/-- The window offset of `Buf[c][i]` (10_state.md R34). -/
def bufOffset (c : Lane) (i : Nat) : Nat := 0x10000 + 0x10000 * c.val + 4 * i

/-- `Buf[c][i]`; none where `i` is not below `BUF_LEN` or the word has no value. -/
def State.bufRead (s : State) (c : Lane) (i : Nat) : Option F32 :=
  if i < Config.bufLen then s.mem.readWord (bufOffset c i) else none

/-- `Buf[c][i] <- v`. -/
def State.bufWrite (s : State) (c : Lane) (i : Nat) (v : F32) : State :=
  { s with mem := s.mem.writeWord (bufOffset c i) v }

/-! ### Errors: the block's only exceptions, and the only return from them (60_exceptions.md R221 to R224) -/

/-- `report(e)`: the first cause since `ERR` was last cleared is kept (R222). Nothing else changes and control goes
nowhere (R221). -/
def State.report (s : State) (e : Cause) : State :=
  { s with errCause := if s.err then s.errCause else e, err := true }

/-- The acknowledgement of errors: `ERR` and `ERRCAUSE` are cleared together (R224). -/
def State.acknowledgeErr (s : State) : State := { s with err := false, errCause := .none }

/-- The acknowledgement of a completion: `DONE` is cleared (R224). -/
def State.acknowledgeDone (s : State) : State := { s with done := false }

/-! ### Power-on reset -/

/-- Power-on reset: every state element at its reset value, any command in flight abandoned (70_reset_and_hazards.md
R250). What is still to come and the free values already drawn are not the block's and stay (log 21). -/
def State.powerOnReset (s : State) : State :=
  { State.reset with nanDraws := s.nanDraws, readDraws := s.readDraws, inbox := s.inbox }

end Sys2Proof.Machine
end

