-- ==== Sys2Proof/Machine/Operands.lean ====
section
/-! DEFINITION. Operand forms: the assembly of `LEN` (30_encoding.md R91), the place of a chain's slots in a lane
(10_state.md R31), and the address map of the window (20_memory.md R61). -/
namespace Sys2Proof.Machine

/-- `zext_32(word[31:16])` (30_encoding.md R91). -/
def zextLen (len : BitVec 16) : Word := len.setWidth 32

/-- `BUF_LEN` as a word, for comparison with a length (00_scope.md R16: it fits). -/
def bufLenWord : Word := BitVec.ofNat 32 Config.bufLen

/-- A slot 0..3 of a cut chain. -/
abbrev Slot := Fin 4

/-- Slot `i` of a chain is stage `base(ch) + i`: base 0 for `L`, 5 for `H` (42_cut_chain.md). -/
def slotStage : Chain → Slot → StageIdx
  | .low, i => ⟨i.val, by omega⟩
  | .high, i => ⟨5 + i.val, by omega⟩

/-- The slots of a chain in slot order. -/
def slots : List Slot := [0, 1, 2, 3]

/-- The peak stage (10_state.md R31). -/
def peakStage : StageIdx := 4

/-- The stages of a lane in signal order (10_state.md R31). -/
def stages : List StageIdx := [0, 1, 2, 3, 4, 5, 6, 7, 8]

/-- What stands at an offset of the window. -/
inductive Target where
  | id
  | version
  | cmd
  | status
  | errCause
  | fsArg
  | fs
  | maxBlk
  | param (i : Fin 7)
  /-- Word `w` of stage `j` of lane `c` in the stage view. -/
  | stageView (c : Lane) (j : StageIdx) (w : Fin 8)
  /-- Offsets 0x220 to 0x2FF and 0x420 to 0x4FF, inside the stage view. -/
  | viewGap
  /-- Word `i` of lane `c` in the lane's 64 KiB region; it exists only below `BUF_LEN`. -/
  | sample (c : Lane) (i : Nat)
  | reserved
  deriving DecidableEq, Repr

/-- The stage-view word at `d` bytes into a lane's 0x200 bytes (10_state.md R32). -/
def viewTarget (c : Lane) (d : Nat) : Target :=
  if h : d / 0x20 < 9 then .stageView c ⟨d / 0x20, h⟩ ⟨d % 0x20 / 4, by omega⟩ else .viewGap

/-- The control registers, offsets 0x000 to 0x03F (20_memory.md R61). -/
def controlTarget : Nat → Target
  | 0x000 => .id
  | 0x004 => .version
  | 0x008 => .cmd
  | 0x00C => .status
  | 0x010 => .errCause
  | 0x014 => .fsArg
  | 0x018 => .fs
  | 0x01C => .maxBlk
  | _ => .reserved

/-- The parameter registers, offsets 0x040 to 0x0FF (20_memory.md R61). -/
def paramTarget (off : Nat) : Target :=
  if h : off < 0x05C then .param ⟨(off - 0x040) / 4, by omega⟩ else .reserved

/-- The sample buffers, offsets 0x10000 on (20_memory.md R61). -/
def bufferTarget (off : Nat) : Target :=
  if off < 0x20000 then .sample 0 ((off - 0x10000) / 4)
  else if off < 0x30000 then .sample 1 ((off - 0x20000) / 4)
  else .reserved

/-- The address map: what stands at an aligned offset below 0x40000 (20_memory.md R61). -/
def target (off : Nat) : Target :=
  if off < 0x040 then controlTarget off
  else if off < 0x100 then paramTarget off
  else if off < 0x300 then viewTarget 0 (off - 0x100)
  else if off < 0x500 then viewTarget 1 (off - 0x300)
  else if off < 0x10000 then .reserved
  else bufferTarget off

/-- The size of the window in bytes (20_memory.md R60). -/
def windowSize : Nat := 0x40000

/-- The byte address on the host bus of an offset of the window (20_memory.md R60). -/
def busAddress (off : Nat) : Nat := Config.base + off

/-- The offset in the window of a byte address on the host bus; none where the address is not the block's. -/
def windowOffset (addr : Nat) : Option Nat :=
  if Config.base ≤ addr ∧ addr < Config.base + windowSize then some (addr - Config.base) else none

end Sys2Proof.Machine
end

