-- ==== Sys2Proof/Machine/Flags.lean ====
section
/-! DEFINITION. Every flag of the block: the `STATUS` bits (10_state.md R23), the cause code (R25) and the bypass flag in
the stage view (R32). -/
namespace Sys2Proof.Machine

/-- A flag as a word whose bit 0 it is. -/
def bit (b : Bool) : Word := if b then 1#32 else 0#32

/-- The word `STATUS` reads: bit 0 `BUSY`, 1 `PREPARED`, 2 `DONE`, 3 `ERR`, [31:4] zero (10_state.md R23). -/
def State.statusWord (s : State) : Word :=
  bit s.busy ||| (bit s.prepared <<< 1) ||| (bit s.done <<< 2) ||| (bit s.err <<< 3)

/-- A host write of `STATUS`: bit 2 set clears `DONE`, bit 3 set clears `ERR` and `ERRCAUSE`; every other bit is ignored
(10_state.md R23). -/
def State.writeStatus (s : State) (v : Word) : State :=
  let s := if v.getLsbD 2 then s.acknowledgeDone else s
  if v.getLsbD 3 then s.acknowledgeErr else s

/-- The code of a cause (60_exceptions.md R220). -/
def Cause.code : Cause → BitVec 4
  | .none => 0
  | .cmdBusy => 1
  | .illegalCmd => 2
  | .notPrepared => 3
  | .badRate => 4
  | .badBlockSize => 5
  | .blockTooLong => 6
  | .accessBusy => 7

/-- The word `ERRCAUSE` reads: the code in [3:0], [31:4] zero (10_state.md R25). -/
def State.errCauseWord (s : State) : Word := s.errCause.code.setWidth 32

/-- The flags of an accepted command: `BUSY` set, `DONE` cleared (43_stereo_processor.md R180). -/
def State.flagsAccepted (s : State) : State := { s with busy := true, done := false }

/-- The flags of a completed command: `BUSY` cleared, `DONE` set (43_stereo_processor.md R181). -/
def State.flagsCompleted (s : State) : State := { s with busy := false, done := true }

/-- Word `w` of a stage in the stage view; word 7 is `FLAGS`, bit 0 the bypass flag (10_state.md R32). -/
def Stage.viewWord (st : Stage) : Fin 8 → Word
  | 0 => st.coeffs.b0
  | 1 => st.coeffs.b1
  | 2 => st.coeffs.b2
  | 3 => st.coeffs.a1
  | 4 => st.coeffs.a2
  | 5 => st.s1
  | 6 => st.s2
  | 7 => bit st.bypass

end Sys2Proof.Machine
end

