-- ==== Sys2Proof/Machine/DesignFn.lean ====
section
/-! DEFINITION. `DESIGN_FN`: the functions `cos64`, `sin64`, `exp10_64` (40_coeff_factory.md R112). Each is an
uninterpreted function of Config on which the properties of R112 are imposed: a value outside its property's bounds is
replaced by one inside. Every function with the properties is one of these, and nothing else is known of them (log 7): the
accuracy that R126 rests on is a premise of the statements about it, in Safety.lean (log 27). -/
namespace Sys2Proof.Machine

/-- 1.0 in binary64. -/
def one64 : F64 := 0x3FF0000000000000#64

/-- The angles the factory passes lie between these bounds: 2π × 20 / 192000 is above the lower one, 0.00065, and the
upper one is the 3.0788 of 40_coeff_factory.md R119 (DEDUCED, log 7). -/
def factoryAngle (w : F64) : Bool := le64 0x3F454C985F06F694#64 w && le64 w 0x4008A161E4F765FE#64

/-- The arguments of property 3: -1.2 ≤ x ≤ 1.2. -/
def factoryExponent (x : F64) : Bool := le64 0xBFF3333333333333#64 x && le64 x 0x3FF3333333333333#64

/-- `cos64` (40_coeff_factory.md R112, property 2: finite, -1 ≤ cos64(w0) < 1). -/
def cos64 (w : F64) : F64 :=
  let v := Config.cosFree w
  if factoryAngle w then
    if isFinite64 v && le64 0xBFF0000000000000#64 v && lt64 v one64 then v else 0#64
  else v

/-- `sin64` (R112, property 2: finite, sin64(w0) > 0). -/
def sin64 (w : F64) : F64 :=
  let v := Config.sinFree w
  if factoryAngle w then (if isFinite64 v && lt64 0#64 v then v else one64) else v

/-- `exp10_64` (R112, property 1: 1.0 at both zeros; property 3: finite and above 0 for -1.2 ≤ x ≤ 1.2). -/
def exp10_64 (x : F64) : F64 :=
  let v := Config.exp10Free x
  if isZero64 x then one64
  else if factoryExponent x then (if isFinite64 v && lt64 0#64 v then v else one64)
  else v

end Sys2Proof.Machine
end

