-- ==== Sys2Proof/Machine/Factory.lean ====
section
/-! DEFINITION. The coefficient factory (butterworth_coeff_gen): 40_coeff_factory.md. All of it is binary64, in the order
the pseudocode writes, each coefficient rounded once to binary32 (R111). -/
namespace Sys2Proof.Machine

/-! ### Parameter conversion -/

/-- `hi = min64(20000.0, 0.49 *64 fsd)` (R113). -/
def freqHigh (fsd : F64) : F64 := min64 0x40D3880000000000#64 (mul64 0x3FDF5C28F5C28F5C#64 fsd)

/-- `convFreq(v, d)`: a NaN gives the default; lower bound 20.0 first, then `hi` (R114). -/
def convFreq (fsd : F64) (v : F32) (d : F64) : F64 :=
  min64 (max64 (if isNaN32 v then d else widen v) 0x4034000000000000#64) (freqHigh fsd)

/-- The gain conversion to [-24, 24] dB (R115). -/
def convGain (v : F32) : F64 :=
  min64 (max64 (if isNaN32 v then 0#64 else widen v) 0xC038000000000000#64) 0x4038000000000000#64

/-- The quality conversion to [`Q_LO`, 10.0] (R116). -/
def convQuality (v : F32) : F64 :=
  min64 (max64 (if isNaN32 v then one64 else widen v) 0x3FB999999999999A#64) 0x4024000000000000#64

/-- `convSlope(v)`: the order code 0..3 (R117). -/
def convSlope (v : F32) : Nat :=
  if isNaN32 v then 0
  else if le64 (widen v) 0#64 then 0
  else if le64 0x4008000000000000#64 (widen v) then 3
  else truncNat (widen v)

/-- `CONVERT_SNAPSHOT` (R118). -/
def convertSnapshot (snap : Vector F32 7) (fsd : F64) : Converted where
  lowF := convFreq fsd snap[0] 0x4034000000000000#64
  highF := convFreq fsd snap[1] 0x40D3880000000000#64
  peakF := convFreq fsd snap[2] 0x4087700000000000#64
  gainDb := convGain snap[3]
  q := convQuality snap[4]
  kL := convSlope snap[5]
  kH := convSlope snap[6]

/-! ### The designs -/

/-- `w0(f)` = (2π f) / fs (R119). -/
def angle (f fsd : F64) : F64 := div64 (mul64 0x401921FB54442D18#64 f) fsd

/-- The peaking-EQ set from A, cos, sin and quality (R120). -/
def peakSet (A c s q : F64) : CoeffSet :=
  let alpha := div64 s (mul64 0x4000000000000000#64 q)
  let c2 := mul64 0xC000000000000000#64 c
  let aA := mul64 alpha A
  let aoA := div64 alpha A
  let a0 := add64 one64 aoA
  { b0 := rnd32 (div64 (add64 one64 aA) a0)
    b1 := rnd32 (div64 c2 a0)
    b2 := rnd32 (div64 (sub64 one64 aA) a0)
    a1 := rnd32 (div64 c2 a0)
    a2 := rnd32 (div64 (sub64 one64 aoA) a0) }

/-- The cookbook's A: the square root of the linear gain 10^(gainDb/20) (R120). -/
def peakAmplitude (gainDb : F64) : F64 := sqrt64 (exp10_64 (div64 gainDb 0x4034000000000000#64))

/-- `DESIGN_PEAK` (R120). -/
def designPeak (peakF gainDb q fsd : F64) : CoeffSet :=
  peakSet (peakAmplitude gainDb) (cos64 (angle peakF fsd)) (sin64 (angle peakF fsd)) q

/-- `Q_ROM[N]` with N = 2(k+1): the qualities of sections 0..k (R121). There is no row for another `k`. -/
def qRom : Nat → List F64
  | 0 => [0x3FE6A09E667F3BCD#64]
  | 1 => [0x3FE1517A7BDB3895#64, 0x3FF4E7AE9144F0FC#64]
  | 2 => [0x3FE0907DC1930690#64, 0x3FE6A09E667F3BCD#64, 0x3FFEE8DD4748BF15#64]
  | 3 => [0x3FE0503ED17CBA53#64, 0x3FE33E37A1E0173E#64, 0x3FECCC9AEFB18D58#64, 0x400480D9D073B428#64]
  | _ => []

/-- The kind of a cut section: low-pass or high-pass (R122). -/
inductive SectionKind where
  | lp
  | hp
  deriving DecidableEq, Repr

/-- `n0` of a cut section (R122). -/
def sectionN0 : SectionKind → F64 → F64
  | .lp, c => div64 (sub64 one64 c) 0x4000000000000000#64
  | .hp, c => div64 (add64 one64 c) 0x4000000000000000#64

/-- `n1` of a cut section (R122). -/
def sectionN1 : SectionKind → F64 → F64
  | .lp, c => sub64 one64 c
  | .hp, c => neg64 (add64 one64 c)

/-- `CUT_SECTION` from cos, sin and quality (R122). -/
def cutSet (kind : SectionKind) (c s Q : F64) : CoeffSet :=
  let alpha := div64 s (mul64 0x4000000000000000#64 Q)
  let a0 := add64 one64 alpha
  let b0 := rnd32 (div64 (sectionN0 kind c) a0)
  { b0 := b0
    b1 := rnd32 (div64 (sectionN1 kind c) a0)
    b2 := b0
    a1 := rnd32 (div64 (mul64 0xC000000000000000#64 c) a0)
    a2 := rnd32 (div64 (sub64 one64 alpha) a0) }

/-- The sections of a cut design: one for each quality of its order, all at the same angle (R123). -/
def cutSequence (kind : SectionKind) (f : F64) (k : Nat) (fsd : F64) : List CoeffSet :=
  (qRom k).map (cutSet kind (cos64 (angle f fsd)) (sin64 (angle f fsd)))

/-- `DESIGN_LOWCUT`: high-pass sections 0..kL (R124). -/
def designLowcut (lowF : F64) (kL : Nat) (fsd : F64) : List CoeffSet := cutSequence .hp lowF kL fsd

/-- `DESIGN_HIGHCUT`: low-pass sections 0..kH (R125). -/
def designHighcut (highF : F64) (kH : Nat) (fsd : F64) : List CoeffSet := cutSequence .lp highF kH fsd

/-! ### The instructions -/

/-- An operation of the factory writes no register: only its result appears (R110). -/
def State.withResult (s : State) (r : UopResult) : State := { s with result := r }

/-- `CONVERT_SNAPSHOT` of the state's snapshot at the rate `fsd` (R118). -/
def execConvertSnapshot (fsd : F64) (s : State) : Result :=
  .next (s.withResult (.snapshot (convertSnapshot s.snap fsd)))

/-- `DESIGN_PEAK` (R120). -/
def execDesignPeak (peakF gainDb q fsd : F64) (s : State) : Result :=
  .next (s.withResult (.coeffs (designPeak peakF gainDb q fsd)))

/-- `DESIGN_LOWCUT` (R124); an order code above 3 is refused (42_cut_chain.md R161, log 17). -/
def execDesignLowcut (lowF : F64) (kL : Nat) (fsd : F64) (s : State) : Result :=
  match checkOrder kL with
  | some why => .refused (.illFormed why)
  | none => .next (s.withResult (.sequence (designLowcut lowF kL fsd)))

/-- `DESIGN_HIGHCUT` (R125); an order code above 3 is refused (42_cut_chain.md R161, log 17). -/
def execDesignHighcut (highF : F64) (kH : Nat) (fsd : F64) (s : State) : Result :=
  match checkOrder kH with
  | some why => .refused (.illFormed why)
  | none => .next (s.withResult (.sequence (designHighcut highF kH fsd)))

end Sys2Proof.Machine
end

