-- ==== Sys2Proof/Machine/Biquad.lean ====
section
/-! DEFINITION. The biquad stage: 41_biquad_stage.md. -/
namespace Sys2Proof.Machine

/-- `ACTIVE_PROCESS`: transposed direct form II, nine binary32 operations in the order written, no fused operation
(R143). The results that are NaNs take the draws `n`, `n+1`, … `n+8` of `NAN_DRAW` (R144, log 8). -/
def Stage.active (n : Nat) (st : Stage) (x : F32) : F32 × Stage :=
  let k := st.coeffs
  let y := add32 (n + 1) (mul32 n k.b0 x) st.s1
  let n1 := add32 (n + 5) (sub32 (n + 4) (mul32 (n + 2) k.b1 x) (mul32 (n + 3) k.a1 y)) st.s2
  let n2 := sub32 (n + 8) (mul32 (n + 6) k.b2 x) (mul32 (n + 7) k.a2 y)
  (y, { st with s1 := n1, s2 := n2 })

/-- `STAGE_PROCESS` of one sample: a bypassed stage returns it bit for bit and keeps its state (R142). -/
def stageProcess (c : Lane) (j : StageIdx) (x : F32) (s : State) : F32 × State :=
  if (s.stage c j).bypass then (x, s)
  else
    let r := (s.stage c j).active s.nanDraws x
    (r.1, { s.setStage c j r.2 with nanDraws := s.nanDraws + 9 })

/-- `STAGE_SET_COEFF`: the state and the bypass flag stay (R140). -/
def execStageSetCoeff (c : Lane) (j : StageIdx) (set : CoeffSet) (s : State) : Result :=
  .next (s.setCoeffs c j set)

/-- `STAGE_SET_BYPASS`: only the flag changes (R141). -/
def execStageSetBypass (c : Lane) (j : StageIdx) (b : Bool) (s : State) : Result :=
  .next (s.setBypass c j b)

/-- `STAGE_PROCESS` (R142); its output sample is the result. -/
def execStageProcess (c : Lane) (j : StageIdx) (x : F32) (s : State) : Result :=
  let r := stageProcess c j x s
  .next (r.2.withResult (.sample r.1))

/-- `STAGE_CLEAR` (R146). -/
def execStageClear (c : Lane) (j : StageIdx) (s : State) : Result :=
  .next (s.clearStage c j)

end Sys2Proof.Machine
end

