-- ==== Sys2Proof/Machine/CutChain.lean ====
section
/-! DEFINITION. The cut filter chain and the mono chain: 42_cut_chain.md. -/
namespace Sys2Proof.Machine

/-- Step 1 of `CHAIN_APPLY_ORDER`: every slot bypassed (R160). -/
def bypassChain (c : Lane) (ch : Chain) (s : State) : State :=
  slots.foldl (fun s i => s.setBypass c (slotStage ch i) true) s

/-- Step 2 of `CHAIN_APPLY_ORDER`: each slot that has a set takes it and leaves bypass (R160). -/
def activateSlots (c : Lane) (ch : Chain) (sets : List CoeffSet) (s : State) : State :=
  (slots.zip sets).foldl
    (fun s p => (s.setCoeffs c (slotStage ch p.1) p.2).setBypass c (slotStage ch p.1) false) s

/-- `CHAIN_APPLY_ORDER` for an order code 0..3: entries 0..k of the sequence are read, no other (R160). -/
def applyOrder (c : Lane) (ch : Chain) (k : Nat) (seq : List CoeffSet) (s : State) : State :=
  activateSlots c ch (seq.take (k + 1)) (bypassChain c ch s)

/-- What is wrong with an order code and a sequence handed over by a faulty caller (R161, log 17). -/
def orderFault (k : Nat) (seq : List CoeffSet) : Option IllFormed :=
  if 3 < k then some (.orderCode k)
  else if seq.length < k + 1 then some (.sequenceLength seq.length)
  else none

/-- `CHAIN_PROCESS`: the sample passes the four slots in slot order (R164). -/
def chainProcess (c : Lane) (ch : Chain) (x : F32) (s : State) : F32 × State :=
  slots.foldl (fun r i => stageProcess c (slotStage ch i) r.1 r.2) (x, s)

/-- `MONO_PROCESS`: low-cut chain, peak stage, high-cut chain (R165). -/
def monoProcess (c : Lane) (x : F32) (s : State) : F32 × State :=
  let u := chainProcess c .low x s
  let v := stageProcess c peakStage u.1 u.2
  chainProcess c .high v.1 v.2

/-- `CHAIN_APPLY_ORDER` (R160); another order code is refused rather than given a behaviour (R161). -/
def execChainApplyOrder (c : Lane) (ch : Chain) (k : Nat) (seq : List CoeffSet) (s : State) : Result :=
  match orderFault k seq with
  | some why => .refused (.illFormed why)
  | none => .next (applyOrder c ch k seq s)

/-- `CHAIN_PROCESS` (R164); its output sample is the result. -/
def execChainProcess (c : Lane) (ch : Chain) (x : F32) (s : State) : Result :=
  let r := chainProcess c ch x s
  .next (r.2.withResult (.sample r.1))

/-- `MONO_PROCESS` (R165); its output sample is the result. -/
def execMonoProcess (c : Lane) (x : F32) (s : State) : Result :=
  let r := monoProcess c x s
  .next (r.2.withResult (.sample r.1))

end Sys2Proof.Machine
end

