-- ==== Sys2Proof/Machine/Stereo.lean ====
section
/-! DEFINITION. The stereo processor: the update protocol and block processing (43_stereo_processor.md section 2) and the
reset of both lanes (70_reset_and_hazards.md R251). -/
namespace Sys2Proof.Machine

/-- One lane's part of `UPDATE_CUT`: its low-cut chain, then its high-cut chain (R184). -/
def updateCutLane (c : Lane) (kL : Nat) (lowSeq : List CoeffSet) (kH : Nat) (highSeq : List CoeffSet) (s : State) :
    State :=
  applyOrder c .high kH highSeq (applyOrder c .low kL lowSeq s)

/-- `UPDATE_CUT`: the same sequences go to both lanes (R184). -/
def updateCut (kL : Nat) (lowSeq : List CoeffSet) (kH : Nat) (highSeq : List CoeffSet) (s : State) : State :=
  updateCutLane 1 kL lowSeq kH highSeq (updateCutLane 0 kL lowSeq kH highSeq s)

/-- One lane's part of `UPDATE_PEAK` (R185). -/
def updatePeakLane (c : Lane) (set : CoeffSet) (s : State) : State :=
  (s.setCoeffs c peakStage set).setBypass c peakStage false

/-- `UPDATE_PEAK`: both peak stages take the set and leave bypass (R185). -/
def updatePeak (set : CoeffSet) (s : State) : State := updatePeakLane 1 set (updatePeakLane 0 set s)

/-- `UPDATE`: conversion, design, cut update, peak update (R186). -/
def update (s : State) : State :=
  let fsd := widen s.fs
  let P := convertSnapshot s.snap fsd
  let set := designPeak P.peakF P.gainDb P.q fsd
  let lowSeq := designLowcut P.lowF P.kL fsd
  let highSeq := designHighcut P.highF P.kH fsd
  updatePeak set (updateCut P.kL lowSeq P.kH highSeq s)

/-- One sample of a lane processed in place: `Buf[c][i] <- MONO_PROCESS(c, x)` (R187). -/
def processSample (c : Lane) (i : Nat) (x : F32) (s : State) : State :=
  let r := monoProcess c x s
  r.2.bufWrite c i r.1

/-- `n` samples of one lane from index `i` on, in place, in increasing index (R187); a word without a value is a model
fault (R189). -/
def blockLane (c : Lane) : (n : Nat) → (i : Nat) → State → Except Fault State
  | 0, _, s => .ok s
  | n + 1, i, s =>
    match s.bufRead c i with
    | none => .error (.unwrittenSample c i)
    | some x => blockLane c n (i + 1) (processSample c i x s)

/-- `BLOCK_PROCESS`: lane 0, then lane 1; the lanes share no state, so any order gives the same (R187, R188, log 22). -/
def blockProcess (n : Nat) (s : State) : Except Fault State :=
  match blockLane 0 n 0 s with
  | .error e => .error e
  | .ok s => blockLane 1 n 0 s

/-- Every stage of a lane cleared (70_reset_and_hazards.md R251). -/
def clearLane (c : Lane) (s : State) : State := stages.foldl (fun s j => s.clearStage c j) s

/-- `CHAINS_RESET`: every stage of both lanes cleared (70_reset_and_hazards.md R251). -/
def chainsReset (s : State) : State := clearLane 1 (clearLane 0 s)

/-- `UPDATE_CUT` (R184); an order code above 3 or a missing entry is refused (42_cut_chain.md R161, log 17). -/
def execUpdateCut (kL : Nat) (lowSeq : List CoeffSet) (kH : Nat) (highSeq : List CoeffSet) (s : State) : Result :=
  match (orderFault kL lowSeq).orElse (fun _ => orderFault kH highSeq) with
  | some why => .refused (.illFormed why)
  | none => .next (updateCut kL lowSeq kH highSeq s)

/-- `UPDATE_PEAK` (R185). -/
def execUpdatePeak (set : CoeffSet) (s : State) : Result := .next (updatePeak set s)

/-- `UPDATE` (R186). -/
def execUpdate (s : State) : Result := .next (update s)

/-- `BLOCK_PROCESS` (R187, R189). -/
def execBlockProcess (n : BitVec 16) (s : State) : Result :=
  match blockProcess n.toNat s with
  | .ok s => .next s
  | .error e => .fault e

/-- `CHAINS_RESET` (70_reset_and_hazards.md R251). -/
def execChainsReset (s : State) : Result := .next (chainsReset s)

end Sys2Proof.Machine
end

