-- ==== Sys2Proof/Machine/Commands.lean ====
section
/-! DEFINITION. The life of a host command (43_stereo_processor.md sections 1 and 3): acceptance in the step of the `CMD`
write (R180), completion in one step of the engine (R181, R200 to R203). -/
namespace Sys2Proof.Machine

/-! ### Acceptance -/

/-- `BAD_RATE`: a NaN, below `FS_MIN` or above `FS_MAX` (R180). -/
def badRate (f : F32) : Bool := isNaN32 f || lt32 f Config.fsMin || lt32 Config.fsMax f

/-- The cause that rejects a legal command on an idle block, by the check order of R180; none where it is accepted. -/
def State.rejects (s : State) : Command → Option Cause
  | .nop => none
  | .reset => none
  | .prepare len =>
    if badRate s.fsArg then some .badRate
    else if zextLen len = 0#32 ∨ bufLenWord < zextLen len then some .badBlockSize
    else none
  | .updateAndProcess len =>
    if !s.prepared then some .notPrepared
    else if s.maxBlk < zextLen len then some .blockTooLong
    else none

/-- What acceptance latches as `fsLatched`: `FS_ARG` for PREPARE, +0.0 otherwise (R180). -/
def State.latchedRate (s : State) : Command → F32
  | .prepare _ => s.fsArg
  | .nop => 0#32
  | .reset => 0#32
  | .updateAndProcess _ => 0#32

/-- The snapshot after acceptance: a copy of the parameters for UPDATE_AND_PROCESS (R180). -/
def State.snapAfter (s : State) : Command → Vector F32 7
  | .updateAndProcess _ => s.param
  | .nop => s.snap
  | .reset => s.snap
  | .prepare _ => s.snap

/-- The state an accepted command word leaves (R180). -/
def State.accept (s : State) (w : Word) (cmd : Command) : State :=
  { s.flagsAccepted with
    pending := some { opc := opcField w, len := lenField w, fsLatched := s.latchedRate cmd }
    snap := s.snapAfter cmd }

/-- A host write to `CMD` presents the word `w` (R180). -/
def State.present (s : State) (w : Word) : State :=
  if s.busy then s.report .cmdBusy
  else
    match matchRow w with
    | none => s.report .illegalCmd
    | some cmd =>
      match s.rejects cmd with
      | some e => s.report e
      | none => s.accept w cmd

/-! ### Completion -/

/-- The end of every completion step: `BUSY` cleared, `DONE` set, nothing pending (R181). -/
def State.complete (s : State) : State := { s.flagsCompleted with pending := none }

/-- A command completes only while one is pending (R181); with none the engine takes no step and the block stays as it is
(70_reset_and_hazards.md R263). -/
def whilePending (s : State) (effect : Pending → Result) : Result :=
  match s.pending with
  | none => .next s
  | some p => effect p

/-- `complete PREPARE(len, fsLatched)` (R201). -/
def State.prepareEffect (s : State) (len : BitVec 16) (fsLatched : F32) : State :=
  { chainsReset s with fs := fsLatched, maxBlk := zextLen len, prepared := true }

/-- `NOP`: no effect beyond completion (R200). -/
def execNop (s : State) : Result := whilePending s fun _ => .next s.complete

/-- `PREPARE` (R201); the rate is the one latched at acceptance. -/
def execPrepare (len : BitVec 16) (s : State) : Result :=
  whilePending s fun p => .next (s.prepareEffect len p.fsLatched).complete

/-- `RESET` (R202). -/
def execReset (s : State) : Result := whilePending s fun _ => .next (chainsReset s).complete

/-- `UPDATE_AND_PROCESS`: the update, then the block if there is one (R203); an unwritten sample is a model fault
(R189). -/
def execUpdateAndProcess (len : BitVec 16) (s : State) : Result :=
  whilePending s fun _ =>
    if len = 0#16 then .next (update s).complete
    else
      match blockProcess len.toNat (update s) with
      | .ok t => .next t.complete
      | .error e => .fault e

end Sys2Proof.Machine
end

