-- ==== Sys2Proof/Machine/Bus.lean ====
section
/-! DEFINITION. The host bus accesses `MemRead` and `MemWrite` (20_memory.md R60 to R70). -/
namespace Sys2Proof.Machine

/-- A read returns a word and changes nothing of the block (R64). -/
def State.returns (s : State) (w : Word) : Result := .next { s with readData := some w }

/-- A read that returns an arbitrary word (R66, 10_state.md R32, log 11). -/
def State.returnsAny (s : State) : Result :=
  .next { s with readData := some (Config.busyWord s.readDraws), readDraws := s.readDraws + 1 }

/-- A read of what stands at an offset (10_state.md R21 to R32, 20_memory.md R64 to R67). -/
def State.readTarget (s : State) : Target → Result
  | .id => s.returns 0x42514331#32
  | .version => s.returns 0x00000001#32
  | .cmd => s.returns 0#32
  | .status => s.returns s.statusWord
  | .errCause => s.returns s.errCauseWord
  | .fsArg => s.returns s.fsArg
  | .fs => s.returns s.fs
  | .maxBlk => s.returns s.maxBlk
  | .param i => s.returns s.param[i]
  | .stageView c j w => if s.busy then s.returnsAny else s.returns ((s.stage c j).viewWord w)
  | .viewGap => if s.busy then s.returnsAny else s.returns 0#32
  | .sample c i =>
    if Config.bufLen ≤ i then s.returns 0#32
    else if s.busy then s.returnsAny
    else
      match s.bufRead c i with
      | some w => s.returns w
      | none => .fault (.noValue (bufOffset c i))
  | .reserved => s.returns 0#32

/-- The state after a write to what stands at an offset (10_state.md R21 to R32, 20_memory.md R65 to R68). -/
def State.writeTarget (s : State) (v : Word) : Target → State
  | .id => s
  | .version => s
  | .cmd => s.present v
  | .status => s.writeStatus v
  | .errCause => s
  | .fsArg => { s with fsArg := v }
  | .fs => s
  | .maxBlk => s
  | .param i => { s with param := s.param.set i v }
  | .stageView _ _ _ => s
  | .viewGap => s
  | .sample c i =>
    if Config.bufLen ≤ i then s
    else if s.busy then s.report .accessBusy
    else s.bufWrite c i v
  | .reserved => s

/-- An access that is one aligned word of the window goes on; another form is a host obligation broken (R63), and beyond
the window there is nothing (R60, log 15). -/
def accessing (a : Word) (n : Nat) (go : Target → Result) : Result :=
  match checkAccess a n with
  | some why => .refused (.illFormed why)
  | none => if a.toNat < windowSize then go (target a.toNat) else .fault (.outsideWindow a.toNat)

/-- `MemRead(a, 4)` (R64). -/
def execMemRead (a : Word) (n : Nat) (s : State) : Result :=
  accessing a n s.readTarget

/-- `MemWrite(a, 4, v)` (R68). -/
def execMemWrite (a : Word) (n : Nat) (v : Word) (s : State) : Result :=
  accessing a n fun t => .next (s.writeTarget v t)

end Sys2Proof.Machine
end

