-- ==== Sys2Proof/Machine/Dispatch.lean ====
section
/-! DEFINITION. The dispatch: one arm per constructor of Instr. -/
namespace Sys2Proof.Machine

def exec (i : Instr) (s : State) : Host.Outcome State Fault Refusal :=
  match i with
  | .nop => Sys2Proof.Machine.execNop s
  | .prepare len => Sys2Proof.Machine.execPrepare len s
  | .reset => Sys2Proof.Machine.execReset s
  | .updateAndProcess len => Sys2Proof.Machine.execUpdateAndProcess len s
  | .convertSnapshot fsd => Sys2Proof.Machine.execConvertSnapshot fsd s
  | .designPeak peakF gainDb q fsd => Sys2Proof.Machine.execDesignPeak peakF gainDb q fsd s
  | .designLowcut lowF kL fsd => Sys2Proof.Machine.execDesignLowcut lowF kL fsd s
  | .designHighcut highF kH fsd => Sys2Proof.Machine.execDesignHighcut highF kH fsd s
  | .stageSetCoeff c j set => Sys2Proof.Machine.execStageSetCoeff c j set s
  | .stageSetBypass c j b => Sys2Proof.Machine.execStageSetBypass c j b s
  | .stageProcess c j x => Sys2Proof.Machine.execStageProcess c j x s
  | .stageClear c j => Sys2Proof.Machine.execStageClear c j s
  | .chainApplyOrder c ch k seq => Sys2Proof.Machine.execChainApplyOrder c ch k seq s
  | .chainProcess c ch x => Sys2Proof.Machine.execChainProcess c ch x s
  | .monoProcess c x => Sys2Proof.Machine.execMonoProcess c x s
  | .updateCut kL lowSeq kH highSeq => Sys2Proof.Machine.execUpdateCut kL lowSeq kH highSeq s
  | .updatePeak peakSet => Sys2Proof.Machine.execUpdatePeak peakSet s
  | .update => Sys2Proof.Machine.execUpdate s
  | .blockProcess n => Sys2Proof.Machine.execBlockProcess n s
  | .chainsReset => Sys2Proof.Machine.execChainsReset s
  | .memRead a n => Sys2Proof.Machine.execMemRead a n s
  | .memWrite a n v => Sys2Proof.Machine.execMemWrite a n v s

end Sys2Proof.Machine
end

