-- ==== Sys2Proof/Machine/Fetch.lean ====
section
/-! DEFINITION. What the machine takes next: there is no program counter (10_state.md R24); the host's accesses come from
outside, and the engine takes the command in flight (60_exceptions.md R230, logs 1 and 2). -/
namespace Sys2Proof.Machine

/-- What a step finds to do, and the state it does it in. -/
inductive Fetched where
  /-- Nothing: the block stays as it is (70_reset_and_hazards.md R263). -/
  | idle (s : State)
  /-- Power-on reset (R250). -/
  | powerOn (s : State)
  /-- An instruction. -/
  | packet (p : Packet) (s : State)
  deriving DecidableEq, Repr

/-- The engine's turn: the command in flight, if there is one (43_stereo_processor.md R181). -/
def engineTurn (s : State) : Fetched :=
  match s.pending with
  | none => .idle s
  | some p => .packet (.cmd (commandWord p.opc p.len)) s

/-- The first request is taken off the inbox. When the host has stopped, the engine has its turn, so that every accepted
command completes after finitely many steps (43_stereo_processor.md R182, log 2). -/
def fetch (s : State) : Fetched :=
  match s.inbox with
  | [] => engineTurn s
  | .host ws :: rest => .packet (.bus ws) { s with inbox := rest }
  | .micro ws :: rest => .packet (.uop ws) { s with inbox := rest }
  | .engine :: rest => engineTurn { s with inbox := rest }
  | .powerOn :: rest => .powerOn { s with inbox := rest }

/-- A command in flight that the engine is about to complete; an illegal word, which no acceptance lets in flight, is
presented at `CMD` instead (log 1). -/
def State.placeCommand (s : State) (w : Word) : State :=
  match matchRow w with
  | some _ =>
    { s with
      busy := true
      pending := some { opc := opcField w, len := lenField w, fsLatched := s.fsArg }
      inbox := .engine :: s.inbox }
  | none => { s with inbox := .host [1#32, 0x008#32, 4#32, w] :: s.inbox }

/-- The packet of an opcode-table row placed where the next step finds it (log 1). -/
def State.placePacket (s : State) : Packet → State
  | .cmd w => s.placeCommand w
  | .uop ws => { s with inbox := .micro ws :: s.inbox }
  | .bus ws => { s with inbox := .host ws :: s.inbox }

end Sys2Proof.Machine
end

