-- ==== Sys2Proof/Machine/Step.lean ====
section
/-! DEFINITION. One step of the machine: what comes next is fetched, decoded and executed. -/
namespace Sys2Proof.Machine

/-- One step: a host access, the completion of the command in flight, power-on reset, or nothing. -/
def step (s : State) : Host.Outcome State Fault Refusal :=
  match fetch s with
  | .idle t => .next t
  | .powerOn t => .next t.powerOnReset
  | .packet p t =>
    match decode p with
    | .ok i => exec i t
    | .error why => .refused (.undecodable why)

/-- The state `s` with the instruction whose bits are `w` (numbered as spec/opcode_table.json does) placed where `step`
takes its next one (log 1). -/
def State.withFetchWord (s : State) (nbits w : Nat) : State :=
  match packetOfTable nbits w with
  | some p => s.placePacket p
  | none => s

end Sys2Proof.Machine
end

