-- ==== Sys2Proof/Safety.lean ====
section
/-! DEFINITION. What counts as a safe run, the invariant of the block, and the words the claims use. -/
namespace Sys2Proof

open Machine

/-- The machine goes on: it answers a next state. -/
def GoesOn (o : Host.Outcome State Fault Refusal) : Prop := ∃ t, o = .next t

/-- `n` steps, stopping at the first fault or refusal: the host's `core.run`, on the state itself. -/
def run : (n : Nat) → State → Host.Outcome State Fault Refusal
  | 0, s => .next s
  | n + 1, s =>
    match step s with
    | .next t => run n t
    | .fault e => .fault e
    | .refused e => .refused e

/-- Every run from the state goes on, however long. -/
def RunsSafely (s : State) : Prop := ∀ n, GoesOn (run n s)

/-- The block is idle: no command is in flight. -/
def Idle (s : State) : Prop := s.pending = none ∧ s.busy = false

/-- Both lanes hold the same coefficients and bypass flags (10_state.md R39). -/
def LanesAgree (s : State) : Prop :=
  ∀ j, (s.stage 0 j).coeffs = (s.stage 1 j).coeffs ∧ (s.stage 0 j).bypass = (s.stage 1 j).bypass

/-- A command in flight is one that acceptance lets in (43_stereo_processor.md R180): a row of the opcode map, a PREPARE
with a rate and a block size in their ranges, an UPDATE_AND_PROCESS of a prepared block within `MAXBLK`. -/
def PendingLegal (s : State) (p : Pending) : Prop :=
  ∃ cmd, matchRow (commandWord p.opc p.len) = some cmd ∧
    (∀ len, cmd = .prepare len → badRate p.fsLatched = false ∧ 1 ≤ len.toNat ∧ len.toNat ≤ Config.bufLen) ∧
    (∀ len, cmd = .updateAndProcess len → s.prepared = true ∧ len.toNat ≤ s.maxBlk.toNat)

/-- What every step but one of an internal operation on its own keeps (log 23). -/
structure Inv (s : State) : Prop where
  /-- `pending` is not none exactly when `BUSY` = 1 (10_state.md R36). -/
  busy : s.busy = s.pending.isSome
  /-- `ERRCAUSE` is 0 exactly when `ERR` = 0 (60_exceptions.md R222, R224). -/
  cause : s.err = false ↔ s.errCause = .none
  /-- The sample buffer is in its one canonical form. -/
  canonical : s.mem.wf
  /-- Only bytes of existing sample words hold a value (10_state.md R34, 20_memory.md R67). -/
  inBuffer : ∀ p ∈ s.mem, ∃ c i k, i < Config.bufLen ∧ k < 4 ∧ p.1 = bufOffset c i + k
  /-- A word holds a value as a whole or not at all (10_state.md R34). -/
  wholeWords : ∀ c i k, i < Config.bufLen → k < 4 →
    (s.mem.readByte (bufOffset c i + k)).isSome = (s.bufRead c i).isSome
  /-- 10_state.md R39. -/
  lanesAgree : LanesAgree s
  /-- 40_coeff_factory.md R110, 10_state.md R28. -/
  prepared : s.prepared = true → badRate s.fs = false ∧ 1 ≤ s.maxBlk.toNat ∧ s.maxBlk.toNat ≤ Config.bufLen
  /-- 43_stereo_processor.md R180. -/
  pending : ∀ p, s.pending = some p → PendingLegal s p
  /-- No agent performs an internal operation on its own (30_encoding.md R96, log 4). -/
  noMicro : ∀ ws, Request.micro ws ∉ s.inbox

/-- An instruction is a host access. -/
def IsAccess (i : Instr) : Prop := (∃ a n, i = .memRead a n) ∨ (∃ a n v, i = .memWrite a n v)

/-- `t` comes from `s` by host accesses, in any number. -/
inductive HostAccesses : State → State → Prop where
  | none (s : State) : HostAccesses s s
  | more {s t u : State} {i : Instr} (access : IsAccess i) (runs : exec i s = .next t) (rest : HostAccesses t u) :
    HostAccesses s u

/-- Either zero of binary32. -/
def IsZero32 (x : F32) : Prop := x = 0x00000000#32 ∨ x = 0x80000000#32

/-! ### The range and stability of what the factory designs

40_coeff_factory.md R126 and R130 are derived under a premise that R112 states apart from the properties a model may
assume: the values of `DESIGN_FN` lie within one unit in the last place of the reference (log 27). -/

/-- The number a finite binary32 pattern stands for. -/
def rat32 (x : F32) : ℚ := ((val32 x).order .b32 : ℚ) / 2 ^ Fmt.b32.unit

/-- The number a finite binary64 pattern stands for. -/
def rat64 (v : F64) : ℚ := ((val64 v).order .b64 : ℚ) / 2 ^ Fmt.b64.unit

/-- One unit in the last place of a finite binary64 pattern: the spacing of the format from its magnitude upwards. -/
def ulp64 (v : F64) : ℚ := 2 ^ (Nat.log2 ((val64 v).order .b64).natAbs - Fmt.b64.frac) / 2 ^ Fmt.b64.unit

/-- `r` is a binary64 value nearest to the real number `y`: the correctly rounded value that 40_coeff_factory.md R112
takes as its reference (of two equally near, either, which only weakens the premise below). -/
def CorrectlyRounded (y : ℝ) (r : F64) : Prop :=
  isFinite64 r = true ∧ ∀ u, isFinite64 u = true → |(rat64 r : ℝ) - y| ≤ |(rat64 u : ℝ) - y|

/-- `v` is within one binary64 unit in the last place of the reference for `y` (40_coeff_factory.md R112). -/
def WithinOneUlp (y : ℝ) (v : F64) : Prop :=
  isFinite64 v = true ∧ ∃ r, CorrectlyRounded y r ∧ |rat64 v - rat64 r| ≤ ulp64 r

/-- `c` and `s` are values the premise of R112's last sentences allows `cos64` and `sin64` at the angle `w`. -/
structure AccurateAngle (w c s : F64) : Prop where
  cos : WithinOneUlp (Real.cos (rat64 w)) c
  sin : WithinOneUlp (Real.sin (rat64 w)) s

/-- `G` is a value the same premise allows `exp10_64` at `x`. -/
def AccurateExp10 (x G : F64) : Prop := WithinOneUlp ((10 : ℝ) ^ (rat64 x : ℝ)) G

/-- Both poles strictly inside the unit circle: |a2| < 1 and |a1| < 1 + a2, exactly on the binary32 values
(40_coeff_factory.md R126). -/
def PolesInside (k : CoeffSet) : Prop :=
  isFinite32 k.a1 = true ∧ isFinite32 k.a2 = true ∧ |rat32 k.a2| < 1 ∧ |rat32 k.a1| < 1 + rat32 k.a2

/-- Every coefficient is finite, and none is beyond `B` (40_coeff_factory.md R130). -/
def CoeffsWithin (B : ℚ) (k : CoeffSet) : Prop :=
  ∀ x ∈ [k.b0, k.b1, k.b2, k.a1, k.a2], isFinite32 x = true ∧ |rat32 x| ≤ B

end Sys2Proof
end

