-- ==== Sys2Proof/Certificates/Slice0/Obligations.lean ====
section
/-! DEFINITION. The statements for the provers. Each docstring names the rule of spec/ it says, or, where it rests on a
choice of the model, the log entry. -/
section Statements

open Sys2Proof Sys2Proof.Machine

/-! ### Encoding -/

/-- Decoding the encoding of a well-formed instruction gives it back, every operand at every value (30_encoding.md R90,
R92, R99; the operand words of internal operations are the model's, log 4). -/
def Obligations.DecodingAnEncodedInstructionGivesItBack : Prop :=
  ∀ i : Instr, WellFormed i → decode (encode i) = .ok i

/-- The opcode map (30_encoding.md R92): a word selects a row when (word AND mask) = match, at most one; a length that
breaks an argument bound decodes and is then rejected with its own cause. -/
def Obligations.CommandWordsDecodeByTheOpcodeMap : Prop :=
  ∀ w : Word,
    (decode (.cmd w) = .ok .nop ↔ w &&& 0xFFFFFFFF#32 = 0x00000000#32) ∧
    (∀ len, decode (.cmd w) = .ok (.prepare len) ↔
      w &&& 0x0000FFFF#32 = 0x00000001#32 ∧ len = w.extractLsb' 16 16) ∧
    (decode (.cmd w) = .ok .reset ↔ w &&& 0xFFFFFFFF#32 = 0x00000002#32) ∧
    (∀ len, decode (.cmd w) = .ok (.updateAndProcess len) ↔
      w &&& 0x0000FFFF#32 = 0x00000003#32 ∧ len = w.extractLsb' 16 16) ∧
    (∀ i, decode (.cmd w) = .ok i →
      i = .nop ∨ (∃ len, i = .prepare len) ∨ i = .reset ∨ ∃ len, i = .updateAndProcess len) ∧
    (∀ s : State, s.busy = false → s.err = false →
      (w &&& 0x0000FFFF#32 = 0x00000001#32 → badRate s.fsArg = false →
        (w.toNat / 65536 = 0 ∨ Config.bufLen < w.toNat / 65536) →
        exec (.memWrite 0x008#32 4 w) s = .next { s with err := true, errCause := .badBlockSize }) ∧
      (w &&& 0x0000FFFF#32 = 0x00000003#32 → s.prepared = true → s.maxBlk.toNat < w.toNat / 65536 →
        exec (.memWrite 0x008#32 4 w) s = .next { s with err := true, errCause := .blockTooLong }))

/-- The illegal command words and what presenting one does on an idle block (30_encoding.md R93). -/
def Obligations.IllegalCommandWordsAreExactlyTheUnmatchedOnes : Prop :=
  ∀ w : Word,
    let illegal := 4 ≤ w.toNat % 256 ∨ w.toNat / 256 % 256 ≠ 0 ∨
      ((w.toNat % 256 = 0 ∨ w.toNat % 256 = 2) ∧ w.toNat / 65536 ≠ 0)
    ((∃ i, decode (.cmd w) = .ok i) ↔ ¬illegal) ∧
    (illegal → ∀ s : State, s.busy = false →
      exec (.memWrite 0x008#32 4 w) s =
        .next { s with err := true, errCause := if s.err then s.errCause else .illegalCmd })

/-- Words written out from the encodings decode to what they stand for (30_encoding.md R92, R99; the operand words of
internal operations are the model's, log 4). -/
def Obligations.WrittenOutWordsDecode : Prop :=
  decode (.cmd 0x00000000#32) = .ok .nop ∧
  decode (.cmd 0x02000001#32) = .ok (.prepare 512#16) ∧
  decode (.cmd 0x00000002#32) = .ok .reset ∧
  decode (.cmd 0x00080003#32) = .ok (.updateAndProcess 8#16) ∧
  decode (.uop [0x86#32, 1#32, 4#32, 0x3F800000#32]) = .ok (.stageProcess 1 4 0x3F800000#32) ∧
  decode (.uop [0x8F#32]) = .ok .chainsReset ∧
  decode (.bus [0#32, 0x00C#32, 4#32]) = .ok (.memRead 0x00C#32 4) ∧
  decode (.bus [1#32, 0x014#32, 4#32, 0x473B8000#32]) = .ok (.memWrite 0x014#32 4 0x473B8000#32)

/-- A step runs the instruction that was decoded: the host's access, an internal operation on its own, or the command in
flight; the request is taken off the list first (logs 1 and 2). -/
def Obligations.StepRunsTheDecodedInstruction : Prop :=
  ∀ (s : State) (rest : List Request),
    (∀ ws i, s.inbox = .host ws :: rest → decode (.bus ws) = .ok i → step s = exec i { s with inbox := rest }) ∧
    (∀ ws i, s.inbox = .micro ws :: rest → decode (.uop ws) = .ok i → step s = exec i { s with inbox := rest }) ∧
    (∀ p i, s.inbox = .engine :: rest → s.pending = some p → decode (.cmd (commandWord p.opc p.len)) = .ok i →
      step s = exec i { s with inbox := rest }) ∧
    (∀ p i, s.inbox = [] → s.pending = some p → decode (.cmd (commandWord p.opc p.len)) = .ok i → step s = exec i s)

/-! ### Reset and idling -/

/-- The value after power-on reset of every state element for which 10_state.md R40 gives one; the identification words
are read over the bus. -/
def Obligations.ResetValues : Prop :=
  let s := State.reset
  exec (.memRead 0x000#32 4) s = .next { s with readData := some 0x42514331#32 } ∧
  exec (.memRead 0x004#32 4) s = .next { s with readData := some 0x00000001#32 } ∧
  s.busy = false ∧ s.prepared = false ∧ s.done = false ∧ s.err = false ∧ s.errCause = .none ∧
  s.fsArg = 0x00000000#32 ∧ s.fs = 0x00000000#32 ∧ s.maxBlk = 0#32 ∧
  s.param = #v[0x41A00000#32, 0x469C4000#32, 0x443B8000#32, 0x00000000#32, 0x3F800000#32, 0x00000000#32,
    0x00000000#32] ∧
  (∀ c j, s.stage c j =
    { coeffs := ⟨0x3F800000#32, 0x00000000#32, 0x00000000#32, 0x00000000#32, 0x00000000#32⟩
      s1 := 0x00000000#32, s2 := 0x00000000#32, bypass := true }) ∧
  (∀ c i, s.bufRead c i = none) ∧ s.pending = none

/-- The power-on reset event puts every state element of the block at its reset value and abandons a command in flight
(70_reset_and_hazards.md section 1); what is still to come and the draws already made stay (log 21), and the snapshot,
which the spec leaves unspecified, takes the model's value (log 13). -/
def Obligations.PowerOnResetRestoresTheResetState : Prop :=
  ∀ (s : State) (rest : List Request), s.inbox = .powerOn :: rest →
    step s = .next { State.reset with nanDraws := s.nanDraws, readDraws := s.readDraws, inbox := rest }

/-- With nothing in flight and no host access the block stays as it is, for ever (70_reset_and_hazards.md section 4). That
an empty list of requests is a host that has stopped, and what the engine's turn does, are the model's (logs 1, 2 and 20). -/
def Obligations.AnIdleBlockStaysAsItIs : Prop :=
  ∀ s : State, s.pending = none →
    (s.inbox = [] → ∀ n, run n s = .next s) ∧
    (∀ rest, s.inbox = .engine :: rest → step s = .next { s with inbox := rest })

/-! ### Acceptance, errors and status -/

/-- Acceptance, check by check in the order of 43_stereo_processor.md R180, for every word and every state. -/
def Obligations.AcceptanceFollowsTheCheckOrder : Prop :=
  ∀ (s : State) (w : Word),
    let opc := w.extractLsb' 0 8
    let len := w.extractLsb' 16 16
    let raise := fun e : Cause => { s with err := true, errCause := if s.err then s.errCause else e }
    exec (.memWrite 0x008#32 4 w) s = .next (
      if s.busy then raise .cmdBusy
      else if (decode (.cmd w)).toOption = none then raise .illegalCmd
      else if opc = 0x03#8 ∧ s.prepared = false then raise .notPrepared
      else if opc = 0x01#8 ∧
          (isNaN32 s.fsArg ∨ lt32 s.fsArg 0x45FA0000#32 ∨ lt32 0x483B8000#32 s.fsArg) then raise .badRate
      else if opc = 0x01#8 ∧ (len.toNat = 0 ∨ Config.bufLen < len.toNat) then raise .badBlockSize
      else if opc = 0x03#8 ∧ s.maxBlk.toNat < len.toNat then raise .blockTooLong
      else
        { s with
          busy := true
          done := false
          pending := some { opc := opc, len := len, fsLatched := if opc = 0x01#8 then s.fsArg else 0x00000000#32 }
          snap := if opc = 0x03#8 then s.param else s.snap })

/-- The error latch over every instruction (60_exceptions.md R222): the instruction that raises the first cause changes
nothing else and latches that cause, and the cause stays until the host clears `ERR`. -/
def Obligations.TheFirstCauseIsKeptAndNothingElseIsWritten : Prop :=
  ∀ (i : Instr) (s t : State), exec i s = .next t →
    (s.err = false → t.err = true →
      t.errCause ≠ .none ∧ t = { s with err := true, errCause := t.errCause } ∧
      ∃ a v, i = .memWrite a 4 v ∧ (a = 0x008#32 ∨ 0x10000 ≤ a.toNat)) ∧
    (s.err = true → (∀ v, i = .memWrite 0x00C#32 4 v → v.getLsbD 3 = false) →
      t.err = true ∧ t.errCause = s.errCause)

/-- The host's acknowledgement of errors and completions (60_exceptions.md R224). -/
def Obligations.StatusWriteAcknowledges : Prop :=
  ∀ (s : State) (v : Word),
    exec (.memWrite 0x00C#32 4 v) s =
      .next { s with
        done := if v.getLsbD 2 then false else s.done
        err := if v.getLsbD 3 then false else s.err
        errCause := if v.getLsbD 3 then .none else s.errCause }

/-- What a read of each control register returns (10_state.md section 2, 60_exceptions.md section 1); the model keeps the
word returned in `readData` (log 5). -/
def Obligations.ControlRegisterReads : Prop :=
  ∀ s : State,
    let reads := fun (off w : Word) => exec (.memRead off 4) s = .next { s with readData := some w }
    reads 0x000#32 0x42514331#32 ∧ reads 0x004#32 0x00000001#32 ∧ reads 0x008#32 0x00000000#32 ∧
    reads 0x00C#32
      (BitVec.ofNat 32 (s.busy.toNat + 2 * s.prepared.toNat + 4 * s.done.toNat + 8 * s.err.toNat)) ∧
    (∀ e : Cause × Nat, e ∈ [(Cause.none, 0), (Cause.cmdBusy, 1), (Cause.illegalCmd, 2), (Cause.notPrepared, 3),
      (Cause.badRate, 4), (Cause.badBlockSize, 5), (Cause.blockTooLong, 6), (Cause.accessBusy, 7)] →
      s.errCause = e.1 → reads 0x010#32 (BitVec.ofNat 32 e.2)) ∧
    reads 0x014#32 s.fsArg ∧ reads 0x018#32 s.fs ∧ reads 0x01C#32 s.maxBlk

/-- `FS_ARG` is stored as written at any time, does not touch a command already accepted, is read back, and is what an
accepted PREPARE latches (10_state.md R26). -/
def Obligations.SampleRateArgumentRegister : Prop :=
  State.reset.fsArg = 0x00000000#32 ∧
  ∀ (s : State) (v : F32),
    exec (.memWrite 0x014#32 4 v) s = .next { s with fsArg := v } ∧
    exec (.memRead 0x014#32 4) s = .next { s with readData := some s.fsArg } ∧
    (∀ (len : BitVec 16) (t : State), exec (.memWrite 0x008#32 4 (commandWord 0x01#8 len)) s = .next t →
      s.busy = false → t.busy = true →
      badRate s.fsArg = false ∧ ∃ p, t.pending = some p ∧ p.fsLatched = s.fsArg)

/-- The parameter registers (10_state.md R29): written verbatim at any time, read back, never written by the block, and
copied only by the snapshot; their reset values. -/
def Obligations.ParameterRegisters : Prop :=
  State.reset.param = #v[0x41A00000#32, 0x469C4000#32, 0x443B8000#32, 0x00000000#32, 0x3F800000#32, 0x00000000#32,
    0x00000000#32] ∧
  ∀ s : State,
    (∀ (k : Fin 7) (v : F32),
      exec (.memWrite (BitVec.ofNat 32 (0x040 + 4 * k.val)) 4 v) s = .next { s with param := s.param.set k v } ∧
      exec (.memRead (BitVec.ofNat 32 (0x040 + 4 * k.val)) 4) s = .next { s with readData := some s.param[k] }) ∧
    (∀ (i : Instr) (t : State), exec i s = .next t → t.param ≠ s.param →
      ∃ (k : Fin 7) (v : F32), i = .memWrite (BitVec.ofNat 32 (0x040 + 4 * k.val)) 4 v) ∧
    (∀ (i : Instr) (t : State), exec i s = .next t → t.snap ≠ s.snap →
      (∃ w, i = .memWrite 0x008#32 4 w) ∧ t.snap = s.param)

/-! ### Who writes what -/

/-- `FS`, `MAXBLK` and `PREPARED` are written only by the completion of PREPARE (10_state.md section 2; a statement over
all instructions). -/
def Obligations.OnlyPrepareSetsRateAndBlockSize : Prop :=
  ∀ (i : Instr) (s t : State), exec i s = .next t → (∀ len, i ≠ .prepare len) →
    t.fs = s.fs ∧ t.maxBlk = s.maxBlk ∧ t.prepared = s.prepared

/-- `BUSY` is set only by acceptance and cleared only by completion, and a command is in flight exactly then
(10_state.md sections 2 and 6; a statement over all instructions). -/
def Obligations.OnlyAcceptanceAndCompletionMoveBusy : Prop :=
  ∀ (i : Instr) (s t : State), exec i s = .next t → t.busy ≠ s.busy ∨ t.pending ≠ s.pending →
    (s.busy = false ∧ t.busy = true ∧ t.pending.isSome = true ∧ ∃ w, i = .memWrite 0x008#32 4 w) ∨
    (s.pending.isSome = true ∧ t.busy = false ∧ t.done = true ∧ t.pending = none ∧ ∃ cmd : Command, i = cmd.toInstr)

/-- No host access writes a stage, the rate, the maximum block size, `PREPARED` or the stream of NaN patterns, and none
but a sample write on an idle block changes a byte of the buffer (10_state.md section 4, 20_memory.md sections 2 and 3). -/
def Obligations.HostAccessesWriteNoStage : Prop :=
  ∀ (i : Instr) (s t : State), IsAccess i → exec i s = .next t →
    t.lanes = s.lanes ∧ t.fs = s.fs ∧ t.maxBlk = s.maxBlk ∧ t.prepared = s.prepared ∧ t.nanDraws = s.nanDraws ∧
    t.inbox = s.inbox ∧
    (∀ b, t.mem.readByte b ≠ s.mem.readByte b →
      s.busy = false ∧ ∃ a v, i = .memWrite a 4 v ∧ 0x10000 ≤ a.toNat ∧ a.toNat ≤ b ∧ b < a.toNat + 4)

/-! ### The bus window -/

/-- The stage view (10_state.md section 4). That a busy read of a gap is a draw like the rest of the region is the model's
reading (log 12), and that each busy read takes the next index of the stream of draws is its choice (log 11). -/
def Obligations.StageView : Prop :=
  ∀ s : State,
    (∀ (c : Lane) (j : StageIdx) (w : Fin 8),
      let off : Word := BitVec.ofNat 32 (0x100 + c.val * 0x200 + j.val * 0x20 + w.val * 4)
      let st := s.stage c j
      let word := #v[st.coeffs.b0, st.coeffs.b1, st.coeffs.b2, st.coeffs.a1, st.coeffs.a2, st.s1, st.s2,
        BitVec.ofNat 32 st.bypass.toNat]
      (s.busy = false → exec (.memRead off 4) s = .next { s with readData := some word[w] })) ∧
    (∀ off : Word, off.toNat % 4 = 0 → 0x100 ≤ off.toNat → off.toNat < 0x500 →
      (∀ v, exec (.memWrite off 4 v) s = .next s) ∧
      (s.busy = true → ∃ w, exec (.memRead off 4) s =
        .next { s with readData := some w, readDraws := s.readDraws + 1 }) ∧
      (s.busy = false → (0x220 ≤ off.toNat ∧ off.toNat < 0x300) ∨ 0x420 ≤ off.toNat →
        exec (.memRead off 4) s = .next { s with readData := some 0x00000000#32 }))

/-- The sample buffer (20_memory.md section 2): an idle write stores its word and no other byte, an idle read returns it, a read
of a word without a value faults; a busy write is dropped and raises `ACCESS_BUSY`, a busy read returns some word; writes
of `FS_ARG` and the parameters are accepted in both cases. That the word's bytes lie by window offset, least significant
first, is the model's choice (log 14), and so is the index a busy read takes (log 11). -/
def Obligations.SampleBufferAccess : Prop :=
  ∀ (s : State) (c : Lane) (i : Nat), i < Config.bufLen →
    let off : Word := BitVec.ofNat 32 (0x10000 + 0x10000 * c.val + 4 * i)
    (s.busy = false → ∀ v, ∃ t, exec (.memWrite off 4 v) s = .next t ∧ t = { s with mem := t.mem } ∧
      t.bufRead c i = some v ∧
      (∀ k, k < 4 → t.mem.readByte (bufOffset c i + k) = some (v.extractLsb' (8 * k) 8)) ∧
      (∀ a, a < bufOffset c i ∨ bufOffset c i + 4 ≤ a → t.mem.readByte a = s.mem.readByte a)) ∧
    (s.busy = false → ∀ v, s.bufRead c i = some v → exec (.memRead off 4) s = .next { s with readData := some v }) ∧
    (s.busy = false → s.bufRead c i = none → exec (.memRead off 4) s = .fault (.noValue (bufOffset c i))) ∧
    (s.busy = true → ∀ v, exec (.memWrite off 4 v) s =
      .next { s with err := true, errCause := if s.err then s.errCause else .accessBusy }) ∧
    (s.busy = true → ∃ w, exec (.memRead off 4) s =
      .next { s with readData := some w, readDraws := s.readDraws + 1 }) ∧
    (∀ v, exec (.memWrite 0x014#32 4 v) s = .next { s with fsArg := v }) ∧
    (∀ (k : Fin 7) (v : F32),
      exec (.memWrite (BitVec.ofNat 32 (0x040 + 4 * k.val)) 4 v) s = .next { s with param := s.param.set k v })

/-- Words beyond `BUF_LEN` do not exist (20_memory.md R67): every word of the two areas exists, or reads 0 and ignores
writes. -/
def Obligations.WordsBeyondTheBufferDoNotExist : Prop :=
  ∀ (s : State) (c : Lane) (i : Nat), i < 0x4000 →
    let off : Word := BitVec.ofNat 32 (0x10000 + 0x10000 * c.val + 4 * i)
    i < Config.bufLen ∨
      (exec (.memRead off 4) s = .next { s with readData := some 0x00000000#32 } ∧
        ∀ v, exec (.memWrite off 4 v) s = .next s)

/-- Writes to read-only and reserved offsets do nothing; reserved offsets read 0 (20_memory.md R65). -/
def Obligations.ReadOnlyAndReservedOffsets : Prop :=
  ∀ (s : State) (off : Word), off.toNat % 4 = 0 →
    let reserved := (0x020 ≤ off.toNat ∧ off.toNat < 0x040) ∨ (0x05C ≤ off.toNat ∧ off.toNat < 0x100) ∨
      (0x500 ≤ off.toNat ∧ off.toNat < 0x10000) ∨ (0x30000 ≤ off.toNat ∧ off.toNat < 0x40000)
    (reserved ∨ off ∈ [0x000#32, 0x004#32, 0x010#32, 0x018#32, 0x01C#32] ∨
        (0x100 ≤ off.toNat ∧ off.toNat < 0x500) → ∀ v, exec (.memWrite off 4 v) s = .next s) ∧
    (reserved → exec (.memRead off 4) s = .next { s with readData := some 0x00000000#32 })

/-- An access that is not one aligned 32-bit word is refused (20_memory.md R63). -/
def Obligations.UnsupportedAccessFormsAreRefused : Prop :=
  ∀ (s : State) (a : Word) (n : Nat), n ≠ 4 ∨ a.toNat % 4 ≠ 0 →
    exec (.memRead a n) s = .refused (.illFormed (.accessForm a n)) ∧
    ∀ v, exec (.memWrite a n v) s = .refused (.illFormed (.accessForm a n))

/-- Every aligned access of the window completes, but for the read of an idle sample word without a value; beyond the
window the model faults (20_memory.md sections 1 and 2; the fault is log 15). -/
def Obligations.AlignedAccessesComplete : Prop :=
  ∀ (s : State) (a : Word), a.toNat % 4 = 0 →
    (a.toNat < 0x40000 → ∀ v, ∃ t, exec (.memWrite a 4 v) s = .next t) ∧
    (a.toNat < 0x40000 →
      (∀ c i, i < Config.bufLen → a.toNat = bufOffset c i → s.busy = true ∨ (s.bufRead c i).isSome = true) →
      ∃ t w, exec (.memRead a 4) s = .next t ∧ t.readData = some w) ∧
    (0x40000 ≤ a.toNat → exec (.memRead a 4) s = .fault (.outsideWindow a.toNat) ∧
      ∀ v, exec (.memWrite a 4 v) s = .fault (.outsideWindow a.toNat))

/-- A read changes nothing of the block: only the word returned and the model's index of arbitrary words move
(20_memory.md section 2; logs 5 and 11). -/
def Obligations.ReadsHaveNoSideEffect : Prop :=
  ∀ (s t : State) (a : Word) (n : Nat), exec (.memRead a n) s = .next t →
    t = { s with readData := t.readData, readDraws := t.readDraws } ∧
    (s.busy = false → t.readDraws = s.readDraws)

/-! ### The coefficient factory -/

/-- The functions of `DESIGN_FN` have the properties that 40_coeff_factory.md section 1 gives them; the interval of angles
is the model's reading of the angles the factory passes (log 7). -/
def Obligations.DesignFunctionsHaveTheirProperties : Prop :=
  (exp10_64 0x0000000000000000#64 = 0x3FF0000000000000#64 ∧ exp10_64 0x8000000000000000#64 = 0x3FF0000000000000#64) ∧
  (∀ w : F64, le64 0x3F454C985F06F694#64 w = true → le64 w 0x4008A161E4F765FE#64 = true →
    isFinite64 (cos64 w) = true ∧ le64 0xBFF0000000000000#64 (cos64 w) = true ∧
    lt64 (cos64 w) 0x3FF0000000000000#64 = true ∧
    isFinite64 (sin64 w) = true ∧ lt64 0x0000000000000000#64 (sin64 w) = true) ∧
  (∀ x : F64, le64 0xBFF3333333333333#64 x = true → le64 x 0x3FF3333333333333#64 = true →
    isFinite64 (exp10_64 x) = true ∧ lt64 0x0000000000000000#64 (exp10_64 x) = true)

/-- `CONVERT_SNAPSHOT` (40_coeff_factory.md R113 to R118): the conversion of each register, as a result and nothing
else. -/
def Obligations.ConvertSnapshotClampsEveryParameter : Prop :=
  ∀ (fsd : F64) (s : State),
    let hi := min64 0x40D3880000000000#64 (mul64 0x3FDF5C28F5C28F5C#64 fsd)
    let freq := fun (v : F32) (d : F64) => min64 (max64 (if isNaN32 v then d else widen v) 0x4034000000000000#64) hi
    let slope := fun (v : F32) (k : Nat) =>
      (isNaN32 v = true → k = 0) ∧
      (isNaN32 v = false → le64 (widen v) 0x0000000000000000#64 = true → k = 0) ∧
      (isNaN32 v = false → le64 (widen v) 0x0000000000000000#64 = false →
        le64 0x4008000000000000#64 (widen v) = true → k = 3) ∧
      (isNaN32 v = false → le64 (widen v) 0x0000000000000000#64 = false →
        le64 0x4008000000000000#64 (widen v) = false → k = truncNat (widen v) ∧ k ≤ 2)
    ∃ P : Converted, exec (.convertSnapshot fsd) s = .next { s with result := .snapshot P } ∧
      P.lowF = freq s.snap[0] 0x4034000000000000#64 ∧
      P.highF = freq s.snap[1] 0x40D3880000000000#64 ∧
      P.peakF = freq s.snap[2] 0x4087700000000000#64 ∧
      P.gainDb = min64 (max64 (if isNaN32 s.snap[3] then 0x0000000000000000#64 else widen s.snap[3])
        0xC038000000000000#64) 0x4038000000000000#64 ∧
      P.q = min64 (max64 (if isNaN32 s.snap[4] then 0x3FF0000000000000#64 else widen s.snap[4])
        0x3FB999999999999A#64) 0x4024000000000000#64 ∧
      slope s.snap[5] P.kL ∧ slope s.snap[6] P.kH

/-- After conversion the parameters are in their ranges, whatever the registers held: frequencies from 20 to 20000 Hz, gain
from -24 to 24 dB, quality from `Q_LO` to 10, order codes 0 to 3 (40_coeff_factory.md section 2). The premise says that the
upper bound of the frequencies is a number at or above 20, as it is at every rate PREPARE accepts. -/
def Obligations.ConvertedParametersAreInRange : Prop :=
  ∀ (fsd : F64) (s t : State) (P : Converted),
    le64 0x4034000000000000#64 (mul64 0x3FDF5C28F5C28F5C#64 fsd) = true →
    exec (.convertSnapshot fsd) s = .next t → t.result = .snapshot P →
    (∀ f ∈ [P.lowF, P.highF, P.peakF], le64 0x4034000000000000#64 f = true ∧ le64 f 0x40D3880000000000#64 = true) ∧
    le64 0xC038000000000000#64 P.gainDb = true ∧ le64 P.gainDb 0x4038000000000000#64 = true ∧
    le64 0x3FB999999999999A#64 P.q = true ∧ le64 P.q 0x4024000000000000#64 = true ∧
    P.kL ≤ 3 ∧ P.kH ≤ 3

/-- `DESIGN_PEAK`: the pseudocode of 40_coeff_factory.md section 4, operation by operation; `b1` and `a1` are one
pattern. -/
def Obligations.DesignPeakComputesTheCookbookSet : Prop :=
  ∀ (peakF gainDb q fsd : F64) (s : State),
    let w0 := div64 (mul64 0x401921FB54442D18#64 peakF) fsd
    let A := sqrt64 (exp10_64 (div64 gainDb 0x4034000000000000#64))
    let alpha := div64 (sin64 w0) (mul64 0x4000000000000000#64 q)
    let c2 := mul64 0xC000000000000000#64 (cos64 w0)
    let a0 := add64 0x3FF0000000000000#64 (div64 alpha A)
    ∃ set : CoeffSet, exec (.designPeak peakF gainDb q fsd) s = .next { s with result := .coeffs set } ∧
      set.b0 = rnd32 (div64 (add64 0x3FF0000000000000#64 (mul64 alpha A)) a0) ∧
      set.b1 = rnd32 (div64 c2 a0) ∧
      set.b2 = rnd32 (div64 (sub64 0x3FF0000000000000#64 (mul64 alpha A)) a0) ∧
      set.a1 = set.b1 ∧
      set.a2 = rnd32 (div64 (sub64 0x3FF0000000000000#64 (div64 alpha A)) a0)

/-- At 0 dB the peak set has `b0` = 1.0, `b1` = `a1`, `b2` = `a2` (40_coeff_factory.md section 6), where alpha and 1 + alpha
are finite and 1 + alpha is not zero; `DESIGN_PEAK` is this set at the angle's cosine and sine. -/
def Obligations.ZeroDecibelPeakHasUnityForm : Prop :=
  (∀ (peakF gainDb q fsd : F64) (s : State),
    let w0 := div64 (mul64 0x401921FB54442D18#64 peakF) fsd
    exec (.designPeak peakF gainDb q fsd) s =
      .next { s with result := .coeffs (peakSet (peakAmplitude gainDb) (cos64 w0) (sin64 w0) q) }) ∧
  ∀ (gainDb c s q : F64), isZero64 gainDb = true →
    let alpha := div64 s (mul64 0x4000000000000000#64 q)
    isFinite64 alpha = true → isFinite64 (add64 0x3FF0000000000000#64 alpha) = true →
    isZero64 (add64 0x3FF0000000000000#64 alpha) = false →
    ∃ a b : F32, peakSet (peakAmplitude gainDb) c s q = ⟨0x3F800000#32, a, b, a, b⟩

/-- `DESIGN_LOWCUT` and `DESIGN_HIGHCUT`: high-pass and low-pass sections, one for each entry of the Butterworth quality
table (40_coeff_factory.md section 5). -/
def Obligations.CutDesignsComputeTheirSections : Prop :=
  ∀ (row : Nat × Nat × F64), row ∈ [
      (0, 0, 0x3FE6A09E667F3BCD#64), (1, 0, 0x3FE1517A7BDB3895#64), (1, 1, 0x3FF4E7AE9144F0FC#64),
      (2, 0, 0x3FE0907DC1930690#64), (2, 1, 0x3FE6A09E667F3BCD#64), (2, 2, 0x3FFEE8DD4748BF15#64),
      (3, 0, 0x3FE0503ED17CBA53#64), (3, 1, 0x3FE33E37A1E0173E#64), (3, 2, 0x3FECCC9AEFB18D58#64),
      (3, 3, 0x400480D9D073B428#64)] →
    ∀ (freq fsd : F64) (s : State),
      let c := cos64 (div64 (mul64 0x401921FB54442D18#64 freq) fsd)
      let alpha := div64 (sin64 (div64 (mul64 0x401921FB54442D18#64 freq) fsd)) (mul64 0x4000000000000000#64 row.2.2)
      let a0 := add64 0x3FF0000000000000#64 alpha
      (∃ (seq : List CoeffSet) (set : CoeffSet),
        exec (.designLowcut freq row.1 fsd) s = .next { s with result := .sequence seq } ∧
        seq.length = row.1 + 1 ∧ seq[row.2.1]? = some set ∧
        set.b0 = rnd32 (div64 (div64 (add64 0x3FF0000000000000#64 c) 0x4000000000000000#64) a0) ∧
        set.b1 = rnd32 (div64 (neg64 (add64 0x3FF0000000000000#64 c)) a0) ∧
        set.b2 = set.b0 ∧
        set.a1 = rnd32 (div64 (mul64 0xC000000000000000#64 c) a0) ∧
        set.a2 = rnd32 (div64 (sub64 0x3FF0000000000000#64 alpha) a0)) ∧
      (∃ (seq : List CoeffSet) (set : CoeffSet),
        exec (.designHighcut freq row.1 fsd) s = .next { s with result := .sequence seq } ∧
        seq.length = row.1 + 1 ∧ seq[row.2.1]? = some set ∧
        set.b0 = rnd32 (div64 (div64 (sub64 0x3FF0000000000000#64 c) 0x4000000000000000#64) a0) ∧
        set.b1 = rnd32 (div64 (sub64 0x3FF0000000000000#64 c) a0) ∧
        set.b2 = set.b0 ∧
        set.a1 = rnd32 (div64 (mul64 0xC000000000000000#64 c) a0) ∧
        set.a2 = rnd32 (div64 (sub64 0x3FF0000000000000#64 alpha) a0))

/-- Stability (40_coeff_factory.md section 6): at every rate PREPARE accepts and for every snapshot, each set of the peak,
low-cut and high-cut designs has both poles strictly inside the unit circle, exactly on its binary32 values. `c`, `s` and `G`
stand for the cosine, the sine and the linear gain, each within one binary64 unit in the last place of the reference: the
premise section 1 states for this property beside the properties a model may assume, as log 27 reads it. With the values of
`cos64`, `sin64` and `exp10_64` for them the sets are those of the three instructions. -/
def Obligations.DesignedSetsAreStable : Prop :=
  ∀ (fs : F32) (snap : Vector F32 7), badRate fs = false →
    let fsd := widen fs
    let P := convertSnapshot snap fsd
    (∀ c s G, AccurateAngle (angle P.peakF fsd) c s → AccurateExp10 (div64 P.gainDb 0x4034000000000000#64) G →
      PolesInside (peakSet (sqrt64 G) c s P.q)) ∧
    (∀ c s, AccurateAngle (angle P.lowF fsd) c s → ∀ Q ∈ qRom P.kL, PolesInside (cutSet .hp c s Q)) ∧
    (∀ c s, AccurateAngle (angle P.highF fsd) c s → ∀ Q ∈ qRom P.kH, PolesInside (cutSet .lp c s Q))

/-- The range of the designs (40_coeff_factory.md section 6), under the same premise (log 27): every coefficient is finite,
at most 1 + 5 × 3.99 for the peak and 2 for a cut section, and the peak's `b0` is at most max(1, G), rounded to binary32 as
`b0` itself is, where the rounded gain is at most 15.85. -/
def Obligations.DesignedCoefficientsAreFiniteAndBounded : Prop :=
  ∀ (fs : F32) (snap : Vector F32 7), badRate fs = false →
    let fsd := widen fs
    let P := convertSnapshot snap fsd
    (∀ c s G, AccurateAngle (angle P.peakF fsd) c s → AccurateExp10 (div64 P.gainDb 0x4034000000000000#64) G →
      CoeffsWithin (1 + 5 * (399 / 100)) (peakSet (sqrt64 G) c s P.q) ∧
      rat32 (peakSet (sqrt64 G) c s P.q).b0 ≤ max 1 (rat32 (rnd32 G)) ∧
      rat32 (rnd32 G) ≤ 1585 / 100) ∧
    (∀ c s, AccurateAngle (angle P.lowF fsd) c s → ∀ Q ∈ qRom P.kL, CoeffsWithin 2 (cutSet .hp c s Q)) ∧
    (∀ c s, AccurateAngle (angle P.highF fsd) c s → ∀ Q ∈ qRom P.kH, CoeffsWithin 2 (cutSet .lp c s Q))

/-- The order code that reaches a chain is 0 to 3 for every parameter pattern, and another one handed over by a faulty
caller is refused (42_cut_chain.md R161). -/
def Obligations.OrderCodesAboveThreeAreRefused : Prop :=
  (∀ (fsd : F64) (s t : State) (P : Converted), exec (.convertSnapshot fsd) s = .next t → t.result = .snapshot P →
    P.kL ≤ 3 ∧ P.kH ≤ 3) ∧
  (∀ (c : Lane) (ch : Chain) (k : Nat) (seq : List CoeffSet) (s : State), 3 < k →
    exec (.chainApplyOrder c ch k seq) s = .refused (.illFormed (.orderCode k)))

/-! ### The biquad stage -/

/-- `STAGE_SET_COEFF` (41_biquad_stage.md R140) and `STAGE_SET_BYPASS` (41_biquad_stage.md R141): each writes its own
field of one stage and nothing else; writing what is there changes nothing. -/
def Obligations.StageSettersChangeOnlyTheirField : Prop :=
  ∀ (c : Lane) (j : StageIdx) (s : State),
    (∀ set : CoeffSet, ∃ t, exec (.stageSetCoeff c j set) s = .next t ∧ t = { s with lanes := t.lanes } ∧
      (t.stage c j).coeffs = set ∧ (t.stage c j).s1 = (s.stage c j).s1 ∧ (t.stage c j).s2 = (s.stage c j).s2 ∧
      (t.stage c j).bypass = (s.stage c j).bypass ∧
      (∀ c' j', ¬(c' = c ∧ j' = j) → t.stage c' j' = s.stage c' j') ∧
      (set = (s.stage c j).coeffs → t = s)) ∧
    (∀ b : Bool, ∃ t, exec (.stageSetBypass c j b) s = .next t ∧ t = { s with lanes := t.lanes } ∧
      t.stage c j = { s.stage c j with bypass := b } ∧
      (∀ c' j', ¬(c' = c ∧ j' = j) → t.stage c' j' = s.stage c' j') ∧
      (b = (s.stage c j).bypass → t = s))

/-- A bypassed stage is the identity on every pattern and keeps its registers, however many samples pass
(41_biquad_stage.md R147); the model keeps the output in `result` (log 5). -/
def Obligations.BypassedStageIsTransparent : Prop :=
  ∀ (c : Lane) (j : StageIdx) (s : State), (s.stage c j).bypass = true →
    ∀ xs : List F32, ∀ x : F32,
      ∃ t, xs.foldl (fun o x => match o with
          | Host.Outcome.next u => exec (.stageProcess c j x) u
          | o => o) (.next s) = .next t ∧
        exec (.stageProcess c j x) t = .next { s with result := .sample x }

/-- Active processing (41_biquad_stage.md section 2): transposed direct form II, operation by operation. The index of the
draw each operation would take for a NaN, and that a sample takes nine of them, are the model's choice (log 8). -/
def Obligations.ActiveStageIsTransposedDirectFormII : Prop :=
  ∀ (c : Lane) (j : StageIdx) (x : F32) (s : State), (s.stage c j).bypass = false →
    let st := s.stage c j
    let n := s.nanDraws
    let y := add32 (n + 1) (mul32 n st.coeffs.b0 x) st.s1
    ∃ t, exec (.stageProcess c j x) s = .next t ∧
      t = { s with lanes := t.lanes, nanDraws := t.nanDraws, result := .sample y } ∧
      t.nanDraws = n + 9 ∧
      t.stage c j = { st with
        s1 := add32 (n + 5) (sub32 (n + 4) (mul32 (n + 2) st.coeffs.b1 x) (mul32 (n + 3) st.coeffs.a1 y)) st.s2
        s2 := sub32 (n + 8) (mul32 (n + 6) st.coeffs.b2 x) (mul32 (n + 7) st.coeffs.a2 y) } ∧
      (∀ c' j', ¬(c' = c ∧ j' = j) → t.stage c' j' = s.stage c' j')

/-- A NaN in the state of an active stage stays: with `s1` a NaN the output and both state words are NaNs; with `s2` a NaN
the new `s1` is one, so the next output is (41_biquad_stage.md section 2). -/
def Obligations.NaNPoisonsAnActiveStage : Prop :=
  ∀ (c : Lane) (j : StageIdx) (x : F32) (s : State), (s.stage c j).bypass = false →
    (isNaN32 (s.stage c j).s1 = true →
      ∃ t y, exec (.stageProcess c j x) s = .next t ∧ t.result = .sample y ∧ isNaN32 y = true ∧
        isNaN32 (t.stage c j).s1 = true ∧ isNaN32 (t.stage c j).s2 = true) ∧
    (isNaN32 (s.stage c j).s2 = true →
      ∃ t, exec (.stageProcess c j x) s = .next t ∧ isNaN32 (t.stage c j).s1 = true)

/-- Subnormals are kept, ties go to even, -0 is not preserved and overflow gives an infinity: the worked cases of
41_biquad_stage.md section 2. -/
def Obligations.SubnormalsZerosAndOverflow : Prop :=
  let K : CoeffSet := ⟨0x3F000000#32, 0x3E800000#32, 0x3E000000#32, 0xBF000000#32, 0x3E800000#32⟩
  let out := fun (set : CoeffSet) (x y : F32) => ∀ (c : Lane) (j : StageIdx) (s : State),
    s.stage c j = { coeffs := set, s1 := 0#32, s2 := 0#32, bypass := false } →
    ∃ t, exec (.stageProcess c j x) s = .next t ∧ t.result = .sample y
  out K 0x00000001#32 0x00000000#32 ∧ out K 0x00000003#32 0x00000002#32 ∧ out K 0x3F800000#32 0x3F000000#32 ∧
  out CoeffSet.unity 0x80000000#32 0x00000000#32 ∧
  out ⟨0x40000000#32, 0#32, 0#32, 0#32, 0#32⟩ 0x7F7FFFFF#32 0x7F800000#32

/-- `STAGE_CLEAR` (41_biquad_stage.md R146). -/
def Obligations.StageClearRestoresThePowerOnStage : Prop :=
  ∀ (c : Lane) (j : StageIdx) (s : State),
    ∃ t, exec (.stageClear c j) s = .next t ∧ t = { s with lanes := t.lanes } ∧
      t.stage c j =
        { coeffs := ⟨0x3F800000#32, 0x00000000#32, 0x00000000#32, 0x00000000#32, 0x00000000#32⟩
          s1 := 0x00000000#32, s2 := 0x00000000#32, bypass := true } ∧
      (∀ c' j', ¬(c' = c ∧ j' = j) → t.stage c' j' = s.stage c' j')

/-- The exact identity of a 0 dB peak (41_biquad_stage.md R148), for every finite |x| < 2^126. -/
def Obligations.ZeroDecibelPeakIsTheIdentity : Prop :=
  ∀ (c : Lane) (j : StageIdx) (a b x : F32) (s : State) (sa sb sx : Bool) (ma mb mx : Nat),
    (s.stage c j).bypass = false → (s.stage c j).coeffs = ⟨0x3F800000#32, a, b, a, b⟩ →
    val32 a = .fin sa ma → ma < 2 * 2 ^ 149 → val32 b = .fin sb mb → mb < 2 ^ 149 →
    val32 x = .fin sx mx → mx < 2 ^ 126 * 2 ^ 149 →
    IsZero32 (s.stage c j).s1 → IsZero32 (s.stage c j).s2 →
    ∃ t y, exec (.stageProcess c j x) s = .next t ∧ t.result = .sample y ∧
      (y = x ∨ (x = 0x80000000#32 ∧ y = 0x00000000#32)) ∧
      IsZero32 (t.stage c j).s1 ∧ IsZero32 (t.stage c j).s2

/-! ### The cut chain and the mono chain -/

/-- `CHAIN_APPLY_ORDER` (42_cut_chain.md R160, R162): exactly slots 0..k active with their sets, the others bypassed with
their old coefficients, every state word kept; twice is the same as once. -/
def Obligations.ApplyOrderActivatesExactlyTheFirstSlots : Prop :=
  ∀ (c : Lane) (ch : Chain) (k : Nat) (seq : List CoeffSet) (s : State), k ≤ 3 → k + 1 ≤ seq.length →
    let base := match ch with | .low => 0 | .high => 5
    ∃ t, exec (.chainApplyOrder c ch k seq) s = .next t ∧ t = { s with lanes := t.lanes } ∧
      (∀ (j : StageIdx) (i : Nat), i < 4 → j.val = base + i →
        (t.stage c j).s1 = (s.stage c j).s1 ∧ (t.stage c j).s2 = (s.stage c j).s2 ∧
        (i ≤ k → (t.stage c j).bypass = false ∧ seq[i]? = some (t.stage c j).coeffs) ∧
        (k < i → (t.stage c j).bypass = true ∧ (t.stage c j).coeffs = (s.stage c j).coeffs)) ∧
      (∀ (c' : Lane) (j : StageIdx), c' ≠ c ∨ j.val < base ∨ base + 4 ≤ j.val → t.stage c' j = s.stage c' j) ∧
      exec (.chainApplyOrder c ch k seq) t = .next t

/-- `CHAIN_PROCESS` (42_cut_chain.md R164): the four slots in slot order; with every slot bypassed, the identity. -/
def Obligations.ChainProcessIsItsSlotsInOrder : Prop :=
  ∀ (c : Lane) (ch : Chain) (x : F32) (s : State),
    let slot := fun i : Slot => match ch with
      | .low => (#v[(0 : StageIdx), 1, 2, 3])[i]
      | .high => (#v[(5 : StageIdx), 6, 7, 8])[i]
    (∃ t0 t1 t2 t3 y0 y1 y2 y3,
      exec (.stageProcess c (slot 0) x) s = .next t0 ∧ t0.result = .sample y0 ∧
      exec (.stageProcess c (slot 1) y0) t0 = .next t1 ∧ t1.result = .sample y1 ∧
      exec (.stageProcess c (slot 2) y1) t1 = .next t2 ∧ t2.result = .sample y2 ∧
      exec (.stageProcess c (slot 3) y2) t2 = .next t3 ∧ t3.result = .sample y3 ∧
      exec (.chainProcess c ch x) s = .next t3) ∧
    ((∀ i, (s.stage c (slot i)).bypass = true) →
      exec (.chainProcess c ch x) s = .next { s with result := .sample x })

/-- `MONO_PROCESS` (42_cut_chain.md R165): low-cut chain, peak stage, high-cut chain; only that lane's stages change; with
every stage bypassed, the identity. -/
def Obligations.MonoProcessIsLowPeakHigh : Prop :=
  ∀ (c : Lane) (x : F32) (s : State),
    (∃ t0 t1 t2 u v y,
      exec (.chainProcess c .low x) s = .next t0 ∧ t0.result = .sample u ∧
      exec (.stageProcess c 4 u) t0 = .next t1 ∧ t1.result = .sample v ∧
      exec (.chainProcess c .high v) t1 = .next t2 ∧ t2.result = .sample y ∧
      exec (.monoProcess c x) s = .next t2 ∧
      t2 = { s with lanes := t2.lanes, nanDraws := t2.nanDraws, result := t2.result } ∧
      (∀ c' j, c' ≠ c → t2.stage c' j = s.stage c' j) ∧
      (∀ j, (t2.stage c j).coeffs = (s.stage c j).coeffs ∧ (t2.stage c j).bypass = (s.stage c j).bypass)) ∧
    ((∀ j, (s.stage c j).bypass = true) → exec (.monoProcess c x) s = .next { s with result := .sample x })

/-- A zero sample through a lane whose state words are zeros and whose coefficients are finite gives a zero and leaves
zeros: the ground of "processing a zero block immediately after re-prep yields a zero block" (43_stereo_processor.md
section 3). -/
def Obligations.SilenceStaysSilence : Prop :=
  ∀ (c : Lane) (x : F32) (s : State),
    (∀ j, IsZero32 (s.stage c j).s1 ∧ IsZero32 (s.stage c j).s2) →
    (∀ j, ∀ k ∈ [(s.stage c j).coeffs.b0, (s.stage c j).coeffs.b1, (s.stage c j).coeffs.b2, (s.stage c j).coeffs.a1,
      (s.stage c j).coeffs.a2], isFinite32 k = true) →
    IsZero32 x →
    ∃ t y, exec (.monoProcess c x) s = .next t ∧ t.result = .sample y ∧ IsZero32 y ∧
      ∀ j, IsZero32 (t.stage c j).s1 ∧ IsZero32 (t.stage c j).s2

/-! ### The stereo processor -/

/-- `UPDATE_CUT` (43_stereo_processor.md R184): the same two sequences to both lanes. -/
def Obligations.UpdateCutUpdatesBothLanes : Prop :=
  ∀ (kL kH : Nat) (lowSeq highSeq : List CoeffSet) (s : State),
    kL ≤ 3 → kL + 1 ≤ lowSeq.length → kH ≤ 3 → kH + 1 ≤ highSeq.length →
    ∃ t0 t1 t2 t,
      exec (.chainApplyOrder 0 .low kL lowSeq) s = .next t0 ∧ exec (.chainApplyOrder 0 .high kH highSeq) t0 = .next t1 ∧
      exec (.chainApplyOrder 1 .low kL lowSeq) t1 = .next t2 ∧ exec (.chainApplyOrder 1 .high kH highSeq) t2 = .next t ∧
      exec (.updateCut kL lowSeq kH highSeq) s = .next t ∧ t = { s with lanes := t.lanes } ∧
      ∀ c : Lane,
        (∀ i : Slot, ∀ j : StageIdx, j.val = i.val →
          (i.val ≤ kL → (t.stage c j).bypass = false ∧ lowSeq[i.val]? = some (t.stage c j).coeffs) ∧
          (kL < i.val → (t.stage c j).bypass = true ∧ (t.stage c j).coeffs = (s.stage c j).coeffs)) ∧
        (∀ i : Slot, ∀ j : StageIdx, j.val = 5 + i.val →
          (i.val ≤ kH → (t.stage c j).bypass = false ∧ highSeq[i.val]? = some (t.stage c j).coeffs) ∧
          (kH < i.val → (t.stage c j).bypass = true ∧ (t.stage c j).coeffs = (s.stage c j).coeffs)) ∧
        t.stage c 4 = s.stage c 4 ∧
        ∀ j, (t.stage c j).s1 = (s.stage c j).s1 ∧ (t.stage c j).s2 = (s.stage c j).s2

/-- `UPDATE_PEAK` (43_stereo_processor.md R185). -/
def Obligations.UpdatePeakActivatesBothPeakStages : Prop :=
  ∀ (set : CoeffSet) (s : State),
    ∃ t, exec (.updatePeak set) s = .next t ∧ t = { s with lanes := t.lanes } ∧
      ∀ (c : Lane) (j : StageIdx),
        t.stage c j = if j = 4 then { s.stage c j with coeffs := set, bypass := false } else s.stage c j

/-- `UPDATE` (43_stereo_processor.md R186): the composition of its operations in the source's order; the state words
stay, lanes that agreed still do, and doing it again changes nothing. -/
def Obligations.UpdateIsItsStepsInOrder : Prop :=
  ∀ s : State,
    let fsd := widen s.fs
    ∃ t1 t2 t3 t4 u t P set lowSeq highSeq,
      exec (.convertSnapshot fsd) s = .next t1 ∧ t1.result = .snapshot P ∧
      exec (.designPeak P.peakF P.gainDb P.q fsd) s = .next t2 ∧ t2.result = .coeffs set ∧
      exec (.designLowcut P.lowF P.kL fsd) s = .next t3 ∧ t3.result = .sequence lowSeq ∧
      exec (.designHighcut P.highF P.kH fsd) s = .next t4 ∧ t4.result = .sequence highSeq ∧
      exec (.updateCut P.kL lowSeq P.kH highSeq) s = .next u ∧ exec (.updatePeak set) u = .next t ∧
      exec .update s = .next t ∧ t = { s with lanes := t.lanes } ∧
      (∀ c j, (t.stage c j).s1 = (s.stage c j).s1 ∧ (t.stage c j).s2 = (s.stage c j).s2) ∧
      (LanesAgree s → LanesAgree t) ∧ exec .update t = .next t

/-- `BLOCK_PROCESS` (43_stereo_processor.md section 2): it completes when every word of the block holds a value; each lane's
samples go through that lane's stages in increasing index, each seeing the state the one before left (`run c i` is the state
before sample `i` of lane `c`); the result is written in place, and every other byte of the buffer, every coefficient and
every flag stays. The model's own in this: lane 1 takes its draws after lane 0's (logs 8 and 22), and the operation runs at
the lengths 0 and above `MAXBLK`, which no command gives it (log 19). -/
def Obligations.BlockProcessRunsEverySampleInPlace : Prop :=
  ∀ (n : BitVec 16) (s : State), (∀ c i, i < n.toNat → (s.bufRead c i).isSome = true) →
    ∃ (t : State) (run : Lane → Nat → State),
      exec (.blockProcess n) s = .next t ∧
      run 0 0 = s ∧ (run 1 0).lanes = (run 0 n.toNat).lanes ∧ (run 1 0).nanDraws = (run 0 n.toNat).nanDraws ∧
      (∀ c i, i < n.toNat → ∃ x y, s.bufRead c i = some x ∧
        exec (.monoProcess c x) (run c i) = .next (run c (i + 1)) ∧ (run c (i + 1)).result = .sample y ∧
        t.bufRead c i = some y) ∧
      t.lanes = (run 1 n.toNat).lanes ∧
      t = { s with lanes := t.lanes, nanDraws := t.nanDraws, mem := t.mem } ∧
      (∀ a, (∀ c, a < bufOffset c 0 ∨ bufOffset c n.toNat ≤ a) → t.mem.readByte a = s.mem.readByte a) ∧
      (∀ c j, (t.stage c j).coeffs = (s.stage c j).coeffs ∧ (t.stage c j).bypass = (s.stage c j).bypass)

/-- Processing a word that was never written is a model fault (43_stereo_processor.md R189), for the operation and for the
command. -/
def Obligations.UnwrittenSamplesFault : Prop :=
  ∀ (n : BitVec 16) (s : State), (∃ c i, i < n.toNat ∧ s.bufRead c i = none) →
    (∃ c i, i < n.toNat ∧ s.bufRead c i = none ∧ exec (.blockProcess n) s = .fault (.unwrittenSample c i)) ∧
    (s.pending.isSome = true →
      ∃ c i, i < n.toNat ∧ s.bufRead c i = none ∧ exec (.updateAndProcess n) s = .fault (.unwrittenSample c i))

/-- A lane's output words up to any index depend on nothing but its own stages at the start, the patterns drawn and its own
input words up to that index: not on the other lane's samples or state words, nor on a later sample
(43_stereo_processor.md section 2, 70_reset_and_hazards.md section 4). The bypass flags of the other lane enter only
because both lanes draw NaN patterns from one stream (log 8); lengths above `MAXBLK` are the model's (log 19). -/
def Obligations.LanesAreIsolatedAndCausal : Prop :=
  ∀ (n : BitVec 16) (c : Lane) (k : Nat) (s s' t t' : State), k ≤ n.toNat →
    (∀ j, s.stage c j = s'.stage c j) → (∀ c' j, (s.stage c' j).bypass = (s'.stage c' j).bypass) →
    s.nanDraws = s'.nanDraws → (∀ i, i < k → s.bufRead c i = s'.bufRead c i) →
    exec (.blockProcess n) s = .next t → exec (.blockProcess n) s' = .next t' →
    (∀ i, i < k → t.bufRead c i = t'.bufRead c i) ∧
    (k = n.toNat → ∀ j, t.stage c j = t'.stage c j)

/-- `CHAINS_RESET` (70_reset_and_hazards.md R251). -/
def Obligations.ChainsResetClearsBothLanes : Prop :=
  ∀ s : State, ∃ t, exec .chainsReset s = .next t ∧ t = { s with lanes := t.lanes } ∧
    (∀ c j, t.stage c j =
      { coeffs := ⟨0x3F800000#32, 0x00000000#32, 0x00000000#32, 0x00000000#32, 0x00000000#32⟩
        s1 := 0x00000000#32, s2 := 0x00000000#32, bypass := true }) ∧
    t.lanes = State.reset.lanes

/-! ### The host commands -/

/-- NOP (43_stereo_processor.md R200): only `BUSY` rejects it, and its completion does nothing else. -/
def Obligations.NopOnlyCompletes : Prop :=
  ∀ s : State,
    (s.busy = false → exec (.memWrite 0x008#32 4 0x00000000#32) s = .next { s with
      busy := true
      done := false
      pending := some { opc := 0x00#8, len := 0#16, fsLatched := 0x00000000#32 } }) ∧
    (s.busy = true → exec (.memWrite 0x008#32 4 0x00000000#32) s =
      .next { s with err := true, errCause := if s.err then s.errCause else .cmdBusy }) ∧
    (∀ p, s.pending = some p → exec .nop s = .next { s with busy := false, done := true, pending := none })

/-- The completion of PREPARE (43_stereo_processor.md R201). -/
def Obligations.PrepareSetsRateSizeAndResetsBothLanes : Prop :=
  ∀ (s : State) (p : Pending) (len : BitVec 16), s.pending = some p →
    ∃ u, exec .chainsReset s = .next u ∧
      exec (.prepare len) s = .next { s with
        lanes := u.lanes
        fs := p.fsLatched
        maxBlk := BitVec.ofNat 32 len.toNat
        prepared := true
        busy := false
        done := true
        pending := none }

/-- RESET (43_stereo_processor.md R202): only `BUSY` rejects it, and its completion is the chain reset. -/
def Obligations.ResetClearsBothLanesAndNothingElse : Prop :=
  ∀ s : State,
    (s.busy = false → exec (.memWrite 0x008#32 4 0x00000002#32) s = .next { s with
      busy := true
      done := false
      pending := some { opc := 0x02#8, len := 0#16, fsLatched := 0x00000000#32 } }) ∧
    (s.busy = true → exec (.memWrite 0x008#32 4 0x00000002#32) s =
      .next { s with err := true, errCause := if s.err then s.errCause else .cmdBusy }) ∧
    (∀ p, s.pending = some p → ∃ u, exec .chainsReset s = .next u ∧
      exec .reset s = .next { s with lanes := u.lanes, busy := false, done := true, pending := none })

/-- The completion of UPDATE_AND_PROCESS (43_stereo_processor.md R203): the update, then the block if there is one. -/
def Obligations.UpdateAndProcessUpdatesThenProcesses : Prop :=
  ∀ (s : State) (p : Pending) (len : BitVec 16), s.pending = some p →
    (∀ c i, i < len.toNat → (s.bufRead c i).isSome = true) →
    ∃ u v, exec .update s = .next u ∧
      (len = 0#16 → v = u) ∧ (len ≠ 0#16 → exec (.blockProcess len) u = .next v) ∧
      exec (.updateAndProcess len) s = .next { v with busy := false, done := true, pending := none }

/-! ### Whole-machine rules -/

/-- The invariant holds at reset (10_state.md sections 6 to 8). -/
def Obligations.InvariantHoldsAtReset : Prop := Inv State.reset

/-- Every step keeps the invariant: pending and `BUSY` together, the cause and `ERR` together, the buffer canonical and made
of whole words, the lanes equal in coefficients and flags, the rate and block size in range once prepared, the command in
flight legal (10_state.md sections 2, 6 and 7; a list of requests without internal operations on their own, log 23). -/
def Obligations.EveryStepKeepsTheInvariant : Prop :=
  ∀ s t : State, Inv s → step s = .next t → Inv t

/-- Both lanes hold identical coefficients and flags at reset and after the completion of every command
(10_state.md R39); no bus access disturbs it. -/
def Obligations.LanesAgreeAfterEveryCommand : Prop :=
  LanesAgree State.reset ∧
  (∀ (cmd : Command) (s t : State), LanesAgree s → exec cmd.toInstr s = .next t → LanesAgree t) ∧
  (∀ (i : Instr) (s t : State), IsAccess i → LanesAgree s → exec i s = .next t → LanesAgree t)

/-- Every accepted command completes after finitely many steps, whatever aligned accesses the host makes meanwhile
(43_stereo_processor.md section 1); that the engine has its turn when the host has stopped is log 2. -/
def Obligations.EveryAcceptedCommandCompletes : Prop :=
  ∀ (s : State) (p : Pending), Inv s → s.pending = some p →
    (∀ r ∈ s.inbox, r = .engine ∨ ∃ a v, a.toNat % 4 = 0 ∧ a.toNat < 0x40000 ∧
      (r = .host [0#32, a, 4#32] ∨ r = .host [1#32, a, 4#32, v])) →
    (p.opc = 0x03#8 → ∀ c i, i < p.len.toNat → (s.bufRead c i).isSome = true) →
    ∃ n t, n ≤ s.inbox.length + 1 ∧ run n s = .next t ∧ t.pending = none ∧ t.busy = false ∧ t.done = true

/-- What the host does between acceptance and completion does not change the command's effect: the same stages, buffer,
rate, block size and flags result (43_stereo_processor.md section 1). -/
def Obligations.HostAccessesCannotDisturbACommandInFlight : Prop :=
  ∀ (s t : State) (p : Pending), s.busy = true → s.pending = some p → HostAccesses s t →
    t.busy = true ∧ t.pending = some p ∧
    ∀ (cmd : Command) (u : State), exec cmd.toInstr s = .next u →
      ∃ u', exec cmd.toInstr t = .next u' ∧ u'.lanes = u.lanes ∧ u'.mem = u.mem ∧ u'.fs = u.fs ∧
        u'.maxBlk = u.maxBlk ∧ u'.prepared = u.prepared ∧ u'.nanDraws = u.nanDraws ∧
        u'.busy = u.busy ∧ u'.done = u.done ∧ u'.pending = u.pending

end Statements
end

