-- ==== Sys2Proof/Laws/Float.lean ====
section
/-! SUPPORT. The laws of the floating-point operations: NaNs stay NaNs, a representable magnitude rounds to itself, and
what is small enough does not overflow. -/
namespace Sys2Proof.Machine

/-! ### Rounding -/

/-- A whole multiple rounds to itself. -/
theorem roundEven_mul (m d : Nat) (h : 0 < d) : roundEven (m * d) d = m := by
  simp [roundEven, Nat.mul_div_cancel _ h, h]

/-- The rounded quotient is the whole part or the next number. -/
theorem roundEven_le (n d : Nat) : roundEven n d ≤ n / d + 1 := by
  unfold roundEven
  simp only
  split <;> omega

/-- The magnitude of a finite pattern rounds to that pattern: no bit of a representable value is lost. -/
theorem Fmt.roundMag_magnitude (f : Fmt) {p : Nat} (hp : p < f.infPattern) {d : Nat} (hd : 0 < d) :
    f.roundMag (f.magnitude p * d) d = p := by
  unfold roundMag
  rw [Nat.mul_div_cancel _ hd]
  have h2 : 0 < 2 ^ f.frac := Nat.two_pow_pos _
  have key : (Nat.log2 (f.magnitude p) - f.frac) * 2 ^ f.frac +
      roundEven (f.magnitude p * d) (d * 2 ^ (Nat.log2 (f.magnitude p) - f.frac)) = p := by
    unfold magnitude
    split
    · rename_i h0
      have hlt : p < 2 ^ f.frac := (Nat.div_eq_zero_iff_lt h2).1 h0
      have hl : Nat.log2 p - f.frac = 0 := by
        by_cases hz : p = 0
        · subst hz; simp
        · have := (Nat.log2_lt hz).2 hlt; omega
      rw [hl, Nat.pow_zero, Nat.mul_one, Nat.zero_mul, Nat.zero_add, roundEven_mul _ _ hd]
    · rename_i h0
      generalize hE : p / 2 ^ f.frac = E at *
      have hm : p % 2 ^ f.frac < 2 ^ f.frac := Nat.mod_lt _ h2
      have hp' : E * 2 ^ f.frac + p % 2 ^ f.frac = p := by
        rw [← hE, Nat.mul_comm]; exact Nat.div_add_mod _ _
      generalize p % 2 ^ f.frac = m at *
      have hlog : Nat.log2 ((2 ^ f.frac + m) * 2 ^ (E - 1)) = f.frac + (E - 1) := by
        have hne : (2 ^ f.frac + m) * 2 ^ (E - 1) ≠ 0 := by positivity
        refine (Nat.log2_eq_iff hne).2 ⟨?_, ?_⟩
        · rw [Nat.pow_add]; exact Nat.mul_le_mul_right _ (by omega)
        · rw [show f.frac + (E - 1) + 1 = (f.frac + 1) + (E - 1) by omega, Nat.pow_add]
          exact Nat.mul_lt_mul_of_pos_right (by rw [Nat.pow_succ]; omega) (Nat.two_pow_pos _)
      rw [hlog, Nat.add_sub_cancel_left,
        show (2 ^ f.frac + m) * 2 ^ (E - 1) * d = (2 ^ f.frac + m) * (d * 2 ^ (E - 1)) by ring,
        roundEven_mul _ _ (by positivity)]
      obtain ⟨e, rfl⟩ : ∃ e, E = e + 1 := ⟨E - 1, by omega⟩
      rw [Nat.add_sub_cancel, ← hp']
      ring
  simp only [key, if_pos hp]

/-- A magnitude below the format's normal range at exponent `e` rounds to a pattern of exponent at most `e + 2`. -/
theorem Fmt.roundMag_le (f : Fmt) {num den e : Nat} (h : num / den < 2 ^ (f.frac + 1 + e)) :
    f.roundMag num den ≤ (e + 2) * 2 ^ f.frac := by
  have hs : Nat.log2 (num / den) - f.frac ≤ e := by
    by_cases hz : num / den = 0
    · rw [hz]; simp
    · have := (Nat.log2_lt hz).2 h; omega
  have hr : roundEven num (den * 2 ^ (Nat.log2 (num / den) - f.frac)) ≤ 2 ^ (f.frac + 1) := by
    refine (roundEven_le _ _).trans ?_
    rw [← Nat.div_div_eq_div_mul]
    refine Nat.succ_le_of_lt ((Nat.div_lt_iff_lt_mul (Nat.two_pow_pos _)).2 ?_)
    rw [← Nat.pow_add]
    have h' : num / den < 2 ^ (Nat.log2 (num / den) + 1) := Nat.lt_log2_self
    exact h'.trans_le (Nat.pow_le_pow_right (by omega) (by omega))
  unfold roundMag
  have hk : (Nat.log2 (num / den) - f.frac) * 2 ^ f.frac +
      roundEven num (den * 2 ^ (Nat.log2 (num / den) - f.frac)) ≤ (e + 2) * 2 ^ f.frac := by
    have := Nat.mul_le_mul_right (2 ^ f.frac) hs
    have e2 : (e + 2) * 2 ^ f.frac = e * 2 ^ f.frac + 2 ^ (f.frac + 1) := by ring
    omega
  simp only
  split
  · exact hk
  · omega

/-- A rounded magnitude is never above the pattern of infinity. -/
theorem Fmt.roundMag_le_inf (f : Fmt) (num den : Nat) : f.roundMag num den ≤ f.infPattern := by
  unfold roundMag
  simp only
  split <;> omega

/-! ### Unpacking what was packed -/

theorem Fmt.infPattern_lt (f : Fmt) : f.infPattern < 2 ^ (f.frac + f.exp) := by
  unfold infPattern
  have h2 : 0 < 2 ^ f.exp := Nat.two_pow_pos _
  rw [Nat.add_comm f.frac, Nat.pow_add]
  exact Nat.mul_lt_mul_of_pos_right (by omega) (Nat.two_pow_pos _)

/-- The sign of a packed pattern and the rest of it. -/
theorem Fmt.signBit_add (f : Fmt) (s : Bool) {p : Nat} (hp : p < 2 ^ (f.frac + f.exp)) :
    (decide ((f.signBit s + p) / 2 ^ (f.frac + f.exp) % 2 = 1) = s) ∧
    (f.signBit s + p) % 2 ^ (f.frac + f.exp) = p ∧ f.signBit s + p < 2 ^ (f.frac + f.exp + 1) := by
  have h2 : 0 < 2 ^ (f.frac + f.exp) := Nat.two_pow_pos _
  rw [Nat.pow_succ]
  unfold signBit
  cases s with
  | false => simp [Nat.div_eq_of_lt hp, Nat.mod_eq_of_lt hp]; omega
  | true =>
    simp only [if_true, Nat.add_mod_left, Nat.mod_eq_of_lt hp, true_and]
    rw [Nat.add_div_left _ h2, Nat.div_eq_of_lt hp]
    exact ⟨rfl, by omega⟩

theorem Fmt.unpack_finite (f : Fmt) (s : Bool) {p : Nat} (hp : p < f.infPattern) :
    f.unpack (f.signBit s + p) = .fin s (f.magnitude p) := by
  obtain ⟨h1, h2, _⟩ := f.signBit_add s (hp.trans f.infPattern_lt)
  simp only [unpack, h1, h2, if_pos hp]

theorem Fmt.unpack_inf (f : Fmt) (s : Bool) : f.unpack (f.signBit s + f.infPattern) = .inf s := by
  obtain ⟨h1, h2, _⟩ := f.signBit_add s f.infPattern_lt
  simp only [unpack, h1, h2, Nat.lt_irrefl, if_false, if_true]

theorem Fmt.unpack_nanPattern (f : Fmt) (s : Bool) {k : Nat} (hk : k + 1 < 2 ^ f.frac) :
    f.unpack (f.nanPattern s k) = .nan ∧ f.nanPattern s k < 2 ^ (f.frac + f.exp + 1) := by
  have hp : f.infPattern + (k + 1) < 2 ^ (f.frac + f.exp) := by
    unfold infPattern
    have h2 : 0 < 2 ^ f.exp := Nat.two_pow_pos _
    have e : 2 ^ (f.frac + f.exp) = (2 ^ f.exp - 1) * 2 ^ f.frac + 2 ^ f.frac := by
      obtain ⟨e, he⟩ : ∃ e, 2 ^ f.exp = e + 1 := ⟨2 ^ f.exp - 1, by omega⟩
      rw [Nat.pow_add, he, Nat.add_sub_cancel]; ring
    omega
  unfold nanPattern
  rw [Nat.add_assoc]
  obtain ⟨h1, h2, h3⟩ := f.signBit_add s hp
  refine ⟨?_, h3⟩
  simp only [unpack, h2]
  rw [if_neg (by omega), if_neg (by omega)]

/-- Every pattern that is no NaN is the sign and the rounded magnitude of its value. -/
theorem Fmt.pack_unpack (f : Fmt) {w : Nat} (hw : w < 2 ^ (f.frac + f.exp + 1)) {s : Bool} {m : Nat}
    (h : f.unpack w = .fin s m) {d : Nat} (hd : 0 < d) : f.round s (m * d) d = w := by
  have h2 : 0 < 2 ^ (f.frac + f.exp) := Nat.two_pow_pos _
  rw [Nat.pow_succ] at hw
  unfold unpack at h
  simp only at h
  split at h
  · rename_i hp
    cases h
    unfold round
    rw [f.roundMag_magnitude hp hd]
    have hq : w / 2 ^ (f.frac + f.exp) < 2 := (Nat.div_lt_iff_lt_mul h2).2 (by omega)
    have hdm := Nat.div_add_mod w (2 ^ (f.frac + f.exp))
    unfold signBit
    rcases Nat.lt_or_ge (w / 2 ^ (f.frac + f.exp)) 1 with hz | hz
    · have e : w / 2 ^ (f.frac + f.exp) = 0 := Nat.lt_one_iff.1 hz
      rw [e] at hdm ⊢
      simpa using hdm
    · have e : w / 2 ^ (f.frac + f.exp) = 1 := Nat.le_antisymm (Nat.lt_succ_iff.1 hq) hz
      rw [e] at hdm ⊢
      simpa using hdm
  · split at h <;> cases h

/-! ### NaNs -/

/-- Every NaN that is drawn is a NaN (41_biquad_stage.md R144). -/
theorem isNaN32_nan32 (d : Bool × Fin 8388607) : isNaN32 (nan32 d) = true := by
  obtain ⟨h, hlt⟩ := Fmt.b32.unpack_nanPattern d.1 (k := d.2.val) (by have := d.2.isLt; simp [Fmt.b32]; omega)
  have e : (nan32 d).toNat = Fmt.b32.nanPattern d.1 d.2.val := by
    simp only [nan32, BitVec.toNat_ofNat]; exact Nat.mod_eq_of_lt hlt
  simp [isNaN32, val32, e, h]

theorem isNaN32_drawnNan (n : Nat) : isNaN32 (drawnNan n) = true := isNaN32_nan32 _

theorem val32_of_isNaN {x : F32} (h : isNaN32 x = true) : val32 x = .nan := by simpa [isNaN32] using h

theorem isNaN32_result32_none (n : Nat) : isNaN32 (result32 n none) = true := isNaN32_drawnNan n

/-- A NaN operand makes a NaN sum. -/
theorem isNaN32_add32 (n : Nat) {a b : F32} (h : isNaN32 a = true ∨ isNaN32 b = true) :
    isNaN32 (add32 n a b) = true := by
  have : (val32 a).add .b32 (val32 b) = none := by
    rcases h with h | h <;> rw [val32_of_isNaN h]
    · rfl
    · cases val32 a <;> rfl
  rw [add32, this]; exact isNaN32_result32_none n

/-- A NaN operand makes a NaN difference. -/
theorem isNaN32_sub32 (n : Nat) {a b : F32} (h : isNaN32 a = true ∨ isNaN32 b = true) :
    isNaN32 (sub32 n a b) = true := by
  have : (val32 a).add .b32 (val32 b).neg = none := by
    rcases h with h | h <;> rw [val32_of_isNaN h]
    · rfl
    · cases val32 a <;> rfl
  rw [sub32, this]; exact isNaN32_result32_none n

/-- A NaN operand makes a NaN product. -/
theorem isNaN32_mul32 (n : Nat) {a b : F32} (h : isNaN32 a = true ∨ isNaN32 b = true) :
    isNaN32 (mul32 n a b) = true := by
  have : (val32 a).mul .b32 (val32 b) = none := by
    rcases h with h | h <;> rw [val32_of_isNaN h]
    · rfl
    · cases val32 a <;> rfl
  rw [mul32, this]; exact isNaN32_result32_none n

end Sys2Proof.Machine
end

