-- ==== Sys2Proof/Laws/Arith.lean ====
section
/-! SUPPORT. The identities of the arithmetic that the claims use: one and zero, clamping, what stays finite. -/
namespace Sys2Proof.Machine

/-! ### Order and clamping in binary64 -/

theorem le64_iff {a b : F64} : le64 a b = true ↔ isNaN64 a = false ∧ isNaN64 b = false ∧ (val64 a).order .b64 ≤ (val64 b).order .b64 := by
  simp [le64, Val.le, isNaN64, and_assoc]

theorem max64_eq {a b : F64} (ha : isNaN64 a = false) (hb : isNaN64 b = false) : max64 a b = if le64 a b then b else a := by
  simp [max64, ha, hb]
theorem min64_eq {a b : F64} (ha : isNaN64 a = false) (hb : isNaN64 b = false) : min64 a b = if le64 a b then a else b := by
  simp [min64, ha, hb]
theorem le64_total {a b : F64} (ha : isNaN64 a = false) (hb : isNaN64 b = false) (h : ¬ le64 a b = true) : le64 b a = true := by
  rw [le64_iff] at *; refine ⟨hb, ha, ?_⟩
  by_contra hc
  exact h ⟨ha, hb, by omega⟩
theorem le64_refl {a : F64} (ha : isNaN64 a = false) : le64 a a = true := le64_iff.2 ⟨ha, ha, le_refl _⟩
theorem le64_trans {a b c : F64} (h : le64 a b = true) (h' : le64 b c = true) : le64 a c = true := by
  rw [le64_iff] at *; exact ⟨h.1, h'.2.1, h.2.2.trans h'.2.2⟩

theorem clamp {w lo hi : F64} (hw : isNaN64 w = false) (h : le64 lo hi = true) :
    le64 lo (min64 (max64 w lo) hi) = true ∧ le64 (min64 (max64 w lo) hi) hi = true := by
  have hl := (le64_iff.1 h).1
  have hh := (le64_iff.1 h).2.1
  rw [max64_eq hw hl]
  split
  · rw [min64_eq hl hh, if_pos h]; exact ⟨le64_refl hl, h⟩
  · rename_i hc
    have := le64_total hw hl hc
    rw [min64_eq hw hh]
    split
    · exact ⟨this, by assumption⟩
    · exact ⟨h, le64_refl hh⟩

theorem isNaN64_widen {x : F32} (h : isNaN32 x = false) : isNaN64 (widen x) = false := by
  have key : ∀ (s : Bool) (p : Nat), p ≤ Fmt.b64.infPattern → isNaN64 (BitVec.ofNat 64 (Fmt.b64.signBit s + p)) = false := by
    intro s p hp
    have hlt := (Fmt.b64.signBit_add s (p := p) (lt_of_le_of_lt hp Fmt.b64.infPattern_lt)).2.2
    have e : (BitVec.ofNat 64 (Fmt.b64.signBit s + p)).toNat = Fmt.b64.signBit s + p := by
      rw [BitVec.toNat_ofNat]; exact Nat.mod_eq_of_lt hlt
    unfold isNaN64 val64
    rw [e]
    rcases Nat.lt_or_eq_of_le hp with hp | rfl
    · rw [Fmt.unpack_finite _ _ hp]; rfl
    · rw [Fmt.unpack_inf]; rfl
  unfold widen
  split
  · rename_i hv; simp [isNaN32, hv] at h
  · exact key _ _ (le_refl _)
  · exact key _ _ (Fmt.roundMag_le_inf ..)

/-! ### One and zero in binary64 -/

theorem isFinite64_iff {x : F64} : isFinite64 x = true ↔ ∃ s m, val64 x = .fin s m := by
  unfold isFinite64; cases val64 x <;> simp

theorem round64 {x : F64} {s : Bool} {m : Nat} (h : val64 x = .fin s m) {d : Nat} (hd : 0 < d) :
    BitVec.ofNat 64 (Fmt.b64.round s (m * d) d) = x := by
  have := Fmt.b64.pack_unpack (w := x.toNat) x.isLt h hd
  rw [this]; simp

theorem val_one64 : val64 0x3FF0000000000000#64 = .fin false (2 ^ Fmt.b64.unit) := by decide +kernel

theorem mul64_one {x : F64} (h : isFinite64 x = true) : mul64 x one64 = x := by
  obtain ⟨s, m, hx⟩ := isFinite64_iff.1 h
  unfold mul64 one64
  rw [hx, val_one64]
  simp only [Val.mul, result64, Bool.bne_false]
  exact round64 hx (Nat.two_pow_pos _)

theorem div64_one {x : F64} (h : isFinite64 x = true) : div64 x one64 = x := by
  obtain ⟨s, m, hx⟩ := isFinite64_iff.1 h
  unfold div64 one64
  rw [hx, val_one64]
  have : (2:Nat) ^ Fmt.b64.unit ≠ 0 := (Nat.two_pow_pos _).ne'
  simp only [Val.div, if_neg this, result64, Bool.bne_false]
  exact round64 hx (Nat.two_pow_pos _)

theorem div64_self {x : F64} (h : isFinite64 x = true) (h0 : isZero64 x = false) : div64 x x = one64 := by
  obtain ⟨s, m, hx⟩ := isFinite64_iff.1 h
  have hm : m ≠ 0 := by simpa [isZero64, hx] using h0
  unfold div64
  rw [hx]
  simp only [Val.div, if_neg hm, result64]
  have := round64 (x := one64) val_one64 (d := m) (by omega)
  rw [Nat.mul_comm] at this
  have hs : (s != s) = false := by cases s <;> rfl
  rw [hs]; exact this

/-! ### One and zero in binary32 -/

theorem mul32_eq {a b : F32} {p : Nat} (h : (val32 a).mul .b32 (val32 b) = some p) (n : Nat) :
    mul32 n a b = BitVec.ofNat 32 p := by
  unfold mul32; rw [h]; rfl

theorem add32_eq {a b : F32} {p : Nat} (h : (val32 a).add .b32 (val32 b) = some p) (n : Nat) :
    add32 n a b = BitVec.ofNat 32 p := by
  unfold add32; rw [h]; rfl

theorem sub32_eq {a b : F32} {p : Nat} (h : (val32 a).add .b32 (val32 b).neg = some p) (n : Nat) :
    sub32 n a b = BitVec.ofNat 32 p := by
  unfold sub32; rw [h]; rfl

theorem round32 {x : F32} {s : Bool} {m : Nat} (h : val32 x = .fin s m) {d : Nat} (hd : 0 < d) :
    BitVec.ofNat 32 (Fmt.b32.round s (m * d) d) = x := by
  have := Fmt.b32.pack_unpack (w := x.toNat) x.isLt h hd
  rw [this]; simp

theorem val_one32 : val32 0x3F800000#32 = .fin false (2 ^ Fmt.b32.unit) := by decide +kernel

theorem mul32_one {x : F32} {s : Bool} {m : Nat} (h : val32 x = .fin s m) (n : Nat) : mul32 n 0x3F800000#32 x = x := by
  unfold mul32
  rw [h, val_one32]
  simp only [Val.mul, result32, Bool.false_bne]
  rw [Nat.mul_comm]
  exact round32 h (Nat.two_pow_pos _)

theorem val_zero {x : F32} (h : IsZero32 x) : ∃ s, val32 x = .fin s 0 := by
  rcases h with rfl | rfl
  · exact ⟨false, by decide +kernel⟩
  · exact ⟨true, by decide +kernel⟩

theorem zero_of_val {x : F32} {s : Bool} (h : val32 x = .fin s 0) : IsZero32 x := by
  have := round32 h (d := 1) (by omega)
  rw [← this]
  cases s
  · left; decide +kernel
  · right; decide +kernel

/-- zero plus zero is a zero -/
theorem add32_zeros {a b : F32} (ha : IsZero32 a) (hb : IsZero32 b) (n : Nat) : IsZero32 (add32 n a b) := by
  rcases ha with rfl | rfl <;> rcases hb with rfl | rfl <;> unfold add32
  · left; rw [show (val32 0x00000000#32).add .b32 (val32 0x00000000#32) = some 0 by decide +kernel]; rfl
  · left; rw [show (val32 0x00000000#32).add .b32 (val32 0x80000000#32) = some 0 by decide +kernel]; rfl
  · left; rw [show (val32 0x80000000#32).add .b32 (val32 0x00000000#32) = some 0 by decide +kernel]; rfl
  · right; rw [show (val32 0x80000000#32).add .b32 (val32 0x80000000#32) = some 0x80000000 by decide +kernel]; rfl

theorem sub32_zeros {a b : F32} (ha : IsZero32 a) (hb : IsZero32 b) (n : Nat) : IsZero32 (sub32 n a b) := by
  rcases ha with rfl | rfl <;> rcases hb with rfl | rfl <;> unfold sub32
  · left; rw [show (val32 0x00000000#32).add .b32 (val32 0x00000000#32).neg = some 0 by decide +kernel]; rfl
  · left; rw [show (val32 0x00000000#32).add .b32 (val32 0x80000000#32).neg = some 0 by decide +kernel]; rfl
  · right; rw [show (val32 0x80000000#32).add .b32 (val32 0x00000000#32).neg = some 0x80000000 by decide +kernel]; rfl
  · left; rw [show (val32 0x80000000#32).add .b32 (val32 0x80000000#32).neg = some 0 by decide +kernel]; rfl

theorem sub32_self {a : F32} {s : Bool} {m : Nat} (h : val32 a = .fin s m) (n : Nat) : sub32 n a a = 0#32 := by
  unfold sub32
  rw [h]
  simp only [Val.neg, Val.add]
  have : ¬ s = !s := by cases s <;> simp
  rw [if_neg this, if_neg (by omega), if_neg (by omega)]; rfl

/-- a product small enough is finite -/
theorem mul32_finite {a b : F32} {s t : Bool} {m k e : Nat} (ha : val32 a = .fin s m) (hb : val32 b = .fin t k)
    (h : m * k / 2 ^ Fmt.b32.unit < 2 ^ (24 + e)) (he : e + 2 < 255) (n : Nat) : ∃ u p, val32 (mul32 n a b) = .fin u p := by
  have hr := Fmt.b32.roundMag_le (num := m * k) (den := 2 ^ Fmt.b32.unit) (e := e) h
  have hlt : Fmt.b32.roundMag (m * k) (2 ^ Fmt.b32.unit) < Fmt.b32.infPattern := by
    have e1 : Fmt.b32.infPattern = 255 * 2 ^ 23 := by decide
    have e2 : Fmt.b32.frac = 23 := rfl
    rw [e1]; rw [e2] at hr
    have : (e + 2) * 2 ^ 23 < 255 * 2 ^ 23 := Nat.mul_lt_mul_of_pos_right he (by decide)
    omega
  have hb3 := (Fmt.b32.signBit_add (s != t) (hlt.trans Fmt.b32.infPattern_lt)).2.2
  refine ⟨s != t, Fmt.b32.magnitude (Fmt.b32.roundMag (m * k) (2 ^ Fmt.b32.unit)), ?_⟩
  unfold mul32
  rw [ha, hb]
  simp only [Val.mul, result32, Fmt.round, val32]
  rw [BitVec.toNat_ofNat, Nat.mod_eq_of_lt (by exact hb3)]
  exact Fmt.unpack_finite _ _ hlt

theorem add32_zero_right {x z : F32} {s : Bool} {m : Nat} (h : val32 x = .fin s m) (hm : m ≠ 0) (hz : IsZero32 z) (n : Nat) :
    add32 n x z = x := by
  obtain ⟨t, ht⟩ := val_zero hz
  unfold add32
  rw [h, ht]
  have hr := round32 h (d := 1) (by omega)
  rw [Nat.mul_one] at hr
  by_cases hst : s = t
  · simp only [Val.add, if_pos hst, result32, Nat.add_zero]; exact hr
  · simp only [Val.add, if_neg hst, if_pos (Nat.pos_of_ne_zero hm), result32, Nat.sub_zero]; exact hr

theorem mul32_zero {a z : F32} {s : Bool} {m : Nat} (ha : val32 a = .fin s m) (hz : IsZero32 z) (n : Nat) : IsZero32 (mul32 n a z) := by
  obtain ⟨t, ht⟩ := val_zero hz
  unfold mul32
  rw [ha, ht]
  simp only [Val.mul, Nat.mul_zero, result32]
  have e : Fmt.b32.round (s != t) 0 (2 ^ Fmt.b32.unit) = Fmt.b32.signBit (s != t) := by
    unfold Fmt.round Fmt.roundMag; simp [roundEven]
  rw [e]
  cases (s != t)
  · left; rfl
  · right; decide +kernel

end Sys2Proof.Machine
end

