-- ==== Sys2Proof/Laws/Encoding.lean ====
section
/-! SUPPORT. The laws of the command word and of the operand words (30_encoding.md). -/
namespace Sys2Proof

theorem toNat_opcField (w : Word) : (opcField w).toNat = w.toNat % 256 := by
  simp [opcField]

theorem toNat_rsvField (w : Word) : (rsvField w).toNat = w.toNat / 256 % 256 := by
  simp [rsvField, Nat.shiftRight_eq_div_pow]

theorem toNat_lenField (w : Word) : (lenField w).toNat = w.toNat / 65536 := by
  have := w.isLt
  simp only [lenField, BitVec.extractLsb'_toNat, Nat.shiftRight_eq_div_pow]
  omega

theorem toNat_commandWord (opc : BitVec 8) (len : BitVec 16) :
    (commandWord opc len).toNat = len.toNat * 65536 + opc.toNat := by
  have ho := opc.isLt
  have hl := len.isLt
  have e1 : (len ++ 0x00#8).toNat = len.toNat * 256 := by
    rw [BitVec.toNat_append, Nat.shiftLeft_eq]; simp
  unfold commandWord
  rw [BitVec.toNat_append, e1, ← Nat.shiftLeft_add_eq_or_of_lt ho, Nat.shiftLeft_eq]
  omega

theorem toNat_and_low (w : Word) : (w &&& 0x0000FFFF#32).toNat = w.toNat % 65536 := by
  rw [BitVec.toNat_and]
  exact Nat.and_two_pow_sub_one_eq_mod w.toNat 16

theorem toNat_and_all (w : Word) : (w &&& 0xFFFFFFFF#32).toNat = w.toNat := by
  rw [BitVec.toNat_and]
  exact (Nat.and_two_pow_sub_one_eq_mod w.toNat 32).trans (Nat.mod_eq_of_lt w.isLt)

theorem word_eq_iff (a b : Word) : a = b ↔ a.toNat = b.toNat := BitVec.toNat_inj.symm

/-- The opcode map read off the number of the word: the low half is the opcode, the high half `LEN` (R90, R92). -/
theorem matchRow_eq (w : Word) :
    matchRow w =
      if w.toNat = 0 then some .nop
      else if w.toNat % 65536 = 1 then some (.prepare (lenField w))
      else if w.toNat = 2 then some .reset
      else if w.toNat % 65536 = 3 then some (.updateAndProcess (lenField w))
      else none := by
  simp only [matchRow, word_eq_iff, toNat_and_low, toNat_and_all]
  rfl

@[simp] theorem opcField_commandWord (opc : BitVec 8) (len : BitVec 16) : opcField (commandWord opc len) = opc := by
  have := opc.isLt
  apply BitVec.eq_of_toNat_eq
  rw [toNat_opcField, toNat_commandWord]
  omega

@[simp] theorem lenField_commandWord (opc : BitVec 8) (len : BitVec 16) : lenField (commandWord opc len) = len := by
  have := opc.isLt
  apply BitVec.eq_of_toNat_eq
  rw [toNat_lenField, toNat_commandWord]
  omega

/-- A word a row matches is the command word of its own fields: `RSV` is 0 (R90, R93). -/
theorem commandWord_of_matchRow {w : Word} {cmd : Command} (h : matchRow w = some cmd) :
    commandWord (opcField w) (lenField w) = w := by
  apply BitVec.eq_of_toNat_eq
  rw [toNat_commandWord, toNat_opcField, toNat_lenField]
  rw [matchRow_eq] at h
  split at h
  · omega
  split at h
  · omega
  split at h
  · omega
  split at h
  · omega
  · cases h

theorem matchRow_nop : matchRow (commandWord 0x00 0) = some .nop := by decide

theorem matchRow_reset : matchRow (commandWord 0x02 0) = some .reset := by decide

theorem matchRow_prepare (len : BitVec 16) : matchRow (commandWord 0x01 len) = some (.prepare len) := by
  have : (commandWord 0x01 len).toNat = len.toNat * 65536 + 1 := toNat_commandWord ..
  rw [matchRow_eq, if_neg (by omega), if_pos (by omega), lenField_commandWord]

theorem matchRow_updateAndProcess (len : BitVec 16) :
    matchRow (commandWord 0x03 len) = some (.updateAndProcess len) := by
  have : (commandWord 0x03 len).toNat = len.toNat * 65536 + 3 := toNat_commandWord ..
  rw [matchRow_eq, if_neg (by omega), if_neg (by omega), if_neg (by omega), if_pos (by omega), lenField_commandWord]

/-! ### Operand words -/

theorem toNat_numWord {n : Nat} (h : n < 2 ^ 32) : (numWord n).toNat = n := by
  rw [numWord, BitVec.toNat_ofNat, Nat.mod_eq_of_lt h]

@[simp] theorem takeF64_f64Words (v : F64) (ws : List Word) : takeF64 (f64Words v ++ ws) = .ok (v, ws) := by
  have : v.extractLsb' 32 32 ++ v.extractLsb' 0 32 = v := by
    apply BitVec.eq_of_getElem_eq
    intro i hi
    simp only [BitVec.getElem_append, BitVec.getElem_extractLsb']
    split
    · rw [BitVec.getLsbD_eq_getElem (by omega)]; congr 1; omega
    · rw [BitVec.getLsbD_eq_getElem (by omega)]; congr 1; omega
  simp only [f64Words, List.cons_append, List.nil_append, takeF64, this]

@[simp] theorem takeF64_f64Words_nil (v : F64) : takeF64 (f64Words v) = .ok (v, []) := by
  simpa using takeF64_f64Words v []

@[simp] theorem takeLane_numWord (c : Lane) (ws : List Word) : takeLane (numWord c.val :: ws) = .ok (c, ws) := by
  have := c.isLt
  have e : (numWord c.val).toNat = c.val := toNat_numWord (by omega)
  simp only [takeLane, e, c.isLt, dif_pos]

@[simp] theorem takeStage_numWord (j : StageIdx) (ws : List Word) : takeStage (numWord j.val :: ws) = .ok (j, ws) := by
  have := j.isLt
  have e : (numWord j.val).toNat = j.val := toNat_numWord (by omega)
  simp only [takeStage, e, j.isLt, dif_pos]

@[simp] theorem takeChain_chainWord (ch : Chain) (ws : List Word) : takeChain (chainWord ch :: ws) = .ok (ch, ws) := by
  cases ch <;> rfl

@[simp] theorem takeFlag_flagWord (b : Bool) (ws : List Word) : takeFlag (flagWord b :: ws) = .ok (b, ws) := by
  cases b <;> rfl

@[simp] theorem takeLen_setWidth (n : BitVec 16) (ws : List Word) : takeLen (n.setWidth 32 :: ws) = .ok (n, ws) := by
  have h := n.isLt
  have e : (n.setWidth 32).toNat = n.toNat := by simp; omega
  have e2 : (n.setWidth 32).setWidth 16 = n := by apply BitVec.eq_of_toNat_eq; simp
  simp only [takeLen, e, e2, if_pos h]

theorem takeOrder_numWord {k : Nat} (h : k < 2 ^ 32) (ws : List Word) : takeOrder (numWord k :: ws) = .ok (k, ws) := by
  simp [takeOrder, toNat_numWord h]

@[simp] theorem takeSet_setWords (c : CoeffSet) (ws : List Word) : takeSet (setWords c ++ ws) = .ok (c, ws) := rfl

@[simp] theorem takeSet_setWords_nil (c : CoeffSet) : takeSet (setWords c) = .ok (c, []) := rfl

@[simp] theorem takeSets_setsWords (seq : List CoeffSet) (ws : List Word) :
    takeSets seq.length (setsWords seq ++ ws) = .ok (seq, ws) := by
  induction seq with
  | nil => rfl
  | cons c cs ih =>
    simp only [List.length_cons, takeSets, setsWords, List.append_assoc, takeSet_setWords, bind, Except.bind, ih]

theorem takeSequence_sequenceWords {seq : List CoeffSet} (h1 : 1 ≤ seq.length) (h4 : seq.length ≤ 4) (ws : List Word) :
    takeSequence (sequenceWords seq ++ ws) = .ok (seq, ws) := by
  have e : (numWord (seq.length - 1)).toNat = seq.length - 1 := toNat_numWord (by omega)
  have e' : seq.length - 1 + 1 = seq.length := by omega
  simp only [takeSequence, sequenceWords, List.cons_append, takeBelow, e, if_pos (show seq.length - 1 < 4 by omega),
    bind, Except.bind, e', takeSets_setsWords]

/-- What `checkSequence` asks. -/
theorem checkSequence_eq_none {k : Nat} {seq : List CoeffSet} :
    checkSequence k seq = none ↔ k ≤ 3 ∧ k + 1 ≤ seq.length ∧ seq.length ≤ 4 := by
  unfold checkSequence
  split
  · simp; omega
  · split <;> simp <;> omega

theorem checkOrder_eq_none {k : Nat} : checkOrder k = none ↔ k ≤ 3 := by
  unfold checkOrder; split <;> simp_all

theorem checkAccess_eq_none {a : Word} {n : Nat} : checkAccess a n = none ↔ n = 4 ∧ a.toNat % 4 = 0 := by
  unfold checkAccess; split <;> simp_all

/-- A parsed well-formed instruction with nothing after it is the decoder's answer. -/
theorem finish_nil {i : Instr} (h : WellFormed i) : finish (i, []) = .ok i := by
  simp [finish, h]

end Sys2Proof
end

