-- ==== Sys2Proof/Laws/Memory.lean ====
section
/-! SUPPORT. The laws of the sample buffer: a read after a write, and the canonical form. -/
namespace Sys2Proof.Machine

/-- Every key of a written memory is the written offset or an old key. -/
theorem Memory.writeByte_keys {m : Memory} {a : Nat} {b : Byte} {p : Host.Cell} (h : p ∈ m.writeByte a b) :
    p.1 = a ∨ p ∈ m := by
  induction m with
  | nil => simp only [writeByte, List.mem_singleton] at h; exact .inl (h ▸ rfl)
  | cons q m ih =>
    obtain ⟨k, c⟩ := q
    simp only [writeByte] at h
    split at h
    · rcases List.mem_cons.1 h with rfl | h
      · exact .inl rfl
      · exact .inr h
    · split at h
      · rcases List.mem_cons.1 h with rfl | h
        · exact .inl rfl
        · exact .inr (List.mem_cons_of_mem _ h)
      · rcases List.mem_cons.1 h with rfl | h
        · exact .inr List.mem_cons_self
        · exact (ih h).imp_right (List.mem_cons_of_mem _)

/-- Storing a byte keeps the canonical form. -/
theorem Memory.writeByte_wf {m : Memory} (h : m.wf) (a : Nat) (b : Byte) : (m.writeByte a b).wf := by
  induction m with
  | nil => simp [writeByte, Memory.wf]
  | cons q m ih =>
    obtain ⟨k, c⟩ := q
    obtain ⟨hk, hm⟩ := List.pairwise_cons.1 h
    simp only [writeByte]
    split
    · rename_i hlt
      refine List.pairwise_cons.2 ⟨fun p hp => ?_, h⟩
      rcases List.mem_cons.1 hp with rfl | hp
      · exact hlt
      · exact hlt.trans (hk p hp)
    · split
      · rename_i _ heq; subst heq; exact List.pairwise_cons.2 ⟨hk, hm⟩
      · refine List.pairwise_cons.2 ⟨fun p hp => ?_, ih hm⟩
        rcases writeByte_keys hp with hpa | hp
        · simp only [hpa]; omega
        · exact hk p hp

/-- A byte read after a byte written. -/
theorem Memory.readByte_writeByte (m : Memory) (a : Nat) (b : Byte) (x : Nat) :
    (m.writeByte a b).readByte x = if x = a then some b else m.readByte x := by
  induction m with
  | nil => simp [writeByte, readByte, eq_comm]
  | cons q m ih =>
    obtain ⟨k, c⟩ := q
    simp only [writeByte]
    split
    · simp [readByte, eq_comm]
    · split
      · rename_i _ heq; subst heq; by_cases hx : x = a
        · simp [readByte, hx]
        · simp [readByte, hx, Ne.symm hx]
      · by_cases hx : k = x
        · subst hx; rename_i _ hne; simp [readByte, Ne.symm hne]
        · simp [readByte, hx, ih]

/-- Storing a word keeps the canonical form. -/
theorem Memory.writeWord_wf {m : Memory} (h : m.wf) (a : Nat) (w : Word) : (m.writeWord a w).wf :=
  writeByte_wf (writeByte_wf (writeByte_wf (writeByte_wf h _ _) _ _) _ _) _ _

/-- A byte read after a word written: byte lane `i` at `a + i`, every other offset as before (20_memory.md R62). -/
theorem Memory.readByte_writeWord (m : Memory) (a : Nat) (w : Word) (x : Nat) :
    (m.writeWord a w).readByte x =
      if x = a + 3 then some (byteLane w 3) else if x = a + 2 then some (byteLane w 2)
      else if x = a + 1 then some (byteLane w 1) else if x = a then some (byteLane w 0) else m.readByte x := by
  unfold writeWord
  rw [readByte_writeByte, readByte_writeByte, readByte_writeByte, readByte_writeByte]

/-- Every byte outside the four written ones reads as before. -/
theorem Memory.readByte_writeWord_outside (m : Memory) (a : Nat) (w : Word) (x : Nat)
    (hx : x < a ∨ a + 4 ≤ x) : (m.writeWord a w).readByte x = m.readByte x := by
  rw [readByte_writeWord]
  repeat rw [if_neg (by omega)]

/-- The byte lanes of a word make up the word. -/
theorem byteLanes_append (w : Word) : byteLane w 3 ++ byteLane w 2 ++ byteLane w 1 ++ byteLane w 0 = w := by
  apply BitVec.eq_of_getElem_eq
  intro i hi
  simp only [byteLane, BitVec.getElem_append, BitVec.getElem_extractLsb']
  split
  · simp [BitVec.getLsbD_eq_getElem, hi]
  · split
    · rw [BitVec.getLsbD_eq_getElem (by omega)]; congr 1; omega
    · split <;> (rw [BitVec.getLsbD_eq_getElem (by omega)]; congr 1; omega)

/-- The word read after it is written is that word. -/
theorem Memory.readWord_writeWord_same (m : Memory) (a : Nat) (w : Word) :
    (m.writeWord a w).readWord a = some w := by
  unfold readWord
  simp only [readByte_writeWord]
  simp [byteLanes_append]

/-- A word that shares no byte with the written one reads as before. -/
theorem Memory.readWord_writeWord_other (m : Memory) (a b : Nat) (w : Word)
    (hab : b + 4 ≤ a ∨ a + 4 ≤ b) : (m.writeWord a w).readWord b = m.readWord b := by
  unfold readWord
  rw [readByte_writeWord_outside _ _ _ _ (by omega), readByte_writeWord_outside _ _ _ _ (by omega),
    readByte_writeWord_outside _ _ _ _ (by omega), readByte_writeWord_outside _ _ _ _ (by omega)]

/-- Every key of a memory after a word write is one of the four offsets or an old key. -/
theorem Memory.writeWord_keys {m : Memory} {a : Nat} {w : Word} {p : Host.Cell} (h : p ∈ m.writeWord a w) :
    (a ≤ p.1 ∧ p.1 < a + 4) ∨ p ∈ m := by
  rcases writeByte_keys h with h | h
  · exact .inl (by omega)
  rcases writeByte_keys h with h | h
  · exact .inl (by omega)
  rcases writeByte_keys h with h | h
  · exact .inl (by omega)
  rcases writeByte_keys h with h | h
  · exact .inl (by omega)
  · exact .inr h

/-- Two sample words are the same or share no byte. -/
theorem bufOffset_disjoint {c c' : Lane} {i i' : Nat} (hi : i < 16384) (hi' : i' < 16384) (h : c ≠ c' ∨ i ≠ i') :
    bufOffset c i + 4 ≤ bufOffset c' i' ∨ bufOffset c' i' + 4 ≤ bufOffset c i := by
  unfold bufOffset
  rcases h with h | h
  · have : c.val ≠ c'.val := fun e => h (Fin.ext e)
    omega
  · by_cases hc : c.val = c'.val
    · rw [hc]; omega
    · omega

/-- `BUF_LEN` lies in 512..16384 (00_scope.md R9). -/
theorem bufLen_bounds : 512 ≤ Config.bufLen ∧ Config.bufLen ≤ 16384 := by
  unfold Config.bufLen
  have := Config.bufLenAbove512.isLt
  omega

end Sys2Proof.Machine
end

