-- ==== Sys2Proof/Laws/State.lean ====
section
/-! SUPPORT. For each update of the state, what each field is after it; all true by rfl. -/
namespace Sys2Proof.Machine.State

/-! ### setStage -/
@[simp] theorem setStage_busy (s : State) (c : Lane) (j : StageIdx) (st : Stage) : (s.setStage c j st).busy = s.busy := rfl
@[simp] theorem setStage_prepared (s : State) (c : Lane) (j : StageIdx) (st : Stage) : (s.setStage c j st).prepared = s.prepared := rfl
@[simp] theorem setStage_done (s : State) (c : Lane) (j : StageIdx) (st : Stage) : (s.setStage c j st).done = s.done := rfl
@[simp] theorem setStage_err (s : State) (c : Lane) (j : StageIdx) (st : Stage) : (s.setStage c j st).err = s.err := rfl
@[simp] theorem setStage_errCause (s : State) (c : Lane) (j : StageIdx) (st : Stage) : (s.setStage c j st).errCause = s.errCause := rfl
@[simp] theorem setStage_fsArg (s : State) (c : Lane) (j : StageIdx) (st : Stage) : (s.setStage c j st).fsArg = s.fsArg := rfl
@[simp] theorem setStage_fs (s : State) (c : Lane) (j : StageIdx) (st : Stage) : (s.setStage c j st).fs = s.fs := rfl
@[simp] theorem setStage_maxBlk (s : State) (c : Lane) (j : StageIdx) (st : Stage) : (s.setStage c j st).maxBlk = s.maxBlk := rfl
@[simp] theorem setStage_param (s : State) (c : Lane) (j : StageIdx) (st : Stage) : (s.setStage c j st).param = s.param := rfl
@[simp] theorem setStage_lanes (s : State) (c : Lane) (j : StageIdx) (st : Stage) : (s.setStage c j st).lanes = s.lanes.set c (s.lanes[c].set j st) := rfl
@[simp] theorem setStage_mem (s : State) (c : Lane) (j : StageIdx) (st : Stage) : (s.setStage c j st).mem = s.mem := rfl
@[simp] theorem setStage_snap (s : State) (c : Lane) (j : StageIdx) (st : Stage) : (s.setStage c j st).snap = s.snap := rfl
@[simp] theorem setStage_pending (s : State) (c : Lane) (j : StageIdx) (st : Stage) : (s.setStage c j st).pending = s.pending := rfl
@[simp] theorem setStage_nanDraws (s : State) (c : Lane) (j : StageIdx) (st : Stage) : (s.setStage c j st).nanDraws = s.nanDraws := rfl
@[simp] theorem setStage_readDraws (s : State) (c : Lane) (j : StageIdx) (st : Stage) : (s.setStage c j st).readDraws = s.readDraws := rfl
@[simp] theorem setStage_readData (s : State) (c : Lane) (j : StageIdx) (st : Stage) : (s.setStage c j st).readData = s.readData := rfl
@[simp] theorem setStage_result (s : State) (c : Lane) (j : StageIdx) (st : Stage) : (s.setStage c j st).result = s.result := rfl
@[simp] theorem setStage_inbox (s : State) (c : Lane) (j : StageIdx) (st : Stage) : (s.setStage c j st).inbox = s.inbox := rfl

/-! ### setCoeffs -/
@[simp] theorem setCoeffs_busy (s : State) (c : Lane) (j : StageIdx) (set : CoeffSet) : (s.setCoeffs c j set).busy = s.busy := rfl
@[simp] theorem setCoeffs_prepared (s : State) (c : Lane) (j : StageIdx) (set : CoeffSet) : (s.setCoeffs c j set).prepared = s.prepared := rfl
@[simp] theorem setCoeffs_done (s : State) (c : Lane) (j : StageIdx) (set : CoeffSet) : (s.setCoeffs c j set).done = s.done := rfl
@[simp] theorem setCoeffs_err (s : State) (c : Lane) (j : StageIdx) (set : CoeffSet) : (s.setCoeffs c j set).err = s.err := rfl
@[simp] theorem setCoeffs_errCause (s : State) (c : Lane) (j : StageIdx) (set : CoeffSet) : (s.setCoeffs c j set).errCause = s.errCause := rfl
@[simp] theorem setCoeffs_fsArg (s : State) (c : Lane) (j : StageIdx) (set : CoeffSet) : (s.setCoeffs c j set).fsArg = s.fsArg := rfl
@[simp] theorem setCoeffs_fs (s : State) (c : Lane) (j : StageIdx) (set : CoeffSet) : (s.setCoeffs c j set).fs = s.fs := rfl
@[simp] theorem setCoeffs_maxBlk (s : State) (c : Lane) (j : StageIdx) (set : CoeffSet) : (s.setCoeffs c j set).maxBlk = s.maxBlk := rfl
@[simp] theorem setCoeffs_param (s : State) (c : Lane) (j : StageIdx) (set : CoeffSet) : (s.setCoeffs c j set).param = s.param := rfl
@[simp] theorem setCoeffs_mem (s : State) (c : Lane) (j : StageIdx) (set : CoeffSet) : (s.setCoeffs c j set).mem = s.mem := rfl
@[simp] theorem setCoeffs_snap (s : State) (c : Lane) (j : StageIdx) (set : CoeffSet) : (s.setCoeffs c j set).snap = s.snap := rfl
@[simp] theorem setCoeffs_pending (s : State) (c : Lane) (j : StageIdx) (set : CoeffSet) : (s.setCoeffs c j set).pending = s.pending := rfl
@[simp] theorem setCoeffs_nanDraws (s : State) (c : Lane) (j : StageIdx) (set : CoeffSet) : (s.setCoeffs c j set).nanDraws = s.nanDraws := rfl
@[simp] theorem setCoeffs_readDraws (s : State) (c : Lane) (j : StageIdx) (set : CoeffSet) : (s.setCoeffs c j set).readDraws = s.readDraws := rfl
@[simp] theorem setCoeffs_readData (s : State) (c : Lane) (j : StageIdx) (set : CoeffSet) : (s.setCoeffs c j set).readData = s.readData := rfl
@[simp] theorem setCoeffs_result (s : State) (c : Lane) (j : StageIdx) (set : CoeffSet) : (s.setCoeffs c j set).result = s.result := rfl
@[simp] theorem setCoeffs_inbox (s : State) (c : Lane) (j : StageIdx) (set : CoeffSet) : (s.setCoeffs c j set).inbox = s.inbox := rfl

/-! ### setBypass -/
@[simp] theorem setBypass_busy (s : State) (c : Lane) (j : StageIdx) (b : Bool) : (s.setBypass c j b).busy = s.busy := rfl
@[simp] theorem setBypass_prepared (s : State) (c : Lane) (j : StageIdx) (b : Bool) : (s.setBypass c j b).prepared = s.prepared := rfl
@[simp] theorem setBypass_done (s : State) (c : Lane) (j : StageIdx) (b : Bool) : (s.setBypass c j b).done = s.done := rfl
@[simp] theorem setBypass_err (s : State) (c : Lane) (j : StageIdx) (b : Bool) : (s.setBypass c j b).err = s.err := rfl
@[simp] theorem setBypass_errCause (s : State) (c : Lane) (j : StageIdx) (b : Bool) : (s.setBypass c j b).errCause = s.errCause := rfl
@[simp] theorem setBypass_fsArg (s : State) (c : Lane) (j : StageIdx) (b : Bool) : (s.setBypass c j b).fsArg = s.fsArg := rfl
@[simp] theorem setBypass_fs (s : State) (c : Lane) (j : StageIdx) (b : Bool) : (s.setBypass c j b).fs = s.fs := rfl
@[simp] theorem setBypass_maxBlk (s : State) (c : Lane) (j : StageIdx) (b : Bool) : (s.setBypass c j b).maxBlk = s.maxBlk := rfl
@[simp] theorem setBypass_param (s : State) (c : Lane) (j : StageIdx) (b : Bool) : (s.setBypass c j b).param = s.param := rfl
@[simp] theorem setBypass_mem (s : State) (c : Lane) (j : StageIdx) (b : Bool) : (s.setBypass c j b).mem = s.mem := rfl
@[simp] theorem setBypass_snap (s : State) (c : Lane) (j : StageIdx) (b : Bool) : (s.setBypass c j b).snap = s.snap := rfl
@[simp] theorem setBypass_pending (s : State) (c : Lane) (j : StageIdx) (b : Bool) : (s.setBypass c j b).pending = s.pending := rfl
@[simp] theorem setBypass_nanDraws (s : State) (c : Lane) (j : StageIdx) (b : Bool) : (s.setBypass c j b).nanDraws = s.nanDraws := rfl
@[simp] theorem setBypass_readDraws (s : State) (c : Lane) (j : StageIdx) (b : Bool) : (s.setBypass c j b).readDraws = s.readDraws := rfl
@[simp] theorem setBypass_readData (s : State) (c : Lane) (j : StageIdx) (b : Bool) : (s.setBypass c j b).readData = s.readData := rfl
@[simp] theorem setBypass_result (s : State) (c : Lane) (j : StageIdx) (b : Bool) : (s.setBypass c j b).result = s.result := rfl
@[simp] theorem setBypass_inbox (s : State) (c : Lane) (j : StageIdx) (b : Bool) : (s.setBypass c j b).inbox = s.inbox := rfl

/-! ### clearStage -/
@[simp] theorem clearStage_busy (s : State) (c : Lane) (j : StageIdx) : (s.clearStage c j).busy = s.busy := rfl
@[simp] theorem clearStage_prepared (s : State) (c : Lane) (j : StageIdx) : (s.clearStage c j).prepared = s.prepared := rfl
@[simp] theorem clearStage_done (s : State) (c : Lane) (j : StageIdx) : (s.clearStage c j).done = s.done := rfl
@[simp] theorem clearStage_err (s : State) (c : Lane) (j : StageIdx) : (s.clearStage c j).err = s.err := rfl
@[simp] theorem clearStage_errCause (s : State) (c : Lane) (j : StageIdx) : (s.clearStage c j).errCause = s.errCause := rfl
@[simp] theorem clearStage_fsArg (s : State) (c : Lane) (j : StageIdx) : (s.clearStage c j).fsArg = s.fsArg := rfl
@[simp] theorem clearStage_fs (s : State) (c : Lane) (j : StageIdx) : (s.clearStage c j).fs = s.fs := rfl
@[simp] theorem clearStage_maxBlk (s : State) (c : Lane) (j : StageIdx) : (s.clearStage c j).maxBlk = s.maxBlk := rfl
@[simp] theorem clearStage_param (s : State) (c : Lane) (j : StageIdx) : (s.clearStage c j).param = s.param := rfl
@[simp] theorem clearStage_mem (s : State) (c : Lane) (j : StageIdx) : (s.clearStage c j).mem = s.mem := rfl
@[simp] theorem clearStage_snap (s : State) (c : Lane) (j : StageIdx) : (s.clearStage c j).snap = s.snap := rfl
@[simp] theorem clearStage_pending (s : State) (c : Lane) (j : StageIdx) : (s.clearStage c j).pending = s.pending := rfl
@[simp] theorem clearStage_nanDraws (s : State) (c : Lane) (j : StageIdx) : (s.clearStage c j).nanDraws = s.nanDraws := rfl
@[simp] theorem clearStage_readDraws (s : State) (c : Lane) (j : StageIdx) : (s.clearStage c j).readDraws = s.readDraws := rfl
@[simp] theorem clearStage_readData (s : State) (c : Lane) (j : StageIdx) : (s.clearStage c j).readData = s.readData := rfl
@[simp] theorem clearStage_result (s : State) (c : Lane) (j : StageIdx) : (s.clearStage c j).result = s.result := rfl
@[simp] theorem clearStage_inbox (s : State) (c : Lane) (j : StageIdx) : (s.clearStage c j).inbox = s.inbox := rfl

/-! ### bufWrite -/
@[simp] theorem bufWrite_busy (s : State) (c : Lane) (i : Nat) (v : F32) : (s.bufWrite c i v).busy = s.busy := rfl
@[simp] theorem bufWrite_prepared (s : State) (c : Lane) (i : Nat) (v : F32) : (s.bufWrite c i v).prepared = s.prepared := rfl
@[simp] theorem bufWrite_done (s : State) (c : Lane) (i : Nat) (v : F32) : (s.bufWrite c i v).done = s.done := rfl
@[simp] theorem bufWrite_err (s : State) (c : Lane) (i : Nat) (v : F32) : (s.bufWrite c i v).err = s.err := rfl
@[simp] theorem bufWrite_errCause (s : State) (c : Lane) (i : Nat) (v : F32) : (s.bufWrite c i v).errCause = s.errCause := rfl
@[simp] theorem bufWrite_fsArg (s : State) (c : Lane) (i : Nat) (v : F32) : (s.bufWrite c i v).fsArg = s.fsArg := rfl
@[simp] theorem bufWrite_fs (s : State) (c : Lane) (i : Nat) (v : F32) : (s.bufWrite c i v).fs = s.fs := rfl
@[simp] theorem bufWrite_maxBlk (s : State) (c : Lane) (i : Nat) (v : F32) : (s.bufWrite c i v).maxBlk = s.maxBlk := rfl
@[simp] theorem bufWrite_param (s : State) (c : Lane) (i : Nat) (v : F32) : (s.bufWrite c i v).param = s.param := rfl
@[simp] theorem bufWrite_lanes (s : State) (c : Lane) (i : Nat) (v : F32) : (s.bufWrite c i v).lanes = s.lanes := rfl
@[simp] theorem bufWrite_mem (s : State) (c : Lane) (i : Nat) (v : F32) : (s.bufWrite c i v).mem = s.mem.writeWord (bufOffset c i) v := rfl
@[simp] theorem bufWrite_snap (s : State) (c : Lane) (i : Nat) (v : F32) : (s.bufWrite c i v).snap = s.snap := rfl
@[simp] theorem bufWrite_pending (s : State) (c : Lane) (i : Nat) (v : F32) : (s.bufWrite c i v).pending = s.pending := rfl
@[simp] theorem bufWrite_nanDraws (s : State) (c : Lane) (i : Nat) (v : F32) : (s.bufWrite c i v).nanDraws = s.nanDraws := rfl
@[simp] theorem bufWrite_readDraws (s : State) (c : Lane) (i : Nat) (v : F32) : (s.bufWrite c i v).readDraws = s.readDraws := rfl
@[simp] theorem bufWrite_readData (s : State) (c : Lane) (i : Nat) (v : F32) : (s.bufWrite c i v).readData = s.readData := rfl
@[simp] theorem bufWrite_result (s : State) (c : Lane) (i : Nat) (v : F32) : (s.bufWrite c i v).result = s.result := rfl
@[simp] theorem bufWrite_inbox (s : State) (c : Lane) (i : Nat) (v : F32) : (s.bufWrite c i v).inbox = s.inbox := rfl
@[simp] theorem bufWrite_stage (s : State) (c : Lane) (i : Nat) (v : F32) (c' : Lane) (j' : StageIdx) : (s.bufWrite c i v).stage c' j' = s.stage c' j' := rfl

/-! ### report -/
@[simp] theorem report_busy (s : State) (e : Cause) : (s.report e).busy = s.busy := rfl
@[simp] theorem report_prepared (s : State) (e : Cause) : (s.report e).prepared = s.prepared := rfl
@[simp] theorem report_done (s : State) (e : Cause) : (s.report e).done = s.done := rfl
@[simp] theorem report_err (s : State) (e : Cause) : (s.report e).err = true := rfl
@[simp] theorem report_errCause (s : State) (e : Cause) : (s.report e).errCause = if s.err then s.errCause else e := rfl
@[simp] theorem report_fsArg (s : State) (e : Cause) : (s.report e).fsArg = s.fsArg := rfl
@[simp] theorem report_fs (s : State) (e : Cause) : (s.report e).fs = s.fs := rfl
@[simp] theorem report_maxBlk (s : State) (e : Cause) : (s.report e).maxBlk = s.maxBlk := rfl
@[simp] theorem report_param (s : State) (e : Cause) : (s.report e).param = s.param := rfl
@[simp] theorem report_lanes (s : State) (e : Cause) : (s.report e).lanes = s.lanes := rfl
@[simp] theorem report_mem (s : State) (e : Cause) : (s.report e).mem = s.mem := rfl
@[simp] theorem report_snap (s : State) (e : Cause) : (s.report e).snap = s.snap := rfl
@[simp] theorem report_pending (s : State) (e : Cause) : (s.report e).pending = s.pending := rfl
@[simp] theorem report_nanDraws (s : State) (e : Cause) : (s.report e).nanDraws = s.nanDraws := rfl
@[simp] theorem report_readDraws (s : State) (e : Cause) : (s.report e).readDraws = s.readDraws := rfl
@[simp] theorem report_readData (s : State) (e : Cause) : (s.report e).readData = s.readData := rfl
@[simp] theorem report_result (s : State) (e : Cause) : (s.report e).result = s.result := rfl
@[simp] theorem report_inbox (s : State) (e : Cause) : (s.report e).inbox = s.inbox := rfl
@[simp] theorem report_stage (s : State) (e : Cause) (c' : Lane) (j' : StageIdx) : (s.report e).stage c' j' = s.stage c' j' := rfl

/-! ### acknowledgeErr -/
@[simp] theorem acknowledgeErr_busy (s : State) : (s.acknowledgeErr).busy = s.busy := rfl
@[simp] theorem acknowledgeErr_prepared (s : State) : (s.acknowledgeErr).prepared = s.prepared := rfl
@[simp] theorem acknowledgeErr_done (s : State) : (s.acknowledgeErr).done = s.done := rfl
@[simp] theorem acknowledgeErr_err (s : State) : (s.acknowledgeErr).err = false := rfl
@[simp] theorem acknowledgeErr_errCause (s : State) : (s.acknowledgeErr).errCause = .none := rfl
@[simp] theorem acknowledgeErr_fsArg (s : State) : (s.acknowledgeErr).fsArg = s.fsArg := rfl
@[simp] theorem acknowledgeErr_fs (s : State) : (s.acknowledgeErr).fs = s.fs := rfl
@[simp] theorem acknowledgeErr_maxBlk (s : State) : (s.acknowledgeErr).maxBlk = s.maxBlk := rfl
@[simp] theorem acknowledgeErr_param (s : State) : (s.acknowledgeErr).param = s.param := rfl
@[simp] theorem acknowledgeErr_lanes (s : State) : (s.acknowledgeErr).lanes = s.lanes := rfl
@[simp] theorem acknowledgeErr_mem (s : State) : (s.acknowledgeErr).mem = s.mem := rfl
@[simp] theorem acknowledgeErr_snap (s : State) : (s.acknowledgeErr).snap = s.snap := rfl
@[simp] theorem acknowledgeErr_pending (s : State) : (s.acknowledgeErr).pending = s.pending := rfl
@[simp] theorem acknowledgeErr_nanDraws (s : State) : (s.acknowledgeErr).nanDraws = s.nanDraws := rfl
@[simp] theorem acknowledgeErr_readDraws (s : State) : (s.acknowledgeErr).readDraws = s.readDraws := rfl
@[simp] theorem acknowledgeErr_readData (s : State) : (s.acknowledgeErr).readData = s.readData := rfl
@[simp] theorem acknowledgeErr_result (s : State) : (s.acknowledgeErr).result = s.result := rfl
@[simp] theorem acknowledgeErr_inbox (s : State) : (s.acknowledgeErr).inbox = s.inbox := rfl
@[simp] theorem acknowledgeErr_stage (s : State) (c' : Lane) (j' : StageIdx) : (s.acknowledgeErr).stage c' j' = s.stage c' j' := rfl

/-! ### acknowledgeDone -/
@[simp] theorem acknowledgeDone_busy (s : State) : (s.acknowledgeDone).busy = s.busy := rfl
@[simp] theorem acknowledgeDone_prepared (s : State) : (s.acknowledgeDone).prepared = s.prepared := rfl
@[simp] theorem acknowledgeDone_done (s : State) : (s.acknowledgeDone).done = false := rfl
@[simp] theorem acknowledgeDone_err (s : State) : (s.acknowledgeDone).err = s.err := rfl
@[simp] theorem acknowledgeDone_errCause (s : State) : (s.acknowledgeDone).errCause = s.errCause := rfl
@[simp] theorem acknowledgeDone_fsArg (s : State) : (s.acknowledgeDone).fsArg = s.fsArg := rfl
@[simp] theorem acknowledgeDone_fs (s : State) : (s.acknowledgeDone).fs = s.fs := rfl
@[simp] theorem acknowledgeDone_maxBlk (s : State) : (s.acknowledgeDone).maxBlk = s.maxBlk := rfl
@[simp] theorem acknowledgeDone_param (s : State) : (s.acknowledgeDone).param = s.param := rfl
@[simp] theorem acknowledgeDone_lanes (s : State) : (s.acknowledgeDone).lanes = s.lanes := rfl
@[simp] theorem acknowledgeDone_mem (s : State) : (s.acknowledgeDone).mem = s.mem := rfl
@[simp] theorem acknowledgeDone_snap (s : State) : (s.acknowledgeDone).snap = s.snap := rfl
@[simp] theorem acknowledgeDone_pending (s : State) : (s.acknowledgeDone).pending = s.pending := rfl
@[simp] theorem acknowledgeDone_nanDraws (s : State) : (s.acknowledgeDone).nanDraws = s.nanDraws := rfl
@[simp] theorem acknowledgeDone_readDraws (s : State) : (s.acknowledgeDone).readDraws = s.readDraws := rfl
@[simp] theorem acknowledgeDone_readData (s : State) : (s.acknowledgeDone).readData = s.readData := rfl
@[simp] theorem acknowledgeDone_result (s : State) : (s.acknowledgeDone).result = s.result := rfl
@[simp] theorem acknowledgeDone_inbox (s : State) : (s.acknowledgeDone).inbox = s.inbox := rfl
@[simp] theorem acknowledgeDone_stage (s : State) (c' : Lane) (j' : StageIdx) : (s.acknowledgeDone).stage c' j' = s.stage c' j' := rfl

/-! ### flagsAccepted -/
@[simp] theorem flagsAccepted_busy (s : State) : (s.flagsAccepted).busy = true := rfl
@[simp] theorem flagsAccepted_prepared (s : State) : (s.flagsAccepted).prepared = s.prepared := rfl
@[simp] theorem flagsAccepted_done (s : State) : (s.flagsAccepted).done = false := rfl
@[simp] theorem flagsAccepted_err (s : State) : (s.flagsAccepted).err = s.err := rfl
@[simp] theorem flagsAccepted_errCause (s : State) : (s.flagsAccepted).errCause = s.errCause := rfl
@[simp] theorem flagsAccepted_fsArg (s : State) : (s.flagsAccepted).fsArg = s.fsArg := rfl
@[simp] theorem flagsAccepted_fs (s : State) : (s.flagsAccepted).fs = s.fs := rfl
@[simp] theorem flagsAccepted_maxBlk (s : State) : (s.flagsAccepted).maxBlk = s.maxBlk := rfl
@[simp] theorem flagsAccepted_param (s : State) : (s.flagsAccepted).param = s.param := rfl
@[simp] theorem flagsAccepted_lanes (s : State) : (s.flagsAccepted).lanes = s.lanes := rfl
@[simp] theorem flagsAccepted_mem (s : State) : (s.flagsAccepted).mem = s.mem := rfl
@[simp] theorem flagsAccepted_snap (s : State) : (s.flagsAccepted).snap = s.snap := rfl
@[simp] theorem flagsAccepted_pending (s : State) : (s.flagsAccepted).pending = s.pending := rfl
@[simp] theorem flagsAccepted_nanDraws (s : State) : (s.flagsAccepted).nanDraws = s.nanDraws := rfl
@[simp] theorem flagsAccepted_readDraws (s : State) : (s.flagsAccepted).readDraws = s.readDraws := rfl
@[simp] theorem flagsAccepted_readData (s : State) : (s.flagsAccepted).readData = s.readData := rfl
@[simp] theorem flagsAccepted_result (s : State) : (s.flagsAccepted).result = s.result := rfl
@[simp] theorem flagsAccepted_inbox (s : State) : (s.flagsAccepted).inbox = s.inbox := rfl
@[simp] theorem flagsAccepted_stage (s : State) (c' : Lane) (j' : StageIdx) : (s.flagsAccepted).stage c' j' = s.stage c' j' := rfl

/-! ### flagsCompleted -/
@[simp] theorem flagsCompleted_busy (s : State) : (s.flagsCompleted).busy = false := rfl
@[simp] theorem flagsCompleted_prepared (s : State) : (s.flagsCompleted).prepared = s.prepared := rfl
@[simp] theorem flagsCompleted_done (s : State) : (s.flagsCompleted).done = true := rfl
@[simp] theorem flagsCompleted_err (s : State) : (s.flagsCompleted).err = s.err := rfl
@[simp] theorem flagsCompleted_errCause (s : State) : (s.flagsCompleted).errCause = s.errCause := rfl
@[simp] theorem flagsCompleted_fsArg (s : State) : (s.flagsCompleted).fsArg = s.fsArg := rfl
@[simp] theorem flagsCompleted_fs (s : State) : (s.flagsCompleted).fs = s.fs := rfl
@[simp] theorem flagsCompleted_maxBlk (s : State) : (s.flagsCompleted).maxBlk = s.maxBlk := rfl
@[simp] theorem flagsCompleted_param (s : State) : (s.flagsCompleted).param = s.param := rfl
@[simp] theorem flagsCompleted_lanes (s : State) : (s.flagsCompleted).lanes = s.lanes := rfl
@[simp] theorem flagsCompleted_mem (s : State) : (s.flagsCompleted).mem = s.mem := rfl
@[simp] theorem flagsCompleted_snap (s : State) : (s.flagsCompleted).snap = s.snap := rfl
@[simp] theorem flagsCompleted_pending (s : State) : (s.flagsCompleted).pending = s.pending := rfl
@[simp] theorem flagsCompleted_nanDraws (s : State) : (s.flagsCompleted).nanDraws = s.nanDraws := rfl
@[simp] theorem flagsCompleted_readDraws (s : State) : (s.flagsCompleted).readDraws = s.readDraws := rfl
@[simp] theorem flagsCompleted_readData (s : State) : (s.flagsCompleted).readData = s.readData := rfl
@[simp] theorem flagsCompleted_result (s : State) : (s.flagsCompleted).result = s.result := rfl
@[simp] theorem flagsCompleted_inbox (s : State) : (s.flagsCompleted).inbox = s.inbox := rfl
@[simp] theorem flagsCompleted_stage (s : State) (c' : Lane) (j' : StageIdx) : (s.flagsCompleted).stage c' j' = s.stage c' j' := rfl

/-! ### complete -/
@[simp] theorem complete_busy (s : State) : (s.complete).busy = false := rfl
@[simp] theorem complete_prepared (s : State) : (s.complete).prepared = s.prepared := rfl
@[simp] theorem complete_done (s : State) : (s.complete).done = true := rfl
@[simp] theorem complete_err (s : State) : (s.complete).err = s.err := rfl
@[simp] theorem complete_errCause (s : State) : (s.complete).errCause = s.errCause := rfl
@[simp] theorem complete_fsArg (s : State) : (s.complete).fsArg = s.fsArg := rfl
@[simp] theorem complete_fs (s : State) : (s.complete).fs = s.fs := rfl
@[simp] theorem complete_maxBlk (s : State) : (s.complete).maxBlk = s.maxBlk := rfl
@[simp] theorem complete_param (s : State) : (s.complete).param = s.param := rfl
@[simp] theorem complete_lanes (s : State) : (s.complete).lanes = s.lanes := rfl
@[simp] theorem complete_mem (s : State) : (s.complete).mem = s.mem := rfl
@[simp] theorem complete_snap (s : State) : (s.complete).snap = s.snap := rfl
@[simp] theorem complete_pending (s : State) : (s.complete).pending = none := rfl
@[simp] theorem complete_nanDraws (s : State) : (s.complete).nanDraws = s.nanDraws := rfl
@[simp] theorem complete_readDraws (s : State) : (s.complete).readDraws = s.readDraws := rfl
@[simp] theorem complete_readData (s : State) : (s.complete).readData = s.readData := rfl
@[simp] theorem complete_result (s : State) : (s.complete).result = s.result := rfl
@[simp] theorem complete_inbox (s : State) : (s.complete).inbox = s.inbox := rfl
@[simp] theorem complete_stage (s : State) (c' : Lane) (j' : StageIdx) : (s.complete).stage c' j' = s.stage c' j' := rfl

/-! ### accept -/
@[simp] theorem accept_busy (s : State) (w : Word) (cmd : Command) : (s.accept w cmd).busy = true := rfl
@[simp] theorem accept_prepared (s : State) (w : Word) (cmd : Command) : (s.accept w cmd).prepared = s.prepared := rfl
@[simp] theorem accept_done (s : State) (w : Word) (cmd : Command) : (s.accept w cmd).done = false := rfl
@[simp] theorem accept_err (s : State) (w : Word) (cmd : Command) : (s.accept w cmd).err = s.err := rfl
@[simp] theorem accept_errCause (s : State) (w : Word) (cmd : Command) : (s.accept w cmd).errCause = s.errCause := rfl
@[simp] theorem accept_fsArg (s : State) (w : Word) (cmd : Command) : (s.accept w cmd).fsArg = s.fsArg := rfl
@[simp] theorem accept_fs (s : State) (w : Word) (cmd : Command) : (s.accept w cmd).fs = s.fs := rfl
@[simp] theorem accept_maxBlk (s : State) (w : Word) (cmd : Command) : (s.accept w cmd).maxBlk = s.maxBlk := rfl
@[simp] theorem accept_param (s : State) (w : Word) (cmd : Command) : (s.accept w cmd).param = s.param := rfl
@[simp] theorem accept_lanes (s : State) (w : Word) (cmd : Command) : (s.accept w cmd).lanes = s.lanes := rfl
@[simp] theorem accept_mem (s : State) (w : Word) (cmd : Command) : (s.accept w cmd).mem = s.mem := rfl
@[simp] theorem accept_snap (s : State) (w : Word) (cmd : Command) : (s.accept w cmd).snap = s.snapAfter cmd := rfl
@[simp] theorem accept_pending (s : State) (w : Word) (cmd : Command) : (s.accept w cmd).pending = some ⟨opcField w, lenField w, s.latchedRate cmd⟩ := rfl
@[simp] theorem accept_nanDraws (s : State) (w : Word) (cmd : Command) : (s.accept w cmd).nanDraws = s.nanDraws := rfl
@[simp] theorem accept_readDraws (s : State) (w : Word) (cmd : Command) : (s.accept w cmd).readDraws = s.readDraws := rfl
@[simp] theorem accept_readData (s : State) (w : Word) (cmd : Command) : (s.accept w cmd).readData = s.readData := rfl
@[simp] theorem accept_result (s : State) (w : Word) (cmd : Command) : (s.accept w cmd).result = s.result := rfl
@[simp] theorem accept_inbox (s : State) (w : Word) (cmd : Command) : (s.accept w cmd).inbox = s.inbox := rfl
@[simp] theorem accept_stage (s : State) (w : Word) (cmd : Command) (c' : Lane) (j' : StageIdx) : (s.accept w cmd).stage c' j' = s.stage c' j' := rfl

/-! ### withResult -/
@[simp] theorem withResult_busy (s : State) (r : UopResult) : (s.withResult r).busy = s.busy := rfl
@[simp] theorem withResult_prepared (s : State) (r : UopResult) : (s.withResult r).prepared = s.prepared := rfl
@[simp] theorem withResult_done (s : State) (r : UopResult) : (s.withResult r).done = s.done := rfl
@[simp] theorem withResult_err (s : State) (r : UopResult) : (s.withResult r).err = s.err := rfl
@[simp] theorem withResult_errCause (s : State) (r : UopResult) : (s.withResult r).errCause = s.errCause := rfl
@[simp] theorem withResult_fsArg (s : State) (r : UopResult) : (s.withResult r).fsArg = s.fsArg := rfl
@[simp] theorem withResult_fs (s : State) (r : UopResult) : (s.withResult r).fs = s.fs := rfl
@[simp] theorem withResult_maxBlk (s : State) (r : UopResult) : (s.withResult r).maxBlk = s.maxBlk := rfl
@[simp] theorem withResult_param (s : State) (r : UopResult) : (s.withResult r).param = s.param := rfl
@[simp] theorem withResult_lanes (s : State) (r : UopResult) : (s.withResult r).lanes = s.lanes := rfl
@[simp] theorem withResult_mem (s : State) (r : UopResult) : (s.withResult r).mem = s.mem := rfl
@[simp] theorem withResult_snap (s : State) (r : UopResult) : (s.withResult r).snap = s.snap := rfl
@[simp] theorem withResult_pending (s : State) (r : UopResult) : (s.withResult r).pending = s.pending := rfl
@[simp] theorem withResult_nanDraws (s : State) (r : UopResult) : (s.withResult r).nanDraws = s.nanDraws := rfl
@[simp] theorem withResult_readDraws (s : State) (r : UopResult) : (s.withResult r).readDraws = s.readDraws := rfl
@[simp] theorem withResult_readData (s : State) (r : UopResult) : (s.withResult r).readData = s.readData := rfl
@[simp] theorem withResult_result (s : State) (r : UopResult) : (s.withResult r).result = r := rfl
@[simp] theorem withResult_inbox (s : State) (r : UopResult) : (s.withResult r).inbox = s.inbox := rfl
@[simp] theorem withResult_stage (s : State) (r : UopResult) (c' : Lane) (j' : StageIdx) : (s.withResult r).stage c' j' = s.stage c' j' := rfl

/-! ### powerOnReset -/
@[simp] theorem powerOnReset_busy (s : State) : s.powerOnReset.busy = State.reset.busy := rfl
@[simp] theorem powerOnReset_prepared (s : State) : s.powerOnReset.prepared = State.reset.prepared := rfl
@[simp] theorem powerOnReset_done (s : State) : s.powerOnReset.done = State.reset.done := rfl
@[simp] theorem powerOnReset_err (s : State) : s.powerOnReset.err = State.reset.err := rfl
@[simp] theorem powerOnReset_errCause (s : State) : s.powerOnReset.errCause = State.reset.errCause := rfl
@[simp] theorem powerOnReset_fsArg (s : State) : s.powerOnReset.fsArg = State.reset.fsArg := rfl
@[simp] theorem powerOnReset_fs (s : State) : s.powerOnReset.fs = State.reset.fs := rfl
@[simp] theorem powerOnReset_maxBlk (s : State) : s.powerOnReset.maxBlk = State.reset.maxBlk := rfl
@[simp] theorem powerOnReset_param (s : State) : s.powerOnReset.param = State.reset.param := rfl
@[simp] theorem powerOnReset_lanes (s : State) : s.powerOnReset.lanes = State.reset.lanes := rfl
@[simp] theorem powerOnReset_mem (s : State) : s.powerOnReset.mem = State.reset.mem := rfl
@[simp] theorem powerOnReset_snap (s : State) : s.powerOnReset.snap = State.reset.snap := rfl
@[simp] theorem powerOnReset_pending (s : State) : s.powerOnReset.pending = State.reset.pending := rfl
@[simp] theorem powerOnReset_nanDraws (s : State) : s.powerOnReset.nanDraws = s.nanDraws := rfl
@[simp] theorem powerOnReset_readDraws (s : State) : s.powerOnReset.readDraws = s.readDraws := rfl
@[simp] theorem powerOnReset_readData (s : State) : s.powerOnReset.readData = State.reset.readData := rfl
@[simp] theorem powerOnReset_result (s : State) : s.powerOnReset.result = State.reset.result := rfl
@[simp] theorem powerOnReset_inbox (s : State) : s.powerOnReset.inbox = s.inbox := rfl

end Sys2Proof.Machine.State
end

