-- ==== Sys2Proof/Laws/Bus.lean ====
section
/-! SUPPORT. The laws of the address map, of the bus accesses and of acceptance (20_memory.md, 43_stereo_processor.md
R180). -/
namespace Sys2Proof.Machine

/-! ### The address map (R61) -/

theorem target_param (i : Fin 7) : target (0x040 + 4 * i.val) = .param i := by
  revert i; decide

theorem target_stageView (c : Lane) (j : StageIdx) (w : Fin 8) :
    target (0x100 + 0x200 * c.val + 0x20 * j.val + 4 * w.val) = .stageView c j w := by
  revert c j w; decide

theorem viewTarget_cases (c : Lane) (d : Nat) : viewTarget c d = .viewGap ∨ ∃ j w, viewTarget c d = .stageView c j w := by
  unfold viewTarget
  split
  · exact .inr ⟨_, _, rfl⟩
  · exact .inl rfl

theorem target_buffer {off : Nat} (h : 0x10000 ≤ off) : target off = bufferTarget off := by
  unfold target
  rw [if_neg (by omega), if_neg (by omega), if_neg (by omega), if_neg (by omega), if_neg (by omega)]

theorem target_sample (c : Lane) {i : Nat} (hi : i < 16384) : target (bufOffset c i) = .sample c i := by
  have h0 : 0x10000 ≤ bufOffset c i := by unfold bufOffset; omega
  rw [target_buffer h0, bufferTarget]
  fin_cases c
  · rw [show bufOffset ⟨0, by omega⟩ i = 0x10000 + 4 * i by simp [bufOffset], if_pos (by omega),
      show (0x10000 + 4 * i - 0x10000) / 4 = i by omega]
    rfl
  · rw [show bufOffset ⟨1, by omega⟩ i = 0x20000 + 4 * i by simp [bufOffset], if_neg (by omega), if_pos (by omega),
      show (0x20000 + 4 * i - 0x20000) / 4 = i by omega]
    rfl

/-- Beyond the stage view there is only the sample buffer (R61). -/
theorem target_high {off : Nat} (h : 0x500 ≤ off) : target off = .reserved ∨ ∃ c i, target off = .sample c i := by
  by_cases hb : off < 0x10000
  · left
    unfold target
    rw [if_neg (by omega), if_neg (by omega), if_neg (by omega), if_neg (by omega), if_pos (by omega)]
  · rw [target_buffer (by omega), bufferTarget]
    split
    · exact .inr ⟨_, _, rfl⟩
    · split
      · exact .inr ⟨_, _, rfl⟩
      · exact .inl rfl

/-- Only offset 0x008 is `CMD` (R61). -/
theorem target_eq_cmd {off : Nat} : target off = .cmd ↔ off = 0x008 := by
  by_cases h : off < 0x500
  · have : ∀ o < 0x500, target o = .cmd ↔ o = 0x008 := by decide +kernel
    exact this off h
  · constructor
    · intro e
      rcases target_high (off := off) (by omega) with h | ⟨c, i, h⟩ <;> rw [h] at e <;> cases e
    · omega

/-- Only offset 0x00C is `STATUS` among the aligned ones (R61). -/
theorem target_eq_status {off : Nat} : target off = .status ↔ off = 0x00C := by
  by_cases h : off < 0x500
  · have : ∀ o < 0x500, target o = .status ↔ o = 0x00C := by decide +kernel
    exact this off h
  · constructor
    · intro e
      rcases target_high (off := off) (by omega) with h | ⟨c, i, h⟩ <;> rw [h] at e <;> cases e
    · omega

/-- No offset below the sample buffer is a sample (R61). -/
theorem target_low_ne_sample {off : Nat} (h : off < 0x10000) (c : Lane) (i : Nat) : target off ≠ .sample c i := by
  unfold target controlTarget paramTarget viewTarget
  intro e
  repeat' split at e
  all_goals cases e

/-- A sample target stands at its own offset, of 16384 words to a lane (10_state.md R34). -/
theorem target_eq_sample {off : Nat} {c : Lane} {i : Nat} (h : target off = .sample c i) (ha : off % 4 = 0) :
    off = bufOffset c i ∧ i < 16384 := by
  by_cases hb : off < 0x10000
  · exact absurd h (target_low_ne_sample hb c i)
  · rw [target_buffer (by omega), bufferTarget] at h
    split at h
    · cases h; exact ⟨by simp [bufOffset]; omega, by omega⟩
    · split at h
      · cases h; exact ⟨by simp [bufOffset]; omega, by omega⟩
      · cases h

/-- A parameter register stands at one offset. -/
theorem target_eq_param {off : Nat} {k : Fin 7} (h : target off = .param k) (ha : off % 4 = 0) :
    off = 0x040 + 4 * k.val := by
  unfold target at h
  split at h
  · unfold controlTarget at h; split at h <;> cases h
  split at h
  · unfold paramTarget at h
    split at h
    · cases h; simp; omega
    · cases h
  split at h
  · unfold viewTarget at h; split at h <;> cases h
  split at h
  · unfold viewTarget at h; split at h <;> cases h
  split at h
  · cases h
  · unfold bufferTarget at h
    split at h
    · cases h
    · split at h <;> cases h

/-! ### Accesses -/

/-- The three ways an access can go (R60, R63). -/
theorem accessing_cases (a : Word) (n : Nat) (go : Target → Result) :
    (∃ why, checkAccess a n = some why ∧ accessing a n go = .refused (.illFormed why)) ∨
    (checkAccess a n = none ∧ windowSize ≤ a.toNat ∧ accessing a n go = .fault (.outsideWindow a.toNat)) ∨
    (checkAccess a n = none ∧ a.toNat < windowSize ∧ accessing a n go = go (target a.toNat)) := by
  unfold accessing
  cases checkAccess a n with
  | some why => exact .inl ⟨why, rfl, rfl⟩
  | none =>
    by_cases h : a.toNat < windowSize
    · exact .inr (.inr ⟨rfl, h, if_pos h⟩)
    · exact .inr (.inl ⟨rfl, by omega, if_neg h⟩)

/-- An aligned word access inside the window goes on. -/
theorem accessing_ok {a : Word} (ha : a.toNat % 4 = 0) (hw : a.toNat < windowSize) (go : Target → Result) :
    accessing a 4 go = go (target a.toNat) := by
  unfold accessing
  rw [checkAccess_eq_none.2 ⟨rfl, ha⟩]
  exact if_pos hw

/-- A next state of an access comes from its target. -/
theorem accessing_next {a : Word} {n : Nat} {go : Target → Result} {t : State} (h : accessing a n go = .next t) :
    n = 4 ∧ a.toNat % 4 = 0 ∧ a.toNat < windowSize ∧ go (target a.toNat) = .next t := by
  rcases accessing_cases a n go with ⟨why, hc, he⟩ | ⟨hc, hw, he⟩ | ⟨hc, hw, he⟩
  · rw [he] at h; cases h
  · rw [he] at h; cases h
  · obtain ⟨hn, ha⟩ := checkAccess_eq_none.1 hc
    exact ⟨hn, ha, hw, he ▸ h⟩

/-- A read leaves the block as it is: only the model's record of the returned word and its draws change (R64). -/
theorem readTarget_frame {s t : State} {x : Target} (h : s.readTarget x = .next t) :
    t = { s with readData := t.readData, readDraws := t.readDraws } := by
  unfold State.readTarget at h
  split at h
  all_goals (repeat' split at h)
  all_goals first
    | (cases h; rfl)
    | cases h

/-- A stage-view word, idle (10_state.md R32). -/
theorem readTarget_stageView {s : State} (hb : s.busy = false) (c : Lane) (j : StageIdx) (w : Fin 8) :
    s.readTarget (.stageView c j w) = .next { s with readData := some ((s.stage c j).viewWord w) } :=
  if_neg (by simp [hb])

/-- The gap of the stage view, idle. -/
theorem readTarget_viewGap {s : State} (hb : s.busy = false) :
    s.readTarget .viewGap = .next { s with readData := some 0#32 } :=
  if_neg (by simp [hb])

/-- The stage view, busy. -/
theorem readTarget_view_busy {s : State} (hb : s.busy = true) {x : Target}
    (hx : x = .viewGap ∨ ∃ c j w, x = .stageView c j w) :
    s.readTarget x =
      .next { s with readData := some (Config.busyWord s.readDraws), readDraws := s.readDraws + 1 } := by
  rcases hx with rfl | ⟨c, j, w, rfl⟩ <;> exact if_pos hb

/-- A sample word that exists, idle (20_memory.md R66). -/
theorem readTarget_sample {s : State} (hb : s.busy = false) {c : Lane} {i : Nat} (hi : i < Config.bufLen) :
    s.readTarget (.sample c i) =
      match s.bufRead c i with
      | some w => .next { s with readData := some w }
      | none => .fault (.noValue (bufOffset c i)) :=
  (if_neg (by omega)).trans (if_neg (by simp [hb]))

/-- A sample word that exists, busy. -/
theorem readTarget_sample_busy {s : State} (hb : s.busy = true) {c : Lane} {i : Nat} (hi : i < Config.bufLen) :
    s.readTarget (.sample c i) =
      .next { s with readData := some (Config.busyWord s.readDraws), readDraws := s.readDraws + 1 } :=
  (if_neg (by omega)).trans (if_pos hb)

/-- A sample word that exists is written, idle. -/
theorem writeTarget_sample {s : State} (hb : s.busy = false) (v : Word) {c : Lane} {i : Nat} (hi : i < Config.bufLen) :
    s.writeTarget v (.sample c i) = s.bufWrite c i v :=
  (if_neg (by omega)).trans (if_neg (by simp [hb]))

/-- A busy write of a sample word is dropped and reported. -/
theorem writeTarget_sample_busy {s : State} (hb : s.busy = true) (v : Word) {c : Lane} {i : Nat}
    (hi : i < Config.bufLen) : s.writeTarget v (.sample c i) = s.report .accessBusy :=
  (if_neg (by omega)).trans (if_pos hb)

/-! ### Acceptance (R180) -/

/-- A rejection has a cause (R180). -/
theorem rejects_ne_none {s : State} {cmd : Command} {e : Cause} (h : s.rejects cmd = some e) : e ≠ .none := by
  rintro rfl
  unfold State.rejects at h
  cases cmd with
  | nop | reset => cases h
  | prepare len =>
    simp only at h
    split at h
    · cases h
    · split at h <;> cases h
  | updateAndProcess len =>
    simp only at h
    split at h
    · cases h
    · split at h <;> cases h

/-- A word presented at `CMD` is reported with a cause or accepted, nothing else (R180). -/
theorem present_cases (s : State) (w : Word) :
    (∃ e, e ≠ .none ∧ s.present w = s.report e) ∨
    (s.busy = false ∧ ∃ cmd, matchRow w = some cmd ∧ s.rejects cmd = none ∧ s.present w = s.accept w cmd) := by
  unfold State.present
  cases s.busy with
  | true => exact .inl ⟨.cmdBusy, by decide, rfl⟩
  | false =>
    cases hm : matchRow w with
    | none => exact .inl ⟨.illegalCmd, by decide, rfl⟩
    | some cmd =>
      cases hr : s.rejects cmd with
      | some e => exact .inl ⟨e, rejects_ne_none hr, by simp [hr]⟩
      | none => exact .inr ⟨rfl, cmd, rfl, hr, by simp [hr]⟩

/-- What every write leaves (R65 to R68). -/
theorem writeTarget_cases (s : State) (v : Word) (x : Target) :
    s.writeTarget v x = s ∨ (x = .cmd ∧ s.writeTarget v x = s.present v) ∨
    (x = .status ∧ s.writeTarget v x = s.writeStatus v) ∨ (x = .fsArg ∧ s.writeTarget v x = { s with fsArg := v }) ∨
    (∃ i, x = .param i ∧ s.writeTarget v x = { s with param := s.param.set i v }) ∨
    (∃ c i, x = .sample c i ∧ i < Config.bufLen ∧ s.busy = true ∧ s.writeTarget v x = s.report .accessBusy) ∨
    (∃ c i, x = .sample c i ∧ i < Config.bufLen ∧ s.busy = false ∧ s.writeTarget v x = s.bufWrite c i v) := by
  cases x with
  | sample c i =>
    simp only [State.writeTarget]
    by_cases hi : Config.bufLen ≤ i
    · exact .inl (if_pos hi)
    · rw [if_neg hi]
      cases hb : s.busy with
      | true => exact .inr (.inr (.inr (.inr (.inr (.inl ⟨c, i, rfl, by omega, rfl, by simp⟩)))))
      | false => exact .inr (.inr (.inr (.inr (.inr (.inr ⟨c, i, rfl, by omega, rfl, by simp⟩)))))
  | cmd => exact .inr (.inl ⟨rfl, rfl⟩)
  | status => exact .inr (.inr (.inl ⟨rfl, rfl⟩))
  | fsArg => exact .inr (.inr (.inr (.inl ⟨rfl, rfl⟩)))
  | param i => exact .inr (.inr (.inr (.inr (.inl ⟨i, rfl, rfl⟩))))
  | id | version | errCause | fs | maxBlk | stageView | viewGap | reserved => exact .inl rfl

/-- A host write of `STATUS`, field by field (10_state.md R23). -/
theorem writeStatus_eq (s : State) (v : Word) :
    s.writeStatus v =
      { s with
        done := s.done && !v.getLsbD 2
        err := s.err && !v.getLsbD 3
        errCause := if v.getLsbD 3 then .none else s.errCause } := by
  unfold State.writeStatus
  cases v.getLsbD 2 <;> cases v.getLsbD 3 <;> simp [State.acknowledgeDone, State.acknowledgeErr]

end Sys2Proof.Machine
end

