-- ==== Sys2Proof/Laws/Stage.lean ====
section
/-! SUPPORT. The laws of the stage register file and of one stage's processing. -/
namespace Sys2Proof.Machine

/-- A stage read after a stage written. -/
theorem State.stage_setStage (s : State) (c c' : Lane) (j j' : StageIdx) (st : Stage) :
    (s.setStage c j st).stage c' j' = if c' = c ∧ j' = j then st else s.stage c' j' := by
  unfold State.stage State.setStage
  by_cases hc : c' = c
  · subst hc
    by_cases hj : j' = j
    · subst hj; simp
    · have : j.val ≠ j'.val := fun e => hj (Fin.ext e.symm)
      simp [hj, this]
  · have : c.val ≠ c'.val := fun e => hc (Fin.ext e.symm)
    simp [hc, this]

theorem State.stage_setCoeffs (s : State) (c c' : Lane) (j j' : StageIdx) (set : CoeffSet) :
    (s.setCoeffs c j set).stage c' j' =
      if c' = c ∧ j' = j then { s.stage c j with coeffs := set } else s.stage c' j' :=
  s.stage_setStage ..

theorem State.stage_setBypass (s : State) (c c' : Lane) (j j' : StageIdx) (b : Bool) :
    (s.setBypass c j b).stage c' j' =
      if c' = c ∧ j' = j then { s.stage c j with bypass := b } else s.stage c' j' :=
  s.stage_setStage ..

theorem State.stage_clearStage (s : State) (c c' : Lane) (j j' : StageIdx) :
    (s.clearStage c j).stage c' j' = if c' = c ∧ j' = j then Stage.reset else s.stage c' j' :=
  s.stage_setStage ..

/-- Two register files with the same stages are the same. -/
theorem State.lanes_ext {s t : State} (h : ∀ c j, t.stage c j = s.stage c j) : t.lanes = s.lanes := by
  apply Vector.ext
  intro c hc
  apply Vector.ext
  intro j hj
  exact h ⟨c, hc⟩ ⟨j, hj⟩

/-- `t` is `s` but for the stage register file. -/
def OnlyLanes (s t : State) : Prop := t = { s with lanes := t.lanes }

theorem OnlyLanes.refl (s : State) : OnlyLanes s s := rfl

theorem OnlyLanes.trans {s t u : State} (h : OnlyLanes s t) (h' : OnlyLanes t u) : OnlyLanes s u := by
  unfold OnlyLanes at *; rw [h', h]

theorem State.onlyLanes_setCoeffs (s : State) (c : Lane) (j : StageIdx) (set : CoeffSet) :
    OnlyLanes s (s.setCoeffs c j set) := rfl

theorem State.onlyLanes_setBypass (s : State) (c : Lane) (j : StageIdx) (b : Bool) :
    OnlyLanes s (s.setBypass c j b) := rfl

theorem State.onlyLanes_clearStage (s : State) (c : Lane) (j : StageIdx) : OnlyLanes s (s.clearStage c j) := rfl

/-- `t` is `s` but for the stage register file and the draws of NaN patterns: what processing a sample may change. -/
def OnlyFilterState (s t : State) : Prop := t = { s with lanes := t.lanes, nanDraws := t.nanDraws }

theorem OnlyFilterState.refl (s : State) : OnlyFilterState s s := rfl

theorem OnlyFilterState.trans {s t u : State} (h : OnlyFilterState s t) (h' : OnlyFilterState t u) :
    OnlyFilterState s u := by
  unfold OnlyFilterState at *; rw [h', h]

/-- A stage's own processing keeps its coefficients. -/
@[simp] theorem Stage.active_coeffs (n : Nat) (st : Stage) (x : F32) : (st.active n x).2.coeffs = st.coeffs := rfl

/-- A stage's own processing keeps its bypass flag. -/
@[simp] theorem Stage.active_bypass (n : Nat) (st : Stage) (x : F32) : (st.active n x).2.bypass = st.bypass := rfl

/-- A bypassed stage is the identity (41_biquad_stage.md R147). -/
theorem stageProcess_bypassed {s : State} {c : Lane} {j : StageIdx} (h : (s.stage c j).bypass = true) (x : F32) :
    stageProcess c j x s = (x, s) := by
  simp [stageProcess, h]

/-- An active stage answers its own processing and takes nine draws (R143). -/
theorem stageProcess_active {s : State} {c : Lane} {j : StageIdx} (h : (s.stage c j).bypass = false) (x : F32) :
    stageProcess c j x s =
      (((s.stage c j).active s.nanDraws x).1,
        { s.setStage c j ((s.stage c j).active s.nanDraws x).2 with nanDraws := s.nanDraws + 9 }) := by
  simp [stageProcess, h]

/-- Processing a sample changes nothing but the filter state. -/
theorem stageProcess_frame (c : Lane) (j : StageIdx) (x : F32) (s : State) :
    OnlyFilterState s (stageProcess c j x s).2 := by
  unfold stageProcess
  split
  · exact .refl s
  · rfl

/-- What one stage's processing leaves of every stage: its coefficients and flag, and every other stage whole. -/
theorem stageProcess_stage (c : Lane) (j : StageIdx) (x : F32) (s : State) (c' : Lane) (j' : StageIdx) :
    ((stageProcess c j x s).2.stage c' j').coeffs = (s.stage c' j').coeffs ∧
    ((stageProcess c j x s).2.stage c' j').bypass = (s.stage c' j').bypass ∧
    (¬(c' = c ∧ j' = j) → (stageProcess c j x s).2.stage c' j' = s.stage c' j') := by
  cases h : (s.stage c j).bypass with
  | true => simp [stageProcess_bypassed h]
  | false =>
    rw [stageProcess_active h]
    have e : ∀ n, ({ s.setStage c j ((s.stage c j).active s.nanDraws x).2 with nanDraws := n } : State).stage c' j' =
        if c' = c ∧ j' = j then ((s.stage c j).active s.nanDraws x).2 else s.stage c' j' :=
      fun _ => s.stage_setStage ..
    rw [e]
    split
    · rename_i hcj; obtain ⟨rfl, rfl⟩ := hcj; simp
    · simp

end Sys2Proof.Machine
end

