-- ==== Sys2Proof/Laws/Chain.lean ====
section
/-! SUPPORT. The laws of order selection and of sample processing by chains and lanes (42_cut_chain.md). -/
namespace Sys2Proof.Machine

/-- Two slots of a chain are the same stage only when they are the same slot. -/
@[simp] theorem slotStage_inj (ch : Chain) (i i' : Slot) : slotStage ch i = slotStage ch i' ↔ i = i' := by
  cases ch <;> simp [slotStage, Fin.ext_iff]

/-- A stage of no slot of the chain. -/
def OutsideChain (ch : Chain) (j : StageIdx) : Prop := ∀ i, j ≠ slotStage ch i

theorem peakStage_outside (ch : Chain) : OutsideChain ch peakStage := by
  cases ch <;> intro i <;> simp only [slotStage, peakStage, ne_eq, Fin.ext_iff] <;> omega

/-! ### Order selection -/

theorem bypassChain_onlyLanes (c : Lane) (ch : Chain) (s : State) : OnlyLanes s (bypassChain c ch s) := rfl

/-- After step 1 a slot is bypassed and nothing else of it has changed (R160). -/
theorem bypassChain_slot (c : Lane) (ch : Chain) (i : Slot) (s : State) :
    (bypassChain c ch s).stage c (slotStage ch i) = { s.stage c (slotStage ch i) with bypass := true } := by
  simp only [bypassChain, slots, List.foldl_cons, List.foldl_nil, State.stage_setBypass, true_and, slotStage_inj]
  fin_cases i <;> simp

/-- Step 1 touches no other stage (R160). -/
theorem bypassChain_other (c : Lane) (ch : Chain) (s : State) {c' : Lane} {j : StageIdx}
    (h : c' ≠ c ∨ OutsideChain ch j) : (bypassChain c ch s).stage c' j = s.stage c' j := by
  have hn : ∀ i, ¬(c' = c ∧ j = slotStage ch i) := fun i ⟨hc, hj⟩ => h.elim (· hc) (· i hj)
  simp [bypassChain, slots, State.stage_setBypass, hn]

/-- The stages of a list of slots take a set each and leave bypass. -/
theorem activateSlots_onlyLanes (c : Lane) (ch : Chain) (sets : List CoeffSet) (s : State) :
    OnlyLanes s (activateSlots c ch sets s) := by
  unfold activateSlots
  generalize slots.zip sets = l
  induction l generalizing s with
  | nil => exact .refl s
  | cons p l ih =>
    exact ((s.onlyLanes_setCoeffs c (slotStage ch p.1) p.2).trans (State.onlyLanes_setBypass ..)).trans (ih _)

theorem activateSlots_other (c : Lane) (ch : Chain) (sets : List CoeffSet) (s : State) {c' : Lane} {j : StageIdx}
    (h : c' ≠ c ∨ OutsideChain ch j) : (activateSlots c ch sets s).stage c' j = s.stage c' j := by
  have hn : ∀ i, ¬(c' = c ∧ j = slotStage ch i) := fun i ⟨hc, hj⟩ => h.elim (· hc) (· i hj)
  unfold activateSlots
  generalize slots.zip sets = l
  induction l generalizing s with
  | nil => rfl
  | cons p l ih => rw [List.foldl_cons, ih]; simp [State.stage_setBypass, State.stage_setCoeffs, hn]

/-- After step 2 a slot that has a set holds it and is active; another slot is as before (R160). -/
theorem activateSlots_slot (c : Lane) (ch : Chain) (sets : List CoeffSet) (i : Slot) (s : State) :
    (activateSlots c ch sets s).stage c (slotStage ch i) =
      match sets[i.val]? with
      | some set => { s.stage c (slotStage ch i) with coeffs := set, bypass := false }
      | none => s.stage c (slotStage ch i) := by
  unfold activateSlots
  rcases sets with _ | ⟨a, _ | ⟨b, _ | ⟨d, _ | ⟨e, r⟩⟩⟩⟩ <;> fin_cases i <;>
    simp [slots, State.stage_setBypass, State.stage_setCoeffs]

theorem applyOrder_onlyLanes (c : Lane) (ch : Chain) (k : Nat) (seq : List CoeffSet) (s : State) :
    OnlyLanes s (applyOrder c ch k seq s) :=
  (bypassChain_onlyLanes c ch s).trans (activateSlots_onlyLanes ..)

/-- Order selection touches no stage outside its chain (R160). -/
theorem applyOrder_other (c : Lane) (ch : Chain) (k : Nat) (seq : List CoeffSet) (s : State) {c' : Lane} {j : StageIdx}
    (h : c' ≠ c ∨ OutsideChain ch j) : (applyOrder c ch k seq s).stage c' j = s.stage c' j := by
  unfold applyOrder
  rw [activateSlots_other _ _ _ _ h, bypassChain_other _ _ _ h]

/-- What order selection makes of a slot, whatever it was: active with its entry of the sequence, or bypassed; its state
stays (R160, R162). -/
theorem applyOrder_slot (c : Lane) (ch : Chain) (k : Nat) (seq : List CoeffSet) (i : Slot) (s : State) :
    (applyOrder c ch k seq s).stage c (slotStage ch i) =
      match (seq.take (k + 1))[i.val]? with
      | some set => { s.stage c (slotStage ch i) with coeffs := set, bypass := false }
      | none => { s.stage c (slotStage ch i) with bypass := true } := by
  unfold applyOrder
  rw [activateSlots_slot, bypassChain_slot]

/-! ### Sample processing -/

/-- What processing keeps of every stage, and what lane it is confined to. -/
def KeepsShape (c : Lane) (s t : State) : Prop :=
  OnlyFilterState s t ∧
  (∀ c' j, (t.stage c' j).coeffs = (s.stage c' j).coeffs ∧ (t.stage c' j).bypass = (s.stage c' j).bypass) ∧
  (∀ c' j, c' ≠ c → t.stage c' j = s.stage c' j)

theorem KeepsShape.refl (c : Lane) (s : State) : KeepsShape c s s :=
  ⟨.refl s, fun _ _ => ⟨rfl, rfl⟩, fun _ _ _ => rfl⟩

theorem KeepsShape.trans {c : Lane} {s t u : State} (h : KeepsShape c s t) (h' : KeepsShape c t u) :
    KeepsShape c s u :=
  ⟨h.1.trans h'.1, fun c' j => ⟨(h'.2.1 c' j).1.trans (h.2.1 c' j).1, (h'.2.1 c' j).2.trans (h.2.1 c' j).2⟩,
    fun c' j hc => (h'.2.2 c' j hc).trans (h.2.2 c' j hc)⟩

theorem stageProcess_keepsShape (c : Lane) (j : StageIdx) (x : F32) (s : State) :
    KeepsShape c s (stageProcess c j x s).2 :=
  ⟨stageProcess_frame c j x s, fun c' j' => ⟨(stageProcess_stage c j x s c' j').1, (stageProcess_stage c j x s c' j').2.1⟩,
    fun c' j' hc => (stageProcess_stage c j x s c' j').2.2 fun h => hc h.1⟩

theorem chainProcess_keepsShape (c : Lane) (ch : Chain) (x : F32) (s : State) :
    KeepsShape c s (chainProcess c ch x s).2 := by
  have fold : ∀ (l : List Slot) (r : F32 × State), KeepsShape c s r.2 →
      KeepsShape c s (l.foldl (fun r i => stageProcess c (slotStage ch i) r.1 r.2) r).2 := by
    intro l
    induction l with
    | nil => exact fun _ h => h
    | cons i l ih => exact fun r h => ih _ (h.trans (stageProcess_keepsShape ..))
  exact fold slots (x, s) (.refl c s)

/-- A lane's sample passes that lane's stages and touches nothing else (R165). -/
theorem monoProcess_keepsShape (c : Lane) (x : F32) (s : State) : KeepsShape c s (monoProcess c x s).2 :=
  ((chainProcess_keepsShape c .low x s).trans (stageProcess_keepsShape ..)).trans (chainProcess_keepsShape ..)

/-- A chain whose slots are all bypassed is the identity (R164). -/
theorem chainProcess_bypassed {c : Lane} {ch : Chain} {s : State} (h : ∀ i, (s.stage c (slotStage ch i)).bypass = true)
    (x : F32) : chainProcess c ch x s = (x, s) := by
  simp [chainProcess, slots, stageProcess_bypassed (h _)]

/-- A lane whose stages are all bypassed is the identity (R165). -/
theorem monoProcess_bypassed {c : Lane} {s : State} (h : ∀ j, (s.stage c j).bypass = true) (x : F32) :
    monoProcess c x s = (x, s) := by
  simp [monoProcess, chainProcess_bypassed (fun i => h (slotStage _ i)), stageProcess_bypassed (h peakStage)]

end Sys2Proof.Machine
end

