-- ==== Sys2Proof/Laws/Stereo.lean ====
section
/-! SUPPORT. The laws of the update protocol, of block processing and of the chain reset (43_stereo_processor.md,
70_reset_and_hazards.md R251). -/
namespace Sys2Proof.Machine

/-- A stage is a slot of the low-cut chain, the peak stage, or a slot of the high-cut chain (10_state.md R31). -/
theorem stage_cases (j : StageIdx) : (∃ i, j = slotStage .low i) ∨ j = peakStage ∨ (∃ i, j = slotStage .high i) := by
  revert j; decide

theorem slotStage_low_outside_high (i : Slot) : OutsideChain .high (slotStage .low i) := by
  revert i; unfold OutsideChain; decide

theorem slotStage_high_outside_low (i : Slot) : OutsideChain .low (slotStage .high i) := by
  revert i; unfold OutsideChain; decide

/-! ### The order code -/

/-- A value that is above zero and below three `u`s is cut to at most two of them. -/
theorem div_le_two_of_order {f : Fmt} {u : Nat} (hu : 0 < u) {v : Val} (h0 : v.le f (.fin false 0) = false)
    (h3 : Val.le f (.fin false (3 * u)) v = false) : (match v with | .fin _ m => m / u | _ => 0) ≤ 2 := by
  cases v with
  | nan => simp
  | inf s => simp
  | fin s m =>
    cases s with
    | true => simp [Val.le, Val.order] at h0
    | false =>
      have h3' : decide (((3 * u : Nat) : Int) ≤ (m : Int)) = false := by simpa [Val.le, Val.order] using h3
      have : m < 3 * u := by exact_mod_cast not_le.1 (of_decide_eq_false h3')
      exact Nat.lt_succ_iff.1 ((Nat.div_lt_iff_lt_mul hu).2 this)

theorem val64_three : val64 0x4008000000000000#64 = .fin false (3 * 2 ^ Fmt.b64.unit) := by decide +kernel

theorem truncNat_le_two {v : F64} (h0 : le64 v 0#64 = false) (h3 : le64 0x4008000000000000#64 v = false) :
    truncNat v ≤ 2 := by
  have e0 : val64 0#64 = .fin false 0 := by decide
  have e3 := val64_three
  have hu := Nat.two_pow_pos Fmt.b64.unit
  unfold truncNat
  unfold le64 at h0 h3
  generalize 2 ^ Fmt.b64.unit = u at *
  rw [e0] at h0
  rw [e3] at h3
  exact div_le_two_of_order hu h0 h3

/-- The slope conversion gives an order code 0..3 for every pattern (40_coeff_factory.md R117). -/
theorem convSlope_le_three (v : F32) : convSlope v ≤ 3 := by
  unfold convSlope
  split
  · omega
  · split
    · omega
    · split
      · omega
      · rename_i h0 h3
        exact (truncNat_le_two (Bool.eq_false_iff.2 h0) (Bool.eq_false_iff.2 h3)).trans (by omega)

/-- The quality table has one entry for each section of an order code 0..3 (40_coeff_factory.md R121). -/
theorem qRom_length {k : Nat} (h : k ≤ 3) : (qRom k).length = k + 1 := by
  interval_cases k <;> rfl

/-- A cut design has one section for each active slot (R124, R125). -/
theorem cutSequence_length (kind : SectionKind) (f : F64) {k : Nat} (h : k ≤ 3) (fsd : F64) :
    (cutSequence kind f k fsd).length = k + 1 := by
  simp [cutSequence, qRom_length h]

/-! ### The update -/

theorem updateCut_onlyLanes (kL : Nat) (lowSeq : List CoeffSet) (kH : Nat) (highSeq : List CoeffSet) (s : State) :
    OnlyLanes s (updateCut kL lowSeq kH highSeq s) :=
  ((applyOrder_onlyLanes ..).trans (applyOrder_onlyLanes ..)).trans
    ((applyOrder_onlyLanes ..).trans (applyOrder_onlyLanes ..))

theorem updatePeak_onlyLanes (set : CoeffSet) (s : State) : OnlyLanes s (updatePeak set s) :=
  ((s.onlyLanes_setCoeffs ..).trans (State.onlyLanes_setBypass ..)).trans
    ((State.onlyLanes_setCoeffs ..).trans (State.onlyLanes_setBypass ..))

/-- What the cut update makes of a low-cut slot of either lane (R184). -/
theorem updateCut_low (kL : Nat) (lowSeq : List CoeffSet) (kH : Nat) (highSeq : List CoeffSet) (s : State) (c : Lane)
    (i : Slot) :
    (updateCut kL lowSeq kH highSeq s).stage c (slotStage .low i) =
      match (lowSeq.take (kL + 1))[i.val]? with
      | some set => { s.stage c (slotStage .low i) with coeffs := set, bypass := false }
      | none => { s.stage c (slotStage .low i) with bypass := true } := by
  have ho := slotStage_low_outside_high i
  simp only [updateCut, updateCutLane]
  rw [applyOrder_other _ _ _ _ _ (.inr ho)]
  fin_cases c
  · rw [applyOrder_other _ _ _ _ _ (.inl (by decide)), applyOrder_other _ _ _ _ _ (.inr ho)]
    exact applyOrder_slot ..
  · refine (applyOrder_slot ..).trans ?_
    rw [applyOrder_other _ _ _ _ _ (.inl (by decide)), applyOrder_other _ _ _ _ _ (.inl (by decide))]
    rfl

/-- What the cut update makes of a high-cut slot of either lane (R184). -/
theorem updateCut_high (kL : Nat) (lowSeq : List CoeffSet) (kH : Nat) (highSeq : List CoeffSet) (s : State) (c : Lane)
    (i : Slot) :
    (updateCut kL lowSeq kH highSeq s).stage c (slotStage .high i) =
      match (highSeq.take (kH + 1))[i.val]? with
      | some set => { s.stage c (slotStage .high i) with coeffs := set, bypass := false }
      | none => { s.stage c (slotStage .high i) with bypass := true } := by
  have ho := slotStage_high_outside_low i
  simp only [updateCut, updateCutLane]
  fin_cases c
  · rw [applyOrder_other _ _ _ _ _ (.inl (by decide)), applyOrder_other _ _ _ _ _ (.inl (by decide))]
    exact (applyOrder_slot ..).trans (by rw [applyOrder_other _ _ _ _ _ (.inr ho)]; rfl)
  · refine (applyOrder_slot ..).trans ?_
    rw [applyOrder_other _ _ _ _ _ (.inr ho), applyOrder_other _ _ _ _ _ (.inl (by decide)),
      applyOrder_other _ _ _ _ _ (.inl (by decide))]
    rfl

/-- The cut update leaves the peak stages alone (R184). -/
theorem updateCut_peak (kL : Nat) (lowSeq : List CoeffSet) (kH : Nat) (highSeq : List CoeffSet) (s : State) (c : Lane) :
    (updateCut kL lowSeq kH highSeq s).stage c peakStage = s.stage c peakStage := by
  simp only [updateCut, updateCutLane]
  repeat rw [applyOrder_other _ _ _ _ _ (.inr (peakStage_outside _))]

/-- What the peak update makes of every stage (R185). -/
theorem updatePeak_stage (set : CoeffSet) (s : State) (c : Lane) (j : StageIdx) :
    (updatePeak set s).stage c j =
      if j = peakStage then { s.stage c j with coeffs := set, bypass := false } else s.stage c j := by
  by_cases hj : j = peakStage
  · subst hj
    fin_cases c <;> simp [updatePeak, updatePeakLane, State.stage_setBypass, State.stage_setCoeffs]
  · simp [updatePeak, updatePeakLane, State.stage_setBypass, State.stage_setCoeffs, hj]

/-- The update as its steps (R186). -/
theorem update_eq (s : State) :
    update s =
      updatePeak
        (designPeak (convertSnapshot s.snap (widen s.fs)).peakF (convertSnapshot s.snap (widen s.fs)).gainDb
          (convertSnapshot s.snap (widen s.fs)).q (widen s.fs))
        (updateCut (convertSnapshot s.snap (widen s.fs)).kL
          (designLowcut (convertSnapshot s.snap (widen s.fs)).lowF (convertSnapshot s.snap (widen s.fs)).kL (widen s.fs))
          (convertSnapshot s.snap (widen s.fs)).kH
          (designHighcut (convertSnapshot s.snap (widen s.fs)).highF (convertSnapshot s.snap (widen s.fs)).kH (widen s.fs))
          s) := by
  simp only [update]

theorem update_onlyLanes (s : State) : OnlyLanes s (update s) :=
  (updateCut_onlyLanes ..).trans (updatePeak_onlyLanes ..)

/-- The update keeps the filter state of every stage (R186). -/
theorem update_keepsState (s : State) (c : Lane) (j : StageIdx) :
    ((update s).stage c j).s1 = (s.stage c j).s1 ∧ ((update s).stage c j).s2 = (s.stage c j).s2 := by
  unfold update
  simp only [updatePeak_stage]
  rcases stage_cases j with ⟨i, rfl⟩ | rfl | ⟨i, rfl⟩
  · have : slotStage .low i ≠ peakStage := fun h => peakStage_outside .low i h.symm
    simp only [this, if_false, updateCut_low]
    split <;> exact ⟨rfl, rfl⟩
  · simp only [if_true, updateCut_peak, and_self]
  · have : slotStage .high i ≠ peakStage := fun h => peakStage_outside .high i h.symm
    simp only [this, if_false, updateCut_high]
    split <;> exact ⟨rfl, rfl⟩

/-- After the update a stage is active exactly where the order codes say, or is the peak stage (R186). -/
theorem update_lanesAgree (s : State) (h : ∀ j, (s.stage 0 j).coeffs = (s.stage 1 j).coeffs) (j : StageIdx) :
    ((update s).stage 0 j).coeffs = ((update s).stage 1 j).coeffs ∧
    ((update s).stage 0 j).bypass = ((update s).stage 1 j).bypass := by
  unfold update
  simp only [updatePeak_stage]
  rcases stage_cases j with ⟨i, rfl⟩ | rfl | ⟨i, rfl⟩
  · have : slotStage .low i ≠ peakStage := fun h => peakStage_outside .low i h.symm
    simp only [this, if_false, updateCut_low]
    split <;> simp [h]
  · simp
  · have : slotStage .high i ≠ peakStage := fun h => peakStage_outside .high i h.symm
    simp only [this, if_false, updateCut_high]
    split <;> simp [h]

/-! ### The chain reset -/

theorem clearStages_onlyLanes (c : Lane) (js : List StageIdx) (s : State) :
    OnlyLanes s (js.foldl (fun s j => s.clearStage c j) s) := by
  induction js generalizing s with
  | nil => exact .refl s
  | cons j js ih => exact (s.onlyLanes_clearStage c j).trans (ih _)

/-- Clearing a list of stages of a lane. -/
theorem clearStages_stage (c : Lane) (js : List StageIdx) (s : State) (c' : Lane) (j' : StageIdx) :
    (js.foldl (fun s j => s.clearStage c j) s).stage c' j' =
      if c' = c ∧ j' ∈ js then Stage.reset else s.stage c' j' := by
  induction js generalizing s with
  | nil => simp
  | cons j js ih =>
    rw [List.foldl_cons, ih, State.stage_clearStage]
    by_cases hc : c' = c <;> by_cases hj : j' = j <;> simp [hc, hj]

theorem mem_stages (j : StageIdx) : j ∈ stages := by
  revert j; decide

theorem chainsReset_onlyLanes (s : State) : OnlyLanes s (chainsReset s) :=
  (clearStages_onlyLanes 0 stages s).trans (clearStages_onlyLanes 1 stages _)

/-- After the chain reset every stage has its power-on value (R251). -/
theorem chainsReset_stage (s : State) (c : Lane) (j : StageIdx) : (chainsReset s).stage c j = Stage.reset := by
  rw [chainsReset, clearLane, clearStages_stage, clearLane, clearStages_stage]
  fin_cases c <;> simp [mem_stages]

/-! ### Block processing -/

/-- What processing samples of lane `c` may change: the filter state of that lane, the draws, and the buffer. -/
structure LaneFrame (c : Lane) (s t : State) : Prop where
  only : t = { s with lanes := t.lanes, nanDraws := t.nanDraws, mem := t.mem }
  shape : ∀ c' j, (t.stage c' j).coeffs = (s.stage c' j).coeffs ∧ (t.stage c' j).bypass = (s.stage c' j).bypass
  other : ∀ c' j, c' ≠ c → t.stage c' j = s.stage c' j
  wf : s.mem.wf → t.mem.wf

theorem LaneFrame.refl (c : Lane) (s : State) : LaneFrame c s s :=
  ⟨rfl, fun _ _ => ⟨rfl, rfl⟩, fun _ _ _ => rfl, id⟩

theorem LaneFrame.trans {c : Lane} {s t u : State} (h : LaneFrame c s t) (h' : LaneFrame c t u) : LaneFrame c s u where
  only := by rw [h'.only, h.only]
  shape c' j := ⟨(h'.shape c' j).1.trans (h.shape c' j).1, (h'.shape c' j).2.trans (h.shape c' j).2⟩
  other c' j hc := (h'.other c' j hc).trans (h.other c' j hc)
  wf hw := h'.wf (h.wf hw)

theorem monoProcess_mem (c : Lane) (x : F32) (s : State) : (monoProcess c x s).2.mem = s.mem := by
  rw [(monoProcess_keepsShape c x s).1]

theorem processSample_mem (c : Lane) (i : Nat) (x : F32) (s : State) :
    (processSample c i x s).mem = s.mem.writeWord (bufOffset c i) (monoProcess c x s).1 := by
  simp [processSample, monoProcess_mem]

theorem processSample_frame (c : Lane) (i : Nat) (x : F32) (s : State) : LaneFrame c s (processSample c i x s) := by
  have h := monoProcess_keepsShape c x s
  have hm := processSample_mem c i x s
  unfold processSample at *
  generalize monoProcess c x s = r at *
  obtain ⟨y, t⟩ := r
  obtain ⟨h1, h2, h3⟩ := h
  refine ⟨?_, h2, h3, fun hw => ?_⟩
  · unfold OnlyFilterState at h1
    simp only [State.bufWrite] at *
    rw [h1]
  · rw [hm]; exact Memory.writeWord_wf hw _ _

/-- A block of `n + 1` samples is one sample and then `n` (R187), unless the word holds no value (R189). -/
theorem blockLane_succ (c : Lane) (n i : Nat) (s : State) :
    blockLane c (n + 1) i s =
      match s.bufRead c i with
      | none => .error (.unwrittenSample c i)
      | some x => blockLane c n (i + 1) (processSample c i x s) := by
  show (match s.bufRead c i with | none => _ | some x => _) = _
  cases s.bufRead c i <;> rfl

/-- Everything a lane's block can change (R187). -/
theorem blockLane_frame {c : Lane} {n i : Nat} {s t : State} (h : blockLane c n i s = .ok t) : LaneFrame c s t := by
  induction n generalizing i s with
  | zero => cases h; exact .refl c _
  | succ n ih =>
    rw [blockLane_succ] at h
    split at h
    · cases h
    · exact (processSample_frame ..).trans (ih h)

/-- The bytes outside a lane's processed words stay (R71, R187). -/
theorem blockLane_bytes {c : Lane} {n i : Nat} {s t : State} (h : blockLane c n i s = .ok t) {a : Nat}
    (ha : a < bufOffset c i ∨ bufOffset c (i + n) ≤ a) : t.mem.readByte a = s.mem.readByte a := by
  induction n generalizing i s with
  | zero => cases h; rfl
  | succ n ih =>
    rw [blockLane_succ] at h
    split at h
    · cases h
    · have e : i + 1 + n = i + (n + 1) := by omega
      rw [ih h (by rw [e]; unfold bufOffset at *; omega), processSample_mem,
        Memory.readByte_writeWord_outside _ _ _ _ (by unfold bufOffset at *; omega)]

/-- A lane's block stops only at a word without a value (R189). -/
theorem blockLane_error {c : Lane} {n i : Nat} {s : State} {e : Fault} (h : blockLane c n i s = .error e) :
    ∃ k, i ≤ k ∧ k < i + n ∧ e = .unwrittenSample c k := by
  induction n generalizing i s with
  | zero => cases h
  | succ n ih =>
    rw [blockLane_succ] at h
    split at h
    · cases h; exact ⟨i, by omega, by omega, rfl⟩
    · obtain ⟨k, hk, hk', he⟩ := ih h
      exact ⟨k, by omega, by omega, he⟩

/-- A word of a sample processed in place: itself written, every other as before. -/
theorem bufRead_processSample {c : Lane} {i : Nat} {x : F32} {s : State} {c' : Lane} {i' : Nat}
    (h : c' ≠ c ∨ i' ≠ i) (hi : i < Config.bufLen) : (processSample c i x s).bufRead c' i' = s.bufRead c' i' := by
  unfold State.bufRead
  split
  · rename_i hi'
    have hb := bufLen_bounds
    rw [processSample_mem, Memory.readWord_writeWord_other]
    exact (bufOffset_disjoint (by omega) (by omega) (h.imp (·.symm) (·.symm))).symm
  · rfl

/-- A lane's block whose words all hold a value completes (R187). -/
theorem blockLane_completes {c : Lane} {n i : Nat} {s : State}
    (h : ∀ k, i ≤ k → k < i + n → ∃ x, s.bufRead c k = some x) : ∃ t, blockLane c n i s = .ok t := by
  induction n generalizing i s with
  | zero => exact ⟨s, rfl⟩
  | succ n ih =>
    obtain ⟨x, hx⟩ := h i (by omega) (by omega)
    have hi : i < Config.bufLen := by
      by_contra hn
      simp [State.bufRead, hn] at hx
    rw [blockLane_succ, hx]
    refine ih fun k hk hk' => ?_
    rw [bufRead_processSample (.inr (by omega)) hi]
    exact h k (by omega) (by omega)

/-- A lane's block leaves the words of the other lane alone (R188). -/
theorem blockLane_bufRead_other {c : Lane} {n i : Nat} {s t : State} (h : blockLane c n i s = .ok t)
    {c' : Lane} (hc : c' ≠ c) (k : Nat) : t.bufRead c' k = s.bufRead c' k := by
  induction n generalizing i s with
  | zero => cases h; rfl
  | succ n ih =>
    rw [blockLane_succ] at h
    split at h
    · cases h
    · rename_i x hx
      have hi : i < Config.bufLen := by
        by_contra hn
        simp [State.bufRead, hn] at hx
      rw [ih h, bufRead_processSample (.inl hc) hi]

/-- A block of both lanes completes when every one of its words holds a value (R187, R261). -/
theorem blockProcess_completes {n : Nat} {s : State}
    (h : ∀ c k, k < n → ∃ x, s.bufRead c k = some x) : ∃ t, blockProcess n s = .ok t := by
  obtain ⟨t, ht⟩ := blockLane_completes (c := 0) (n := n) (i := 0) fun k _ hk => h 0 k (by omega)
  unfold blockProcess
  rw [ht]
  refine blockLane_completes fun k _ hk => ?_
  rw [blockLane_bufRead_other ht (by decide)]
  exact h 1 k (by omega)

/-- What a block of both lanes changes: the filter state, the draws, the buffer; never a coefficient or a flag. -/
theorem blockProcess_frame {n : Nat} {s t : State} (h : blockProcess n s = .ok t) :
    t = { s with lanes := t.lanes, nanDraws := t.nanDraws, mem := t.mem } ∧
    (∀ c j, (t.stage c j).coeffs = (s.stage c j).coeffs ∧ (t.stage c j).bypass = (s.stage c j).bypass) ∧
    (s.mem.wf → t.mem.wf) := by
  unfold blockProcess at h
  split at h
  · cases h
  · rename_i u hu
    have h1 := blockLane_frame hu
    have h2 := blockLane_frame h
    refine ⟨by rw [h2.only, h1.only], fun c j => ⟨?_, ?_⟩, h2.wf ∘ h1.wf⟩
    · exact (h2.shape c j).1.trans (h1.shape c j).1
    · exact (h2.shape c j).2.trans (h1.shape c j).2

/-- The bytes outside the processed words of both lanes stay (R71). -/
theorem blockProcess_bytes {n : Nat} {s t : State} (h : blockProcess n s = .ok t) {a : Nat}
    (ha : ∀ c, a < bufOffset c 0 ∨ bufOffset c n ≤ a) : t.mem.readByte a = s.mem.readByte a := by
  unfold blockProcess at h
  split at h
  · cases h
  · rename_i u hu
    have h0 := ha 0
    have h1 := ha 1
    rw [blockLane_bytes h (by rwa [Nat.zero_add]),
      blockLane_bytes hu (by rwa [Nat.zero_add])]

/-- A block stops only at a word without a value (R189). -/
theorem blockProcess_error {n : Nat} {s : State} {e : Fault} (h : blockProcess n s = .error e) :
    ∃ c k, k < n ∧ e = .unwrittenSample c k := by
  unfold blockProcess at h
  split at h
  · rename_i e' he
    cases h
    obtain ⟨k, _, hk, rfl⟩ := blockLane_error he
    exact ⟨0, k, by omega, rfl⟩
  · obtain ⟨k, _, hk, rfl⟩ := blockLane_error h
    exact ⟨1, k, by omega, rfl⟩

end Sys2Proof.Machine
end

