-- ==== Sys2Proof/Laws/Step.lean ====
section
/-! SUPPORT. What a step can do, said once: the packet it fetches, the instruction it decodes, the state that is left. -/
namespace Sys2Proof.Machine

/-- A step whose packet decodes executes that instruction. -/
theorem step_of_packet {s t : State} {p : Packet} {i : Instr} (hf : fetch s = .packet p t) (hd : decode p = .ok i) :
    step s = exec i t := by
  simp only [step, hf, hd]

/-- Everything a step that goes on can have been: nothing to do, a power-on reset, or one decoded instruction. -/
theorem step_next {s u : State} (h : step s = .next u) :
    (fetch s = .idle u) ∨ (∃ t, fetch s = .powerOn t ∧ u = t.powerOnReset) ∨
    (∃ p t i, fetch s = .packet p t ∧ decode p = .ok i ∧ exec i t = .next u) := by
  unfold step at h
  split at h
  · cases h; exact .inl ‹_›
  · cases h; exact .inr (.inl ⟨_, ‹_›, rfl⟩)
  · split at h
    · exact .inr (.inr ⟨_, _, _, ‹_›, ‹_›, h⟩)
    · cases h

/-- The engine's turn takes the command in flight. -/
theorem engineTurn_pending {s : State} {p : Pending} (h : s.pending = some p) :
    engineTurn s = .packet (.cmd (commandWord p.opc p.len)) s := by
  simp [engineTurn, h]

/-- With nothing in flight the engine has nothing to do (70_reset_and_hazards.md R263). -/
theorem engineTurn_idle {s : State} (h : s.pending = none) : engineTurn s = .idle s := by
  simp [engineTurn, h]

/-- What `fetch` takes, by the first request. -/
theorem fetch_nil {s : State} (h : s.inbox = []) : fetch s = engineTurn s := by
  simp [fetch, h]

theorem fetch_host {s : State} {ws : List Word} {rest : List Request} (h : s.inbox = .host ws :: rest) :
    fetch s = .packet (.bus ws) { s with inbox := rest } := by
  simp [fetch, h]

theorem fetch_micro {s : State} {ws : List Word} {rest : List Request} (h : s.inbox = .micro ws :: rest) :
    fetch s = .packet (.uop ws) { s with inbox := rest } := by
  simp [fetch, h]

theorem fetch_engine {s : State} {rest : List Request} (h : s.inbox = .engine :: rest) :
    fetch s = engineTurn { s with inbox := rest } := by
  simp [fetch, h]

theorem fetch_powerOn {s : State} {rest : List Request} (h : s.inbox = .powerOn :: rest) :
    fetch s = .powerOn { s with inbox := rest } := by
  simp [fetch, h]

/-- A command with a row decodes to its instruction. -/
theorem decode_cmd {w : Word} {cmd : Command} (h : matchRow w = some cmd) : decode (.cmd w) = .ok cmd.toInstr := by
  simp only [decode, decodeCommand, h]

/-- A transaction decodes to a bus access. -/
theorem decode_bus {ws : List Word} {i : Instr} (h : decode (.bus ws) = .ok i) :
    (∃ a n, i = .memRead a n) ∨ (∃ a n v, i = .memWrite a n v) := by
  cases ws with
  | nil => cases h
  | cons k ws =>
    simp only [decode, bind, Except.bind] at h
    split at h
    · cases h
    · rename_i r hr
      obtain ⟨i', ws'⟩ := r
      have hi : i' = i := by
        simp only [finish] at h
        split at h
        · split at h
          · cases h; rfl
          · cases h
        · cases h
      subst hi
      unfold parseBus at hr
      split at hr
      · simp only [bind, Except.bind] at hr
        repeat' split at hr
        all_goals first
          | (cases hr; exact .inl ⟨_, _, rfl⟩)
          | cases hr
      · simp only [bind, Except.bind] at hr
        repeat' split at hr
        all_goals first
          | (cases hr; exact .inr ⟨_, _, _, rfl⟩)
          | cases hr
      · cases hr

/-! ### The commands while one is pending (43_stereo_processor.md R181) -/

theorem whilePending_some {s : State} {p : Pending} (h : s.pending = some p) (effect : Pending → Result) :
    whilePending s effect = effect p := by
  simp [whilePending, h]

theorem execNop_pending {s : State} {p : Pending} (h : s.pending = some p) : execNop s = .next s.complete :=
  whilePending_some h _

theorem execPrepare_pending {s : State} {p : Pending} (h : s.pending = some p) (len : BitVec 16) :
    execPrepare len s = .next (s.prepareEffect len p.fsLatched).complete :=
  whilePending_some h _

theorem execReset_pending {s : State} {p : Pending} (h : s.pending = some p) :
    execReset s = .next (chainsReset s).complete :=
  whilePending_some h _

/-- `UPDATE_AND_PROCESS` in flight: the update, the block, the end (R203). -/
theorem execUpdateAndProcess_pending {s : State} {p : Pending} (h : s.pending = some p) (len : BitVec 16) :
    execUpdateAndProcess len s =
      match blockProcess len.toNat (update s) with
      | .ok t => .next t.complete
      | .error e => .fault e := by
  unfold execUpdateAndProcess
  rw [whilePending_some h]
  split
  · rename_i h0; subst h0; rfl
  · rfl

end Sys2Proof.Machine

/-! ### Runs -/

namespace Sys2Proof

open Machine

/-- A run whose first step goes on is the run from there. -/
theorem run_succ_next {s t : State} (h : step s = .next t) (n : Nat) : run (n + 1) s = run n t := by
  simp only [run, h]

/-- `run` is the host's `core.run`. -/
theorem run_eq_core (n : Nat) (s : State) : run n s = core.run n s := by
  induction n generalizing s with
  | zero => rfl
  | succ n ih =>
    show _ = Host.Core.run core (n + 1) s
    unfold run
    cases h : step s with
    | next t =>
      have h' : core.step s = .next t := h
      simp only [Host.Core.run, h', ih]
    | fault e =>
      have h' : core.step s = .fault e := h
      simp only [Host.Core.run, h']
      rfl
    | refused e =>
      have h' : core.step s = .refused e := h
      simp only [Host.Core.run, h']
      rfl

end Sys2Proof
end

