-- ==== Sys2Proof/Laws/Exec.lean ====
section
/-! SUPPORT. What executing an instruction can do, said once for all of them. -/
namespace Sys2Proof.Machine

/-- An aligned read inside the window is the read of its target. -/
theorem exec_memRead {a : Word} (ha : a.toNat % 4 = 0) (hw : a.toNat < windowSize) (s : State) :
    exec (.memRead a 4) s = s.readTarget (target a.toNat) :=
  accessing_ok ha hw _

/-- An aligned write inside the window is the write of its target. -/
theorem exec_memWrite {a : Word} (ha : a.toNat % 4 = 0) (hw : a.toNat < windowSize) (v : Word) (s : State) :
    exec (.memWrite a 4 v) s = .next (s.writeTarget v (target a.toNat)) :=
  accessing_ok ha hw fun x => .next (s.writeTarget v x)

/-- The bus offset of a sample word. -/
theorem bufOffset_word (c : Lane) {i : Nat} (hi : i < 16384) :
    (BitVec.ofNat 32 (0x10000 + 0x10000 * c.val + 4 * i)).toNat = bufOffset c i ∧ bufOffset c i % 4 = 0 ∧
      bufOffset c i < windowSize := by
  unfold bufOffset windowSize
  rw [BitVec.toNat_ofNat, Nat.mod_eq_of_lt (by omega)]
  omega

/-- An internal operation on its own leaves everything but stages, draws, buffer and its result. -/
def MicroFrame (s t : State) : Prop :=
  t = { s with lanes := t.lanes, nanDraws := t.nanDraws, mem := t.mem, result := t.result }

theorem MicroFrame.of_onlyLanes {s t : State} (h : OnlyLanes s t) : MicroFrame s t := by
  unfold OnlyLanes at h; unfold MicroFrame; rw [h]

theorem MicroFrame.of_filter {s t : State} (h : OnlyFilterState s t) (r : UopResult) :
    MicroFrame s (t.withResult r) := by
  unfold OnlyFilterState at h; unfold MicroFrame State.withResult; rw [h]

/-- A completed command leaves everything but stages, draws, buffer, rate, block size and the flags of completion. -/
def CompletionFrame (s t : State) : Prop :=
  t = { s with
    lanes := t.lanes
    nanDraws := t.nanDraws
    mem := t.mem
    fs := t.fs
    maxBlk := t.maxBlk
    prepared := t.prepared
    busy := false
    done := true
    pending := none }

/-- A command in flight: what its completion leaves (43_stereo_processor.md R181, R200 to R203). -/
theorem execCommand_pending {cmd : Command} {s t : State} {p : Pending} (hp : s.pending = some p)
    (h : exec cmd.toInstr s = .next t) :
    CompletionFrame s t ∧
    ((cmd = .nop ∧ t = s.complete) ∨ (cmd = .reset ∧ t = (chainsReset s).complete) ∨
      (∃ len, cmd = .prepare len ∧ t = (s.prepareEffect len p.fsLatched).complete) ∨
      (∃ len u, cmd = .updateAndProcess len ∧ blockProcess len.toNat (update s) = .ok u ∧ t = u.complete)) := by
  cases cmd with
  | nop =>
    have h' := (execNop_pending hp).symm.trans h
    cases h'
    exact ⟨rfl, .inl ⟨rfl, rfl⟩⟩
  | reset =>
    have h' := (execReset_pending hp).symm.trans h
    cases h'
    refine ⟨?_, .inr (.inl ⟨rfl, rfl⟩)⟩
    have hc := chainsReset_onlyLanes s
    unfold OnlyLanes at hc
    unfold CompletionFrame
    rw [hc]; rfl
  | prepare len =>
    have h' := (execPrepare_pending hp len).symm.trans h
    cases h'
    refine ⟨?_, .inr (.inr (.inl ⟨len, rfl, rfl⟩))⟩
    have hc := chainsReset_onlyLanes s
    unfold OnlyLanes at hc
    unfold CompletionFrame State.prepareEffect
    rw [hc]; rfl
  | updateAndProcess len =>
    have h' := (execUpdateAndProcess_pending hp len).symm.trans h
    split at h'
    · rename_i u hu
      cases h'
      refine ⟨?_, .inr (.inr (.inr ⟨len, u, rfl, hu, rfl⟩))⟩
      have hb := (blockProcess_frame hu).1
      have hc := update_onlyLanes s
      unfold OnlyLanes at hc
      unfold CompletionFrame
      rw [hb, hc]; rfl
    · cases h'

/-- A command with none in flight changes nothing (70_reset_and_hazards.md R263). -/
theorem execCommand_idle {cmd : Command} {s : State} (hp : s.pending = none) : exec cmd.toInstr s = .next s := by
  cases cmd <;>
    simp [exec, Command.toInstr, execNop, execPrepare, execReset, execUpdateAndProcess, whilePending, hp]

/-- An internal operation that goes on: its frame. -/
theorem exec_micro {i : Instr} {s t : State} (hc : ∀ cmd : Command, i ≠ cmd.toInstr) (ha : ¬IsAccess i)
    (h : exec i s = .next t) : MicroFrame s t := by
  cases i with
  | nop => exact absurd rfl (hc .nop)
  | prepare len => exact absurd rfl (hc (.prepare len))
  | reset => exact absurd rfl (hc .reset)
  | updateAndProcess len => exact absurd rfl (hc (.updateAndProcess len))
  | memRead a n => exact absurd (.inl ⟨a, n, rfl⟩) ha
  | memWrite a n v => exact absurd (.inr ⟨a, n, v, rfl⟩) ha
  | convertSnapshot fsd => cases h; rfl
  | designPeak peakF gainDb q fsd => cases h; rfl
  | designLowcut lowF kL fsd =>
    simp only [exec, execDesignLowcut] at h
    split at h <;> cases h
    rfl
  | designHighcut highF kH fsd =>
    simp only [exec, execDesignHighcut] at h
    split at h <;> cases h
    rfl
  | stageSetCoeff c j set => cases h; exact .of_onlyLanes (s.onlyLanes_setCoeffs c j set)
  | stageSetBypass c j b => cases h; exact .of_onlyLanes (s.onlyLanes_setBypass c j b)
  | stageProcess c j x => cases h; exact .of_filter (stageProcess_frame c j x s) _
  | stageClear c j => cases h; exact .of_onlyLanes (s.onlyLanes_clearStage c j)
  | chainApplyOrder c ch k seq =>
    simp only [exec, execChainApplyOrder] at h
    split at h <;> cases h
    exact .of_onlyLanes (applyOrder_onlyLanes c ch k seq s)
  | chainProcess c ch x =>
    simp only [exec, execChainProcess, Host.Outcome.next.injEq] at h
    exact h ▸ .of_filter (chainProcess_keepsShape c ch x s).1 _
  | monoProcess c x =>
    simp only [exec, execMonoProcess, Host.Outcome.next.injEq] at h
    exact h ▸ .of_filter (monoProcess_keepsShape c x s).1 _
  | updateCut kL lowSeq kH highSeq =>
    simp only [exec, execUpdateCut] at h
    split at h <;> cases h
    exact .of_onlyLanes (updateCut_onlyLanes kL lowSeq kH highSeq s)
  | updatePeak set =>
    simp only [exec, execUpdatePeak, Host.Outcome.next.injEq] at h
    exact h ▸ .of_onlyLanes (updatePeak_onlyLanes set s)
  | update =>
    simp only [exec, execUpdate, Host.Outcome.next.injEq] at h
    exact h ▸ .of_onlyLanes (update_onlyLanes s)
  | blockProcess n =>
    simp only [exec, execBlockProcess] at h
    split at h
    · rename_i u hu
      have hb := (blockProcess_frame hu).1
      rw [Host.Outcome.next.injEq] at h
      subst h
      unfold MicroFrame
      rw [hb]
    · cases h
  | chainsReset =>
    simp only [exec, execChainsReset, Host.Outcome.next.injEq] at h
    exact h ▸ .of_onlyLanes (chainsReset_onlyLanes s)

/-- Every way an instruction can go on: a read, a write, a command with none in flight, a command in flight, an internal
operation. -/
theorem exec_cases {i : Instr} {s t : State} (h : exec i s = .next t) :
    (∃ a, i = .memRead a 4 ∧ t = { s with readData := t.readData, readDraws := t.readDraws }) ∨
    (∃ a v, i = .memWrite a 4 v ∧ a.toNat % 4 = 0 ∧ a.toNat < windowSize ∧ t = s.writeTarget v (target a.toNat)) ∨
    ((∃ cmd : Command, i = cmd.toInstr) ∧ s.pending = none ∧ t = s) ∨
    (∃ (cmd : Command) (p : Pending), i = cmd.toInstr ∧ s.pending = some p ∧ exec cmd.toInstr s = .next t) ∨
    (MicroFrame s t ∧ (∀ cmd : Command, i ≠ cmd.toInstr) ∧ ¬IsAccess i) := by
  by_cases hc : ∃ cmd : Command, i = cmd.toInstr
  · obtain ⟨cmd, rfl⟩ := hc
    cases hp : s.pending with
    | none =>
      rw [execCommand_idle hp] at h
      cases h
      exact .inr (.inr (.inl ⟨⟨cmd, rfl⟩, rfl, rfl⟩))
    | some p => exact .inr (.inr (.inr (.inl ⟨cmd, p, rfl, rfl, h⟩)))
  · by_cases ha : IsAccess i
    · rcases ha with ⟨a, n, rfl⟩ | ⟨a, n, v, rfl⟩
      · obtain ⟨rfl, _, _, hr⟩ := accessing_next (show accessing a n s.readTarget = .next t from h)
        exact .inl ⟨a, rfl, readTarget_frame hr⟩
      · obtain ⟨rfl, ha, hw, hr⟩ :=
          accessing_next (show accessing a n (fun x => .next (s.writeTarget v x)) = .next t from h)
        cases hr
        exact .inr (.inl ⟨a, v, rfl, ha, hw, rfl⟩)
    · have hn : ∀ cmd : Command, i ≠ cmd.toInstr := fun cmd e => hc ⟨cmd, e⟩
      exact .inr (.inr (.inr (.inr ⟨exec_micro hn ha h, hn, ha⟩)))

/-! ### Processing as executed -/

/-- An order code with a long enough sequence is not refused (42_cut_chain.md R161). -/
theorem orderFault_none {k : Nat} {seq : List CoeffSet} (hk : k ≤ 3) (hs : k + 1 ≤ seq.length) : orderFault k seq = none := by
  simp only [orderFault, if_neg (show ¬ 3 < k by omega), if_neg (show ¬ seq.length < k + 1 by omega)]

/-- Order selection goes on (42_cut_chain.md R160). -/
theorem exec_applyOrder {k : Nat} {seq : List CoeffSet} (hk : k ≤ 3) (hs : k + 1 ≤ seq.length) (c : Lane) (ch : Chain) (s : State) :
    exec (.chainApplyOrder c ch k seq) s = .next (applyOrder c ch k seq s) := by
  simp only [exec, execChainApplyOrder, orderFault_none hk hs]

/-- Order selection twice is order selection once (42_cut_chain.md R162). -/
theorem applyOrder_twice (c : Lane) (ch : Chain) (k : Nat) (seq : List CoeffSet) (s : State) :
    applyOrder c ch k seq (applyOrder c ch k seq s) = applyOrder c ch k seq s := by
  have h1 := applyOrder_onlyLanes c ch k seq (applyOrder c ch k seq s)
  have hl : (applyOrder c ch k seq (applyOrder c ch k seq s)).lanes = (applyOrder c ch k seq s).lanes := by
    apply State.lanes_ext
    intro c' j
    by_cases h : c' ≠ c ∨ OutsideChain ch j
    · exact applyOrder_other _ _ _ _ _ h
    · simp only [ne_eq, not_or, not_not, OutsideChain, not_forall] at h
      obtain ⟨rfl, i, rfl⟩ := h
      rw [applyOrder_slot, applyOrder_slot]
      split <;> rfl
  unfold OnlyLanes at h1
  rw [h1, hl]

/-- The result record does not matter to a stage. -/
theorem stageProcess_withResult (c : Lane) (j : StageIdx) (x : F32) (s : State) (r : UopResult) :
    stageProcess c j x (s.withResult r) = ((stageProcess c j x s).1, (stageProcess c j x s).2.withResult r) := by
  cases hb : (s.stage c j).bypass with
  | true => rw [stageProcess_bypassed hb, stageProcess_bypassed (s := s.withResult r) hb]
  | false => rw [stageProcess_active hb, stageProcess_active (s := s.withResult r) hb]; rfl

/-- `STAGE_PROCESS` as executed. -/
theorem exec_stage (c : Lane) (j : StageIdx) (x : F32) (s : State) :
    exec (.stageProcess c j x) s = .next ((stageProcess c j x s).2.withResult (.sample (stageProcess c j x s).1)) := rfl

theorem withResult_withResult (s : State) (r r' : UopResult) : (s.withResult r).withResult r' = s.withResult r' := rfl
theorem withResult_result (s : State) (r : UopResult) : (s.withResult r).result = r := rfl
theorem withResult_self (s : State) : s.withResult s.result = s := rfl

/-- `STAGE_PROCESS` after another operation's result. -/
theorem exec_stage_withResult (c : Lane) (j : StageIdx) (x : F32) (s : State) (r : UopResult) :
    exec (.stageProcess c j x) (s.withResult r) = .next ((stageProcess c j x s).2.withResult (.sample (stageProcess c j x s).1)) := by
  rw [exec_stage, stageProcess_withResult, withResult_withResult]

/-- A cut chain, stage by stage (42_cut_chain.md R164). -/
theorem chainProcess_eq (c : Lane) (ch : Chain) (x : F32) (s : State) :
    ∃ r0 r1 r2 r3 : F32 × State, r0 = stageProcess c (slotStage ch 0) x s ∧ r1 = stageProcess c (slotStage ch 1) r0.1 r0.2 ∧
      r2 = stageProcess c (slotStage ch 2) r1.1 r1.2 ∧ r3 = stageProcess c (slotStage ch 3) r2.1 r2.2 ∧
      chainProcess c ch x s = r3 := by
  refine ⟨_, _, _, _, rfl, rfl, rfl, rfl, ?_⟩
  simp only [chainProcess, slots, List.foldl_cons, List.foldl_nil]

/-- The result record does not matter to a chain. -/
theorem chainProcess_withResult (c : Lane) (ch : Chain) (x : F32) (s : State) (r : UopResult) :
    chainProcess c ch x (s.withResult r) = ((chainProcess c ch x s).1, (chainProcess c ch x s).2.withResult r) := by
  have fold : ∀ (l : List Slot) (p : F32 × State),
      l.foldl (fun r i => stageProcess c (slotStage ch i) r.1 r.2) (p.1, p.2.withResult r) =
      ((l.foldl (fun r i => stageProcess c (slotStage ch i) r.1 r.2) p).1, (l.foldl (fun r i => stageProcess c (slotStage ch i) r.1 r.2) p).2.withResult r) := by
    intro l
    induction l with
    | nil => intro p; rfl
    | cons i l ih =>
      intro p
      rw [List.foldl_cons, List.foldl_cons]
      simp only [stageProcess_withResult]
      exact ih (stageProcess c (slotStage ch i) p.1 p.2)
  exact fold slots (x, s)

/-- `CHAIN_PROCESS` after another operation's result. -/
theorem exec_chain (c : Lane) (ch : Chain) (x : F32) (s : State) (r : UopResult) :
    exec (.chainProcess c ch x) (s.withResult r) = .next ((chainProcess c ch x s).2.withResult (.sample (chainProcess c ch x s).1)) := by
  simp only [exec, execChainProcess, chainProcess_withResult, withResult_withResult]

/-- `MONO_PROCESS` as executed. -/
theorem exec_mono (c : Lane) (x : F32) (s : State) :
    exec (.monoProcess c x) s = .next ((monoProcess c x s).2.withResult (.sample (monoProcess c x s).1)) := by
  simp only [exec, execMonoProcess]

/-- A lane, part by part (42_cut_chain.md R165). -/
theorem monoProcess_eq (c : Lane) (x : F32) (s : State) :
    ∃ u v w : F32 × State, u = chainProcess c .low x s ∧ v = stageProcess c peakStage u.1 u.2 ∧
      w = chainProcess c .high v.1 v.2 ∧ monoProcess c x s = w :=
  ⟨_, _, _, rfl, rfl, rfl, by simp only [monoProcess]⟩

/-- `UPDATE_CUT` goes on (43_stereo_processor.md R184). -/
theorem exec_updateCut {kL kH : Nat} {lowSeq highSeq : List CoeffSet} (h1 : kL ≤ 3) (h2 : kL + 1 ≤ lowSeq.length)
    (h3 : kH ≤ 3) (h4 : kH + 1 ≤ highSeq.length) (s : State) :
    exec (.updateCut kL lowSeq kH highSeq) s = .next (updateCut kL lowSeq kH highSeq s) := by
  simp only [exec, execUpdateCut, orderFault_none h1 h2, orderFault_none h3 h4, Option.orElse]

/-- What a prefix of a sequence holds (42_cut_chain.md R160). -/
theorem take_get {k : Nat} {seq : List CoeffSet} (hs : k + 1 ≤ seq.length) (i : Nat) :
    (i ≤ k → ∃ x, (seq.take (k + 1))[i]? = some x ∧ seq[i]? = some x) ∧ (k < i → (seq.take (k + 1))[i]? = none) := by
  refine ⟨fun h => ⟨seq[i], ?_, List.getElem?_eq_getElem (by omega)⟩, fun h => ?_⟩
  · rw [List.getElem?_take, if_pos (by omega), List.getElem?_eq_getElem (by omega)]
  · rw [List.getElem?_take, if_neg (by omega)]

/-- `CHAINS_RESET` as executed. -/
theorem exec_chainsReset (s : State) : exec .chainsReset s = .next (chainsReset s) := by simp only [exec, execChainsReset]

/-- A word reads the same in states with the same buffer. -/
theorem bufRead_of_mem {s t : State} (h : t.mem = s.mem) (c : Lane) (i : Nat) : t.bufRead c i = s.bufRead c i := by
  unfold State.bufRead; rw [h]

/-- The update leaves the buffer alone (43_stereo_processor.md R186). -/
theorem update_mem (s : State) : (update s).mem = s.mem := by
  have h := update_onlyLanes s; unfold OnlyLanes at h; rw [h]

end Sys2Proof.Machine
end

