-- ==== Sys2Proof/Laws/Effect.lean ====
section
/-! SUPPORT. What a command's effect depends on (43_stereo_processor.md sections 1 and 3): two states that agree on it
run every operation alike, and a busy bus access keeps the agreement. -/
namespace Sys2Proof.Machine

/-- Agreement on what a command's effect depends on. -/
structure Eff (s s' : State) : Prop where
  lanes : s'.lanes = s.lanes
  mem : s'.mem = s.mem
  fs : s'.fs = s.fs
  maxBlk : s'.maxBlk = s.maxBlk
  prepared : s'.prepared = s.prepared
  nanDraws : s'.nanDraws = s.nanDraws
  snap : s'.snap = s.snap
  pending : s'.pending = s.pending
  busy : s'.busy = s.busy

theorem Eff.refl (s : State) : Eff s s := ⟨rfl, rfl, rfl, rfl, rfl, rfl, rfl, rfl, rfl⟩

theorem Eff.trans {s t u : State} (h : Eff s t) (h' : Eff t u) : Eff s u :=
  ⟨h'.1.trans h.1, h'.2.trans h.2, h'.3.trans h.3, h'.4.trans h.4, h'.5.trans h.5, h'.6.trans h.6, h'.7.trans h.7, h'.8.trans h.8, h'.9.trans h.9⟩

theorem Eff.stage {s s' : State} (h : Eff s s') (c : Lane) (j : StageIdx) : s'.stage c j = s.stage c j := by
  unfold State.stage; rw [h.lanes]

theorem Eff.bufRead {s s' : State} (h : Eff s s') (c : Lane) (j : Nat) : s'.bufRead c j = s.bufRead c j := bufRead_of_mem h.mem c j

theorem Eff.setLanes {s s' : State} (h : Eff s s') (l : Vector (Vector Stage 9) 2) : Eff { s with lanes := l } { s' with lanes := l } := by
  obtain ⟨h1, h2, h3, h4, h5, h6, h7, h8, h9⟩ := h
  exact ⟨rfl, h2, h3, h4, h5, h6, h7, h8, h9⟩

/-- Storing a stage keeps the agreement. -/
theorem Eff.setStage {s s' : State} (h : Eff s s') (c : Lane) (j : StageIdx) (st : Stage) : Eff (s.setStage c j st) (s'.setStage c j st) := by
  unfold State.setStage; rw [h.lanes]; exact h.setLanes _

theorem Eff.setCoeffs {s s' : State} (h : Eff s s') (c : Lane) (j : StageIdx) (set : CoeffSet) : Eff (s.setCoeffs c j set) (s'.setCoeffs c j set) := by
  unfold State.setCoeffs; rw [h.stage]; exact h.setStage ..

theorem Eff.setBypass {s s' : State} (h : Eff s s') (c : Lane) (j : StageIdx) (b : Bool) : Eff (s.setBypass c j b) (s'.setBypass c j b) := by
  unfold State.setBypass; rw [h.stage]; exact h.setStage ..

theorem Eff.clearStage {s s' : State} (h : Eff s s') (c : Lane) (j : StageIdx) : Eff (s.clearStage c j) (s'.clearStage c j) := h.setStage ..

theorem Eff.foldl {α : Type} {f : State → α → State} (hf : ∀ s s' a, Eff s s' → Eff (f s a) (f s' a)) (l : List α) {s s' : State} (h : Eff s s') :
    Eff (l.foldl f s) (l.foldl f s') := by
  induction l generalizing s s' with
  | nil => exact h
  | cons a l ih => exact ih (hf _ _ a h)

theorem Eff.applyOrder {s s' : State} (h : Eff s s') (c : Lane) (ch : Chain) (k : Nat) (seq : List CoeffSet) : Eff (applyOrder c ch k seq s) (applyOrder c ch k seq s') := by
  unfold Machine.applyOrder activateSlots bypassChain
  exact Eff.foldl (f := fun (s : State) (p : Slot × CoeffSet) => (s.setCoeffs c (slotStage ch p.1) p.2).setBypass c (slotStage ch p.1) false)
    (fun s s' a h => (h.setCoeffs ..).setBypass ..) _ (Eff.foldl (f := fun (s : State) (i : Slot) => s.setBypass c (slotStage ch i) true) (fun s s' a h => h.setBypass ..) _ h)

theorem Eff.updateCut {s s' : State} (h : Eff s s') (kL : Nat) (l : List CoeffSet) (kH : Nat) (r : List CoeffSet) : Eff (updateCut kL l kH r s) (updateCut kL l kH r s') :=
  (((h.applyOrder ..).applyOrder ..).applyOrder ..).applyOrder ..

theorem Eff.updatePeak {s s' : State} (h : Eff s s') (set : CoeffSet) : Eff (updatePeak set s) (updatePeak set s') :=
  (((h.setCoeffs ..).setBypass ..).setCoeffs ..).setBypass ..

/-- The update is the same (43_stereo_processor.md R186). -/
theorem Eff.update {s s' : State} (h : Eff s s') : Eff (update s) (update s') := by
  rw [update_eq, update_eq, h.snap, h.fs]
  exact (h.updateCut ..).updatePeak _

theorem Eff.clearLane {s s' : State} (h : Eff s s') (c : Lane) : Eff (clearLane c s) (clearLane c s') := by
  unfold Machine.clearLane
  exact Eff.foldl (f := fun (s : State) (j : StageIdx) => s.clearStage c j) (fun s s' a h => h.clearStage ..) _ h

/-- The chain reset is the same (70_reset_and_hazards.md R251). -/
theorem Eff.chainsReset {s s' : State} (h : Eff s s') : Eff (chainsReset s) (chainsReset s') := by
  unfold Machine.chainsReset
  exact (h.clearLane 0).clearLane 1

theorem Eff.draws {s s' : State} (h : Eff s s') (n : Nat) : Eff { s with nanDraws := n } { s' with nanDraws := n } := by
  obtain ⟨h1, h2, h3, h4, h5, h6, h7, h8, h9⟩ := h
  exact ⟨h1, h2, h3, h4, h5, rfl, h7, h8, h9⟩

theorem Eff.bufWrite {s s' : State} (h : Eff s s') (c : Lane) (i : Nat) (v : F32) : Eff (s.bufWrite c i v) (s'.bufWrite c i v) := by
  unfold State.bufWrite; rw [h.mem]
  obtain ⟨h1, h2, h3, h4, h5, h6, h7, h8, h9⟩ := h
  exact ⟨h1, rfl, h3, h4, h5, h6, h7, h8, h9⟩

/-- A stage gives the same output (41_biquad_stage.md R142). -/
theorem Eff.stageProcess {s s' : State} (h : Eff s s') (c : Lane) (j : StageIdx) (x : F32) :
    (stageProcess c j x s').1 = (stageProcess c j x s).1 ∧ Eff (stageProcess c j x s).2 (stageProcess c j x s').2 := by
  cases hb : (s.stage c j).bypass with
  | true => rw [stageProcess_bypassed hb, stageProcess_bypassed (h.stage c j ▸ hb)]; exact ⟨rfl, h⟩
  | false => rw [stageProcess_active hb, stageProcess_active (h.stage c j ▸ hb), h.stage, h.nanDraws]; exact ⟨rfl, (h.setStage ..).draws _⟩

theorem Eff.chainProcess {s s' : State} (h : Eff s s') (c : Lane) (ch : Chain) (x : F32) :
    (chainProcess c ch x s').1 = (chainProcess c ch x s).1 ∧ Eff (chainProcess c ch x s).2 (chainProcess c ch x s').2 := by
  have fold : ∀ (l : List Slot) (r r' : F32 × State), r'.1 = r.1 → Eff r.2 r'.2 →
      (l.foldl (fun r i => Machine.stageProcess c (slotStage ch i) r.1 r.2) r').1 = (l.foldl (fun r i => Machine.stageProcess c (slotStage ch i) r.1 r.2) r).1 ∧
      Eff (l.foldl (fun r i => Machine.stageProcess c (slotStage ch i) r.1 r.2) r).2 (l.foldl (fun r i => Machine.stageProcess c (slotStage ch i) r.1 r.2) r').2 := by
    intro l
    induction l with
    | nil => exact fun _ _ h1 h2 => ⟨h1, h2⟩
    | cons i l ih =>
      rintro ⟨v, u⟩ ⟨v', u'⟩ h1 h2
      cases h1
      have := h2.stageProcess c (slotStage ch i) v
      exact ih _ _ this.1 this.2
  exact fold slots (x, s) (x, s') rfl h

/-- A lane gives the same output (42_cut_chain.md R165). -/
theorem Eff.monoProcess {s s' : State} (h : Eff s s') (c : Lane) (x : F32) :
    (monoProcess c x s').1 = (monoProcess c x s).1 ∧ Eff (monoProcess c x s).2 (monoProcess c x s').2 := by
  obtain ⟨h1, h1'⟩ := h.chainProcess c .low x
  obtain ⟨h2, h2'⟩ := h1'.stageProcess c peakStage (Machine.chainProcess c .low x s).1
  have h3 := h2'.chainProcess c .high (Machine.stageProcess c peakStage (Machine.chainProcess c .low x s).1 (Machine.chainProcess c .low x s).2).1
  unfold Machine.monoProcess
  simp only
  rw [h1, h2]
  exact h3

theorem Eff.processSample {s s' : State} (h : Eff s s') (c : Lane) (i : Nat) (x : F32) : Eff (processSample c i x s) (processSample c i x s') := by
  have := h.monoProcess c x
  unfold Machine.processSample
  simp only
  rw [this.1]
  exact this.2.bufWrite ..

/-- Two outcomes of a block agree. -/
def EffRes : Except Fault State → Except Fault State → Prop
  | .ok s, .ok s' => Eff s s'
  | .error e, .error e' => e' = e
  | _, _ => False

theorem Eff.blockLane {s s' : State} (h : Eff s s') (c : Lane) (n i : Nat) : EffRes (blockLane c n i s) (blockLane c n i s') := by
  induction n generalizing i s s' with
  | zero => exact h
  | succ n ih =>
    rw [blockLane_succ, blockLane_succ, h.bufRead]
    cases s.bufRead c i with
    | none => rfl
    | some x => exact ih (h.processSample ..) _

/-- A block is the same (43_stereo_processor.md R187). -/
theorem Eff.blockProcess {s s' : State} (h : Eff s s') (n : Nat) : EffRes (blockProcess n s) (blockProcess n s') := by
  have h0 := h.blockLane 0 n 0
  unfold Machine.blockProcess
  revert h0
  cases Machine.blockLane 0 n 0 s <;> cases Machine.blockLane 0 n 0 s' <;> intro h0
  · exact h0
  · exact h0.elim
  · exact h0.elim
  · exact Eff.blockLane h0 1 n 0

theorem Eff.complete {s s' : State} (h : Eff s s') : Eff s.complete s'.complete := by
  obtain ⟨h1, h2, h3, h4, h5, h6, h7, h8, h9⟩ := h
  exact ⟨h1, h2, h3, h4, h5, h6, h7, rfl, rfl⟩

theorem Eff.prep {s s' : State} (h : Eff s s') (f : F32) (m : Word) : Eff (State.complete { s with fs := f, maxBlk := m, prepared := true }) (State.complete { s' with fs := f, maxBlk := m, prepared := true }) := by
  obtain ⟨h1, h2, h3, h4, h5, h6, h7, h8, h9⟩ := h
  exact ⟨h1, h2, rfl, rfl, rfl, h6, h7, rfl, rfl⟩

/-- A command in flight is the same (43_stereo_processor.md R181). -/
theorem Eff.command {s s' : State} (h : Eff s s') {p : Pending} (hp : s.pending = some p) {cmd : Command} {u : State}
    (hu : exec cmd.toInstr s = .next u) : ∃ u', exec cmd.toInstr s' = .next u' ∧ Eff u u' ∧ u'.done = u.done := by
  have hp' : s'.pending = some p := h.pending.trans hp
  cases cmd with
  | nop =>
    have := (execNop_pending hp).symm.trans hu; rw [Host.Outcome.next.injEq] at this; subst this
    exact ⟨_, execNop_pending hp', h.complete, rfl⟩
  | reset =>
    have := (execReset_pending hp).symm.trans hu; rw [Host.Outcome.next.injEq] at this; subst this
    exact ⟨_, execReset_pending hp', h.chainsReset.complete, rfl⟩
  | prepare len =>
    have := (execPrepare_pending hp len).symm.trans hu; rw [Host.Outcome.next.injEq] at this; subst this
    refine ⟨_, execPrepare_pending hp' len, ?_, rfl⟩
    unfold State.prepareEffect
    exact Eff.prep h.chainsReset ..
  | updateAndProcess len =>
    have := (execUpdateAndProcess_pending hp len).symm.trans hu
    have e := execUpdateAndProcess_pending hp' len
    have hb := h.update.blockProcess len.toNat
    revert this e hb
    cases Machine.blockProcess len.toNat (Machine.update s) <;> cases Machine.blockProcess len.toNat (Machine.update s') <;> intro this e hb
    · cases this
    · cases this
    · exact hb.elim
    · cases this
      exact ⟨_, e, Eff.complete hb, rfl⟩

/-- A bus access while `BUSY` = 1 keeps everything a command's effect depends on (20_memory.md R66, 43_stereo_processor.md R180). -/
theorem Eff.access {s t : State} {i : Instr} (hb : s.busy = true) (ha : IsAccess i) (h : exec i s = .next t) : Eff s t := by
  rcases exec_cases h with ⟨_, _, e⟩ | ⟨a, v, _, _, _, rfl⟩ | ⟨_, _, rfl⟩ | ⟨cmd, p, rfl, _⟩ | ⟨_, _, hn⟩
  · rw [e]; exact ⟨rfl, rfl, rfl, rfl, rfl, rfl, rfl, rfl, rfl⟩
  · rcases writeTarget_cases s v (target a.toNat) with e | ⟨_, e⟩ | ⟨_, e⟩ | ⟨_, e⟩ | ⟨_, _, e⟩ | ⟨_, _, _, _, _, e⟩ | ⟨_, _, _, _, hb', e⟩
    · rw [e]; exact .refl s
    · rw [e]; rcases present_cases s v with ⟨_, _, e⟩ | ⟨hb', _, _, _, e⟩
      · rw [e]; exact ⟨rfl, rfl, rfl, rfl, rfl, rfl, rfl, rfl, rfl⟩
      · rw [hb] at hb'; cases hb'
    · rw [e, writeStatus_eq]; exact ⟨rfl, rfl, rfl, rfl, rfl, rfl, rfl, rfl, rfl⟩
    · rw [e]; exact ⟨rfl, rfl, rfl, rfl, rfl, rfl, rfl, rfl, rfl⟩
    · rw [e]; exact ⟨rfl, rfl, rfl, rfl, rfl, rfl, rfl, rfl, rfl⟩
    · rw [e]; exact ⟨rfl, rfl, rfl, rfl, rfl, rfl, rfl, rfl, rfl⟩
    · rw [hb] at hb'; cases hb'
  · exact .refl _
  · rcases ha with ⟨_, _, e⟩ | ⟨_, _, _, e⟩ <;> (cases cmd <;> cases e)
  · exact absurd ha hn

/-- A busy access inside the window goes on, and takes nothing off the list of requests (20_memory.md R64 to R68). -/
theorem access_busy {s : State} (hb : s.busy = true) {a : Word} (ha : a.toNat % 4 = 0) (hw : a.toNat < windowSize) :
    (∃ t, exec (.memRead a 4) s = .next t ∧ t.inbox = s.inbox) ∧ ∀ v, ∃ t, exec (.memWrite a 4 v) s = .next t ∧ t.inbox = s.inbox := by
  refine ⟨?_, fun v => ⟨_, exec_memWrite ha hw v s, ?_⟩⟩
  · rw [exec_memRead ha hw]
    cases target a.toNat with
    | sample c i =>
      by_cases hi : Config.bufLen ≤ i
      · exact ⟨_, if_pos hi, rfl⟩
      · exact ⟨_, readTarget_sample_busy hb (by omega), rfl⟩
    | stageView c j w => exact ⟨_, if_pos hb, rfl⟩
    | viewGap => exact ⟨_, if_pos hb, rfl⟩
    | _ => exact ⟨_, rfl, rfl⟩
  · rcases writeTarget_cases s v (target a.toNat) with e | ⟨_, e⟩ | ⟨_, e⟩ | ⟨_, e⟩ | ⟨_, _, e⟩ | ⟨_, _, _, _, _, e⟩ | ⟨_, _, _, _, hb', e⟩
    · rw [e]
    · rw [e]; rcases present_cases s v with ⟨_, _, e⟩ | ⟨hb', _, _, _, e⟩ <;> rw [e] <;> rfl
    · rw [e, writeStatus_eq]
    all_goals rw [e]; try rfl

end Sys2Proof.Machine
end

