-- ==== Sys2Proof/Laws/Rounding.lean ====
section
/-! SUPPORT. How far a rounded result lies from the exact one: one lemma for each operation of the factory. -/
namespace Sys2Proof.Machine

/-- The rounded quotient is within half a unit of the quotient. -/
theorem roundEven_near (n : Nat) {d : Nat} (hd : 0 < d) :
    2 * (roundEven n d * d) ≤ 2 * n + d ∧ 2 * n ≤ 2 * (roundEven n d * d) + d := by
  have h := Nat.div_add_mod n d
  have hm := Nat.mod_lt n hd
  have hs : (n / d + 1) * d = n / d * d + d := by ring
  rw [Nat.mul_comm] at h
  unfold roundEven
  simp only
  split <;> rename_i hc
  · omega
  · rw [hs]; omega

theorem roundEven_mono {n n' : Nat} (h : n ≤ n') (d : Nat) : roundEven n d ≤ roundEven n' d := by
  rcases Nat.eq_zero_or_pos d with rfl | hd
  · unfold roundEven; simp; split <;> split <;> omega
  have hq : n / d ≤ n' / d := Nat.div_le_div_right h
  rcases Nat.lt_or_eq_of_le hq with hq | hq
  · refine (roundEven_le n d).trans (hq.trans_le ?_)
    unfold roundEven; simp only; split <;> omega
  · have e := Nat.div_add_mod n d
    have e' := Nat.div_add_mod n' d
    rw [← hq] at e'
    have hr : n % d ≤ n' % d := by omega
    unfold roundEven
    simp only [← hq]
    generalize n / d % 2 = b
    split <;> split <;> omega

/-- The exponent step at which a magnitude is rounded. -/
def Fmt.shift (f : Fmt) (num den : Nat) : Nat := Nat.log2 (num / den) - f.frac

theorem Fmt.roundEven_bounds (f : Fmt) (num den : Nat) :
    roundEven num (den * 2 ^ f.shift num den) ≤ 2 ^ (f.frac + 1) ∧
    (f.shift num den ≠ 0 → 2 ^ f.frac ≤ roundEven num (den * 2 ^ f.shift num den)) := by
  have hq : num / (den * 2 ^ f.shift num den) = num / den / 2 ^ f.shift num den := (Nat.div_div_eq_div_mul ..).symm
  constructor
  · refine (roundEven_le _ _).trans ?_
    rw [hq]
    refine Nat.succ_le_of_lt ((Nat.div_lt_iff_lt_mul (Nat.two_pow_pos _)).2 ?_)
    rw [← Nat.pow_add]
    have h' : num / den < 2 ^ (Nat.log2 (num / den) + 1) := Nat.lt_log2_self
    exact h'.trans_le (Nat.pow_le_pow_right (by omega) (by unfold shift; omega))
  · intro hs
    have hlo : 2 ^ f.frac ≤ num / (den * 2 ^ f.shift num den) := by
      rw [hq, Nat.le_div_iff_mul_le (Nat.two_pow_pos _), ← Nat.pow_add]
      have hne : num / den ≠ 0 := by intro hz; apply hs; simp [shift, hz]
      refine le_trans (Nat.pow_le_pow_right (by omega) ?_) (Nat.log2_self_le hne)
      unfold shift at *; omega
    refine hlo.trans ?_
    unfold roundEven; simp only; split <;> omega

/-- What a rounded magnitude is worth, where it does not overflow. -/
theorem Fmt.magnitude_roundMag (f : Fmt) {num den : Nat} (h : f.roundMag num den < f.infPattern) :
    f.magnitude (f.roundMag num den) = roundEven num (den * 2 ^ f.shift num den) * 2 ^ f.shift num den := by
  obtain ⟨hhi, hlo⟩ := f.roundEven_bounds num den
  have hp : f.roundMag num den = f.shift num den * 2 ^ f.frac + roundEven num (den * 2 ^ f.shift num den) := by
    unfold roundMag at h ⊢
    simp only at h ⊢
    split at h
    · rw [if_pos (by assumption)]; rfl
    · omega
  rw [hp]
  generalize roundEven num (den * 2 ^ f.shift num den) = R at *
  generalize f.shift num den = k at *
  have h2 : 0 < 2 ^ f.frac := Nat.two_pow_pos _
  have hs : 2 ^ (f.frac + 1) = 2 ^ f.frac * 2 := by ring
  have hdiv : (k * 2 ^ f.frac + R) / 2 ^ f.frac = k + R / 2 ^ f.frac := by
    rw [Nat.add_comm, Nat.add_mul_div_right _ _ h2, Nat.add_comm]
  have hmod : (k * 2 ^ f.frac + R) % 2 ^ f.frac = R % 2 ^ f.frac := by
    rw [Nat.add_comm, Nat.add_mul_mod_self_right]
  unfold magnitude
  rw [hdiv, hmod]
  rcases Nat.lt_or_ge R (2 ^ f.frac) with hR | hR
  · have hk : k = 0 := by by_contra hk; exact absurd (hlo hk) (by omega)
    subst hk
    simp [Nat.div_eq_of_lt hR]
  rcases Nat.lt_or_eq_of_le hhi with hR' | hR'
  · have hq : R / 2 ^ f.frac = 1 := Nat.div_eq_of_lt_le (by omega) (by omega)
    have hr : R % 2 ^ f.frac = R - 2 ^ f.frac := by
      have := Nat.div_add_mod R (2 ^ f.frac); rw [hq] at this; omega
    rw [hq, hr, if_neg (by omega), Nat.add_sub_cancel, Nat.add_sub_cancel' hR]
  · have hq : R / 2 ^ f.frac = 2 := by rw [hR', hs, Nat.mul_div_cancel_left _ h2]
    have hr : R % 2 ^ f.frac = 0 := by rw [hR', hs, Nat.mul_mod_right]
    rw [hq, hr, if_neg (by omega), hR', show k + 2 - 1 = k + 1 by omega]; ring

/-- Rounding keeps the order of magnitudes. -/
theorem Fmt.magnitude_roundMag_mono (f : Fmt) {num num' den : Nat} (h : num ≤ num')
    (hf' : f.roundMag num' den < f.infPattern) (hf : f.roundMag num den < f.infPattern) :
    f.magnitude (f.roundMag num den) ≤ f.magnitude (f.roundMag num' den) := by
  rw [f.magnitude_roundMag hf, f.magnitude_roundMag hf']
  have hk : f.shift num den ≤ f.shift num' den := by
    unfold shift
    have : num / den ≤ num' / den := Nat.div_le_div_right h
    have : Nat.log2 (num / den) ≤ Nat.log2 (num' / den) := by
      rw [Nat.log2_eq_log_two, Nat.log2_eq_log_two]; exact Nat.log_mono_right this
    omega
  rcases Nat.lt_or_eq_of_le hk with hk | hk
  · refine (Nat.mul_le_mul_right _ (f.roundEven_bounds _ _).1).trans ?_
    refine le_trans ?_ (Nat.mul_le_mul_right _ ((f.roundEven_bounds _ _).2 (by omega)))
    rw [← Nat.pow_add, ← Nat.pow_add]
    exact Nat.pow_le_pow_right (by omega) (by omega)
  · rw [hk]; exact Nat.mul_le_mul_right _ (roundEven_mono h _)

/-- A rounded magnitude is within half a unit in the last place, or half a least subnormal. -/
theorem Fmt.magnitude_roundMag_near (f : Fmt) {num den : Nat} (hd : 0 < den) (h : f.roundMag num den < f.infPattern) :
    |(f.magnitude (f.roundMag num den) : ℚ) - num / den| ≤ num / den / 2 ^ (f.frac + 1) + 1 / 2 := by
  rw [f.magnitude_roundMag h]
  obtain ⟨h1, h2⟩ := roundEven_near num (d := den * 2 ^ f.shift num den) (by positivity)
  have hsh : (2 : ℚ) ^ f.shift num den ≤ num / den / 2 ^ f.frac + 1 := by
    have hx : (0 : ℚ) ≤ num / den / 2 ^ f.frac := by positivity
    by_cases hk : f.shift num den = 0
    · rw [hk]; simpa using hx
    · have hne : num / den ≠ 0 := by intro hz; apply hk; simp [shift, hz]
      have := Nat.log2_self_le hne
      have h3 : 2 ^ (f.shift num den + f.frac) ≤ num / den := by
        refine le_trans (Nat.pow_le_pow_right (by omega) ?_) this
        unfold shift at *; omega
      have h4 : ((2 ^ (f.shift num den + f.frac) : Nat) : ℚ) ≤ num / den :=
        (Nat.cast_le.2 h3).trans Nat.cast_div_le
      push_cast at h4
      rw [pow_add] at h4
      have : (2 : ℚ) ^ f.shift num den ≤ num / den / 2 ^ f.frac := (le_div_iff₀ (by positivity)).2 h4
      linarith
  generalize roundEven num (den * 2 ^ f.shift num den) = R at *
  generalize f.shift num den = k at *
  have hd' : (0 : ℚ) < den := by exact_mod_cast hd
  have e1 : (2 : ℚ) * (R * (den * 2 ^ k)) ≤ 2 * num + den * 2 ^ k := by exact_mod_cast h1
  have e2 : (2 : ℚ) * num ≤ 2 * (R * (den * 2 ^ k)) + den * 2 ^ k := by exact_mod_cast h2
  have key : |((R * 2 ^ k : Nat) : ℚ) - num / den| ≤ 2 ^ k / 2 := by
    push_cast
    have : (num : ℚ) = num / den * den := by field_simp
    generalize (num : ℚ) / den = x at *
    rw [this] at e1 e2
    rw [abs_le]
    constructor <;> nlinarith
  refine key.trans ?_
  rw [pow_succ]
  have : (num : ℚ) / den / (2 ^ f.frac * 2) = num / den / 2 ^ f.frac / 2 := by rw [div_div, div_div, div_div]
  linarith

/-- The sign as a factor. -/
def signFactor (s : Bool) : ℚ := if s then -1 else 1

theorem abs_signFactor (s : Bool) : |signFactor s| = 1 := by cases s <;> simp [signFactor]
theorem signFactor_bne (s t : Bool) : signFactor (s != t) = signFactor s * signFactor t := by
  cases s <;> cases t <;> simp [signFactor]
theorem signFactor_not (s : Bool) : signFactor (!s) = -signFactor s := by cases s <;> simp [signFactor]

theorem isFinite64_of_val {v : F64} {s : Bool} {m : Nat} (h : val64 v = .fin s m) : isFinite64 v = true := by
  unfold isFinite64; rw [h]
theorem rat64_of_val {v : F64} {s : Bool} {m : Nat} (h : val64 v = .fin s m) :
    rat64 v = signFactor s * m / 2 ^ Fmt.b64.unit := by
  unfold rat64; rw [h]; cases s <;> simp [Val.order, signFactor]
theorem rat32_of_val {x : F32} {s : Bool} {m : Nat} (h : val32 x = .fin s m) :
    rat32 x = signFactor s * m / 2 ^ Fmt.b32.unit := by
  unfold rat32; rw [h]; cases s <;> simp [Val.order, signFactor]

/-- `v` is `x` rounded to binary64: within half a unit in the last place or half a least subnormal. -/
def Near64 (v : F64) (x : ℚ) : Prop := isFinite64 v = true ∧ |rat64 v - x| ≤ |x| / 2 ^ 53 + 1 / 2 / 2 ^ Fmt.b64.unit

/-- `v` is `x` rounded to binary32. -/
def Near32 (v : F32) (x : ℚ) : Prop := isFinite32 v = true ∧ |rat32 v - x| ≤ |x| / 2 ^ 24 + 1 / 2 / 2 ^ Fmt.b32.unit

/-- A magnitude that does not overflow, packed and read back. -/
theorem Fmt.unpack_round (f : Fmt) (s : Bool) {num den e : Nat} (hd : 0 < den) (he : e + 2 < 2 ^ f.exp - 1)
    (h : num < 2 ^ (f.frac + 1 + e) * den) :
    f.round s num den < 2 ^ (f.frac + f.exp + 1) ∧
    ∃ m, f.unpack (f.round s num den) = .fin s m ∧ |(m : ℚ) - num / den| ≤ num / den / 2 ^ (f.frac + 1) + 1 / 2 := by
  have hlt : f.roundMag num den < f.infPattern := by
    refine (f.roundMag_le (e := e) ((Nat.div_lt_iff_lt_mul hd).2 h)).trans_lt ?_
    exact Nat.mul_lt_mul_of_pos_right he (Nat.two_pow_pos _)
  exact ⟨(f.signBit_add s (hlt.trans f.infPattern_lt)).2.2, _, f.unpack_finite s hlt, f.magnitude_roundMag_near hd hlt⟩

theorem near_of_mag (s : Bool) (m q U k : ℚ) (hU : 0 < U) (hq : 0 ≤ q) (h : |m - q| ≤ q / k + 1 / 2) :
    |signFactor s * m / U - signFactor s * q / U| ≤ |signFactor s * q / U| / k + 1 / 2 / U := by
  rw [← sub_div, ← mul_sub, abs_div, abs_div, abs_mul, abs_mul, abs_signFactor, one_mul, one_mul, abs_of_pos hU,
    abs_of_nonneg hq]
  calc |m - q| / U ≤ (q / k + 1 / 2) / U := by gcongr
    _ = q / U / k + 1 / 2 / U := by rw [add_div]; congr 1; ring

/-- Rounding to binary64 a magnitude of `num / den` least subnormals, below 2^900. -/
theorem round64_near (s : Bool) {num den : Nat} (hd : 0 < den)
    (h : (num : ℚ) / den / 2 ^ Fmt.b64.unit ≤ 2 ^ 200) :
    Near64 (BitVec.ofNat 64 (Fmt.b64.round s num den)) (signFactor s * (num / den) / 2 ^ Fmt.b64.unit) := by
  have hU : (0 : ℚ) < 2 ^ Fmt.b64.unit := by positivity
  have hd' : (0 : ℚ) < den := by exact_mod_cast hd
  have hn : num < 2 ^ (Fmt.b64.frac + 1 + 1222) * den := by
    have h1 : (num : ℚ) ≤ 2 ^ (200 + Fmt.b64.unit) * den := by
      rw [div_div, div_le_iff₀ (by positivity)] at h
      calc (num : ℚ) ≤ _ := h
        _ = _ := by rw [pow_add]; ring
    have h2 : num ≤ 2 ^ (200 + Fmt.b64.unit) * den := by exact_mod_cast h1
    refine h2.trans_lt (Nat.mul_lt_mul_of_pos_right ?_ hd)
    exact Nat.pow_lt_pow_right (by omega) (by decide)
  obtain ⟨hlt, m, hm, hnear⟩ := Fmt.b64.unpack_round s hd (e := 1222) (by decide) hn
  have hv : val64 (BitVec.ofNat 64 (Fmt.b64.round s num den)) = .fin s m := by
    unfold val64
    rw [BitVec.toNat_ofNat, show 2 ^ 64 = 2 ^ (Fmt.b64.frac + Fmt.b64.exp + 1) from rfl, Nat.mod_eq_of_lt hlt]
    exact hm
  unfold Near64
  refine And.intro (isFinite64_of_val hv) ?_
  rw [show Fmt.b64.frac + 1 = 53 from rfl] at hnear
  rw [rat64_of_val hv]
  exact near_of_mag s m _ _ _ hU (div_nonneg (Nat.cast_nonneg _) (Nat.cast_nonneg _)) hnear

theorem isFinite32_iff {x : F32} : isFinite32 x = true ↔ ∃ s m, val32 x = .fin s m := by
  unfold isFinite32; cases val32 x <;> simp

theorem round32_near (s : Bool) {num den : Nat} (hd : 0 < den)
    (h : (num : ℚ) / den / 2 ^ Fmt.b32.unit ≤ 2 ^ 100) :
    Near32 (BitVec.ofNat 32 (Fmt.b32.round s num den)) (signFactor s * (num / den) / 2 ^ Fmt.b32.unit) := by
  have hU : (0 : ℚ) < 2 ^ Fmt.b32.unit := by positivity
  have hn : num < 2 ^ (Fmt.b32.frac + 1 + 226) * den := by
    have h1 : (num : ℚ) ≤ 2 ^ (100 + Fmt.b32.unit) * den := by
      have hd' : (0 : ℚ) < den := by exact_mod_cast hd
      rw [div_div, div_le_iff₀ (by positivity)] at h
      calc (num : ℚ) ≤ _ := h
        _ = _ := by rw [pow_add]; ring
    have h2 : num ≤ 2 ^ (100 + Fmt.b32.unit) * den := by exact_mod_cast h1
    refine h2.trans_lt (Nat.mul_lt_mul_of_pos_right ?_ hd)
    exact Nat.pow_lt_pow_right (by omega) (by decide)
  obtain ⟨hlt, m, hm, hnear⟩ := Fmt.b32.unpack_round s hd (e := 226) (by decide) hn
  have hv : val32 (BitVec.ofNat 32 (Fmt.b32.round s num den)) = .fin s m := by
    unfold val32
    rw [BitVec.toNat_ofNat, show 2 ^ 32 = 2 ^ (Fmt.b32.frac + Fmt.b32.exp + 1) from rfl, Nat.mod_eq_of_lt hlt]
    exact hm
  unfold Near32
  refine And.intro (isFinite32_iff.2 ⟨s, m, hv⟩) ?_
  rw [show Fmt.b32.frac + 1 = 24 from rfl] at hnear
  rw [rat32_of_val hv]
  exact near_of_mag s m _ _ _ hU (div_nonneg (Nat.cast_nonneg _) (Nat.cast_nonneg _)) hnear

/-! ### The operations -/

theorem rat64_abs {v : F64} {s : Bool} {m : Nat} (h : val64 v = .fin s m) : |rat64 v| = m / 2 ^ Fmt.b64.unit := by
  rw [rat64_of_val h, abs_div, abs_mul, abs_signFactor, one_mul, Nat.abs_cast, abs_of_pos (by positivity)]

theorem mul64_near {a b : F64} (ha : isFinite64 a = true) (hb : isFinite64 b = true)
    (h : |rat64 a * rat64 b| ≤ 2 ^ 200) : Near64 (mul64 a b) (rat64 a * rat64 b) := by
  obtain ⟨s, m, hm⟩ := isFinite64_iff.1 ha
  obtain ⟨t, n, hn⟩ := isFinite64_iff.1 hb
  have e : ((m * n : Nat) : ℚ) / ((2 ^ Fmt.b64.unit : Nat) : ℚ) / 2 ^ Fmt.b64.unit = |rat64 a * rat64 b| := by
    rw [abs_mul, rat64_abs hm, rat64_abs hn]; push_cast; rw [div_mul_div_comm, div_div]
  have key := round64_near (s != t) (num := m * n) (den := 2 ^ Fmt.b64.unit) (by positivity) (e ▸ h)
  have e2 : signFactor (s != t) * (((m * n : Nat) : ℚ) / ((2 ^ Fmt.b64.unit : Nat) : ℚ)) / 2 ^ Fmt.b64.unit
      = rat64 a * rat64 b := by
    rw [rat64_of_val hm, rat64_of_val hn, signFactor_bne]; push_cast
    generalize (2 : ℚ) ^ Fmt.b64.unit = U
    ring
  rw [e2] at key
  unfold mul64
  rw [hm, hn]
  exact key

theorem div64_near {a b : F64} (ha : isFinite64 a = true) (hb : isFinite64 b = true) (h0 : rat64 b ≠ 0)
    (h : |rat64 a / rat64 b| ≤ 2 ^ 200) : Near64 (div64 a b) (rat64 a / rat64 b) := by
  obtain ⟨s, m, hm⟩ := isFinite64_iff.1 ha
  obtain ⟨t, n, hn⟩ := isFinite64_iff.1 hb
  have hn0 : n ≠ 0 := by rintro rfl; apply h0; rw [rat64_of_val hn]; simp
  have hn' : (n : ℚ) ≠ 0 := by exact_mod_cast hn0
  have hU : (2 : ℚ) ^ Fmt.b64.unit ≠ 0 := by positivity
  have e : ((m * 2 ^ Fmt.b64.unit : Nat) : ℚ) / n / 2 ^ Fmt.b64.unit = |rat64 a / rat64 b| := by
    rw [abs_div, rat64_abs hm, rat64_abs hn]; push_cast
    generalize (2 : ℚ) ^ Fmt.b64.unit = U at *
    field_simp
  have key := round64_near (s != t) (num := m * 2 ^ Fmt.b64.unit) (den := n) (Nat.pos_of_ne_zero hn0) (e ▸ h)
  have e2 : signFactor (s != t) * (((m * 2 ^ Fmt.b64.unit : Nat) : ℚ) / n) / 2 ^ Fmt.b64.unit
      = rat64 a / rat64 b := by
    rw [rat64_of_val hm, rat64_of_val hn, signFactor_bne]; push_cast
    generalize (2 : ℚ) ^ Fmt.b64.unit = U at *
    have : signFactor t * signFactor t = 1 := by cases t <;> simp [signFactor]
    have ht : signFactor t ≠ 0 := by intro hz; simp [hz] at this
    field_simp
    rw [sq, this, mul_one]
  rw [e2] at key
  unfold div64
  rw [hm, hn]
  simp only [Val.div, if_neg hn0]
  exact key

/-- The sum of two finite values, each given by what it means; the shape `sub64` shares. -/
theorem addVal_near {s t : Bool} {m n : Nat}
    (h : |signFactor s * m / 2 ^ Fmt.b64.unit + signFactor t * n / 2 ^ Fmt.b64.unit| ≤ 2 ^ 200) :
    ∃ p, Val.add .b64 (.fin s m) (.fin t n) = some p ∧
      Near64 (BitVec.ofNat 64 p) (signFactor s * m / 2 ^ Fmt.b64.unit + signFactor t * n / 2 ^ Fmt.b64.unit) := by
  rw [← add_div] at h ⊢
  have hU : (0 : ℚ) < 2 ^ Fmt.b64.unit := by positivity
  have go : ∀ (u : Bool) (k : Nat), signFactor u * k = signFactor s * m + signFactor t * n →
      Near64 (BitVec.ofNat 64 (Fmt.b64.round u k 1)) ((signFactor s * m + signFactor t * n) / 2 ^ Fmt.b64.unit) := by
    intro u k hk
    rw [← hk] at h ⊢
    have := round64_near u (num := k) (den := 1) (by omega) (by
      rw [abs_div, abs_mul, abs_signFactor, one_mul, Nat.abs_cast, abs_of_pos hU] at h
      simpa using h)
    simpa using this
  by_cases hst : s = t
  · subst hst
    exact ⟨_, by simp only [Val.add, if_true], go s (m + n) (by push_cast; ring)⟩
  · have ht : signFactor t = -signFactor s := by
      rw [← signFactor_not]; cases s <;> cases t <;> first | rfl | exact absurd rfl hst
    simp only [Val.add, if_neg hst]
    rcases lt_trichotomy n m with hlt | rfl | hlt
    · exact ⟨_, by rw [if_pos hlt], go s (m - n) (by rw [Nat.cast_sub hlt.le, ht]; ring)⟩
    · refine ⟨0, by simp, ?_⟩
      rw [ht]
      have e : signFactor s * (n : ℚ) + -signFactor s * n = 0 := by ring
      rw [e, zero_div]
      have hv : val64 (BitVec.ofNat 64 0) = .fin false 0 := by decide +kernel
      unfold Near64
      refine And.intro (isFinite64_of_val hv) ?_
      rw [rat64_of_val hv, Nat.cast_zero, mul_zero, zero_div, sub_zero, abs_zero]
      generalize (2 : ℚ) ^ Fmt.b64.unit = U at *
      positivity
    · exact ⟨_, by rw [if_neg (by omega), if_pos hlt], go t (n - m) (by rw [Nat.cast_sub hlt.le, ht]; ring)⟩

theorem add64_near {a b : F64} (ha : isFinite64 a = true) (hb : isFinite64 b = true)
    (h : |rat64 a + rat64 b| ≤ 2 ^ 200) : Near64 (add64 a b) (rat64 a + rat64 b) := by
  obtain ⟨s, m, hm⟩ := isFinite64_iff.1 ha
  obtain ⟨t, n, hn⟩ := isFinite64_iff.1 hb
  rw [rat64_of_val hm, rat64_of_val hn] at *
  obtain ⟨p, hp, key⟩ := addVal_near h
  unfold add64
  rw [hm, hn, hp]
  exact key

theorem sub64_near {a b : F64} (ha : isFinite64 a = true) (hb : isFinite64 b = true)
    (h : |rat64 a - rat64 b| ≤ 2 ^ 200) : Near64 (sub64 a b) (rat64 a - rat64 b) := by
  obtain ⟨s, m, hm⟩ := isFinite64_iff.1 ha
  obtain ⟨t, n, hn⟩ := isFinite64_iff.1 hb
  rw [rat64_of_val hm, rat64_of_val hn] at *
  have e : signFactor s * (m : ℚ) / 2 ^ Fmt.b64.unit - signFactor t * n / 2 ^ Fmt.b64.unit =
      signFactor s * m / 2 ^ Fmt.b64.unit + signFactor (!t) * n / 2 ^ Fmt.b64.unit := by rw [signFactor_not]; ring
  rw [e] at h ⊢
  obtain ⟨p, hp, key⟩ := addVal_near h
  unfold sub64
  rw [hm, hn]
  simp only [Val.neg]
  rw [hp]
  exact key

/-- The last rounding of a coefficient (40_coeff_factory.md R111). -/
theorem rnd32_near {v : F64} (hv : isFinite64 v = true) (h : |rat64 v| ≤ 2 ^ 100) : Near32 (rnd32 v) (rat64 v) := by
  obtain ⟨s, m, hm⟩ := isFinite64_iff.1 hv
  have hle : Fmt.b64.unit = (Fmt.b64.unit - Fmt.b32.unit) + Fmt.b32.unit := by decide
  have e : ((m : ℚ) / ((2 ^ (Fmt.b64.unit - Fmt.b32.unit) : Nat) : ℚ)) / 2 ^ Fmt.b32.unit = m / 2 ^ Fmt.b64.unit := by
    rw [div_div]; push_cast; rw [← pow_add, ← hle]
  have key := round32_near s (num := m) (den := 2 ^ (Fmt.b64.unit - Fmt.b32.unit)) (by positivity)
    (by rw [e, ← rat64_abs hm]; exact h)
  rw [mul_div_assoc, e, ← mul_div_assoc, ← rat64_of_val hm] at key
  unfold rnd32
  rw [hm]
  exact key

/-! ### The square root -/

theorem sqrtBits_spec (x : Nat) : ∀ (b r : Nat), r * r ≤ x → x < (r + 2 ^ b) * (r + 2 ^ b) →
    sqrtBits x b r * sqrtBits x b r ≤ x ∧ x < (sqrtBits x b r + 1) * (sqrtBits x b r + 1)
  | 0, r, h, h' => ⟨h, by simpa [sqrtBits] using h'⟩
  | b + 1, r, h, h' => by
    unfold sqrtBits
    split
    · rename_i hc
      exact sqrtBits_spec x b _ hc (by rw [pow_succ] at h'; convert h' using 2 <;> ring)
    · rename_i hc
      exact sqrtBits_spec x b _ h (by omega)

theorem natSqrt_spec (x : Nat) : natSqrt x * natSqrt x ≤ x ∧ x < (natSqrt x + 1) * (natSqrt x + 1) := by
  refine sqrtBits_spec x _ 0 (by simp) ?_
  have h : x < 2 ^ (Nat.log2 x + 1) := Nat.lt_log2_self
  rw [Nat.zero_add, ← Nat.pow_add]
  exact h.trans_le (Nat.pow_le_pow_right (by omega) (by omega))

/-- Twice the whole root, and one where a remainder is left, is within one of twice the root. -/
theorem natSqrt_sticky (x : Nat) :
    |((2 * natSqrt x + if natSqrt x * natSqrt x = x then 0 else 1 : Nat) : ℝ) - 2 * √(x : ℝ)| ≤ 1 := by
  obtain ⟨h1, h2⟩ := natSqrt_spec x
  generalize natSqrt x = r at *
  have hlo : (r : ℝ) ≤ √(x : ℝ) := Real.le_sqrt_of_sq_le (by rw [sq]; exact_mod_cast h1)
  have hhi : √(x : ℝ) < r + 1 := by rw [Real.sqrt_lt' (by positivity), sq]; exact_mod_cast h2
  split
  · rename_i hc
    have : √(x : ℝ) = r := by rw [← hc, Nat.cast_mul]; exact Real.sqrt_mul_self (Nat.cast_nonneg r)
    rw [this]; push_cast; norm_num
  · push_cast
    rw [abs_le]; constructor <;> linarith

/-- The root is within half a unit in the last place and one least subnormal. -/
theorem sqrt64_near {a : F64} (ha : isFinite64 a = true) (hpos : 0 < rat64 a) (h : rat64 a ≤ 2 ^ 150) :
    isFinite64 (sqrt64 a) = true ∧
    |(rat64 (sqrt64 a) : ℝ) - √(rat64 a : ℝ)| ≤ √(rat64 a : ℝ) / 2 ^ 53 + 1 / 2 ^ Fmt.b64.unit := by
  obtain ⟨s, m, hm⟩ := isFinite64_iff.1 ha
  have hr := rat64_of_val hm
  have hs : s = false := by
    cases s
    · rfl
    · refine absurd hpos (not_lt.2 ?_)
      rw [hr]
      exact div_nonpos_of_nonpos_of_nonneg (by simp [signFactor]) (pow_nonneg (by norm_num) _)
  subst hs
  have hm0 : m ≠ 0 := by rintro rfl; rw [hr, Nat.cast_zero, mul_zero, zero_div] at hpos; exact lt_irrefl _ hpos
  have hsticky := natSqrt_sticky (m * 2 ^ Fmt.b64.unit * 16)
  have hval : sqrt64 a = BitVec.ofNat 64 (Fmt.b64.round false (2 * natSqrt (m * 2 ^ Fmt.b64.unit * 16) +
      if natSqrt (m * 2 ^ Fmt.b64.unit * 16) * natSqrt (m * 2 ^ Fmt.b64.unit * 16) = m * 2 ^ Fmt.b64.unit * 16
      then 0 else 1) 8) := by
    unfold sqrt64
    rw [hm]
    simp only [Val.sqrt, if_neg hm0, result64, Bool.false_eq_true, if_false]
  rw [hval]
  generalize (2 * natSqrt (m * 2 ^ Fmt.b64.unit * 16) +
      if natSqrt (m * 2 ^ Fmt.b64.unit * 16) * natSqrt (m * 2 ^ Fmt.b64.unit * 16) = m * 2 ^ Fmt.b64.unit * 16
      then 0 else 1) = N at *
  rw [Nat.cast_mul, Nat.cast_mul, Nat.cast_pow, Nat.cast_ofNat, Nat.cast_ofNat] at hsticky
  have hround := round64_near false (num := N) (den := 8) (by omega)
  rw [hr] at hpos h ⊢
  rw [signFactor, if_neg Bool.false_ne_true, one_mul] at hpos h hround ⊢
  -- the number of least subnormals in one, as a variable
  obtain ⟨U, hU⟩ : ∃ U : ℚ, U = 2 ^ Fmt.b64.unit := ⟨_, rfl⟩
  have hU' : (2 : ℝ) ^ Fmt.b64.unit = (U : ℝ) := by rw [hU, Rat.cast_pow, Rat.cast_ofNat]
  have hU1 : (1 : ℝ) ≤ (U : ℝ) := by rw [← hU']; exact one_le_pow₀ (by norm_num)
  unfold Near64 at hround
  rw [← hU] at hpos h hround ⊢
  rw [hU'] at hsticky ⊢
  rw [Rat.cast_div, Rat.cast_natCast]
  have hm' : (0 : ℝ) < m := by exact_mod_cast Nat.pos_of_ne_zero hm0
  have h' : (m : ℝ) / U ≤ 2 ^ 150 := by
    have := (Rat.cast_le (K := ℝ)).2 h
    rwa [Rat.cast_div, Rat.cast_natCast, Rat.cast_pow, Rat.cast_ofNat] at this
  clear hval hm hr hU hU' ha h hpos
  have hroot : √((m : ℝ) * U * 16) = √((m : ℝ) / U) * U * 4 := by
    have e : (m : ℝ) * U * 16 = (m : ℝ) / U * (U * 4) ^ 2 := by field_simp; ring
    rw [e, Real.sqrt_mul (by positivity), Real.sqrt_sq (by positivity)]; ring
  rw [hroot] at hsticky
  have hsq : √((m : ℝ) / U) ≤ 2 ^ 151 := Real.sqrt_le_iff.2 ⟨by positivity, h'.trans (by norm_num)⟩
  have hy : 0 ≤ √((m : ℝ) / U) := Real.sqrt_nonneg _
  generalize √((m : ℝ) / U) = y at *
  have hN := abs_le.1 hsticky
  have hov : (N : ℝ) / 8 / U ≤ 2 ^ 200 := by
    rw [div_le_iff₀ (by linarith)]
    have h1 : y * U ≤ 2 ^ 151 * U := mul_le_mul_of_nonneg_right hsq (by linarith)
    have h2 : ((2 : ℝ) ^ 151 + 1) * U ≤ 2 ^ 200 * U := mul_le_mul_of_nonneg_right (by norm_num) (by linarith)
    linarith
  obtain ⟨hfin, hnear⟩ := hround (by
    have : (((N : ℚ) / (8 : Nat) / U : ℚ) : ℝ) ≤ ((2 ^ 200 : ℚ) : ℝ) := by push_cast; exact hov
    exact (Rat.cast_le (K := ℝ)).1 this)
  refine And.intro hfin ?_
  generalize rat64 (BitVec.ofNat 64 (Fmt.b64.round false N 8)) = v at *
  have hnear' := (Rat.cast_le (K := ℝ)).2 hnear
  push_cast at hnear'
  have hx : (0 : ℝ) ≤ N / 8 / U := by positivity
  rw [abs_of_nonneg hx] at hnear'
  have hxy : |(N : ℝ) / 8 / U - y| ≤ 1 / 8 / U := by
    have : (N : ℝ) / 8 / U - y = ((N : ℝ) - 2 * (y * U * 4)) / 8 / U := by field_simp; ring
    rw [this, div_div, abs_div, abs_of_pos (show (0 : ℝ) < 8 * U by linarith), div_div]; gcongr
  have e2 : (1 : ℝ) / 2 / U = 1 / 2 * (1 / U) := by ring
  have e3 : (1 : ℝ) / 8 / U = 1 / 8 * (1 / U) := by ring
  rw [e2] at hnear'
  rw [e3] at hxy
  have hi : (0 : ℝ) ≤ 1 / U := by positivity
  generalize (1 : ℝ) / U = u at *
  generalize (N : ℝ) / 8 / U = x at *
  have := abs_le.1 hxy
  have := abs_le.1 hnear'
  rw [abs_le]
  constructor <;> linarith

/-! ### Widening -/

theorem widen_near {x : F32} (hx : isFinite32 x = true) (h : |rat32 x| ≤ 2 ^ 130) : Near64 (widen x) (rat32 x) := by
  obtain ⟨s, m, hm⟩ := isFinite32_iff.1 hx
  have hU : (0 : ℚ) < 2 ^ Fmt.b32.unit := by positivity
  have hle : Fmt.b64.unit = (Fmt.b64.unit - Fmt.b32.unit) + Fmt.b32.unit := by decide
  have e : (((m * 2 ^ (Fmt.b64.unit - Fmt.b32.unit) : Nat) : ℚ) / ((1 : Nat) : ℚ)) / 2 ^ Fmt.b64.unit =
      m / 2 ^ Fmt.b32.unit := by
    rw [Nat.cast_one, div_one, Nat.cast_mul, Nat.cast_pow, Nat.cast_ofNat, hle, pow_add, Nat.add_sub_cancel]
    rw [mul_comm ((2 : ℚ) ^ (Fmt.b64.unit - Fmt.b32.unit)), mul_div_mul_right _ _ (pow_ne_zero _ (by norm_num))]
  have key := round64_near s (num := m * 2 ^ (Fmt.b64.unit - Fmt.b32.unit)) (den := 1) (by omega) (by
    rw [e]
    rw [rat32_of_val hm, abs_div, abs_mul, abs_signFactor, one_mul, Nat.abs_cast, abs_of_pos hU] at h
    exact h.trans (pow_le_pow_right₀ (by norm_num) (by norm_num)))
  rw [mul_div_assoc, e, ← mul_div_assoc, ← rat32_of_val hm] at key
  unfold widen
  rw [hm]
  exact key
/-! ### Order -/

/-- A finite magnitude is below what stands for infinity in the order. -/
theorem Fmt.magnitude_lt (f : Fmt) {p : Nat} (hp : p < f.infPattern) : f.magnitude p < 2 ^ (f.frac + 2 ^ f.exp) := by
  have h2 : 0 < 2 ^ f.frac := Nat.two_pow_pos _
  have he : p / 2 ^ f.frac < 2 ^ f.exp - 1 := (Nat.div_lt_iff_lt_mul h2).2 hp
  unfold magnitude
  split
  · rename_i h0
    exact ((Nat.div_eq_zero_iff_lt h2).1 h0).trans_le (Nat.pow_le_pow_right (by omega) (by omega))
  · have hm := Nat.mod_lt p h2
    calc (2 ^ f.frac + p % 2 ^ f.frac) * 2 ^ (p / 2 ^ f.frac - 1)
        < 2 ^ (f.frac + 1) * 2 ^ (p / 2 ^ f.frac - 1) :=
          Nat.mul_lt_mul_of_pos_right (by rw [Nat.pow_succ]; omega) (Nat.two_pow_pos _)
      _ = 2 ^ (f.frac + 1 + (p / 2 ^ f.frac - 1)) := (Nat.pow_add ..).symm
      _ ≤ _ := Nat.pow_le_pow_right (by omega) (by
        generalize p / 2 ^ f.frac = e at *
        generalize 2 ^ f.exp = E at *
        omega)

theorem le64_iff_rat {a b : F64} (ha : isFinite64 a = true) (hb : isFinite64 b = true) :
    le64 a b = true ↔ rat64 a ≤ rat64 b := by
  obtain ⟨s, m, hm⟩ := isFinite64_iff.1 ha
  obtain ⟨t, n, hn⟩ := isFinite64_iff.1 hb
  have hU : (0 : ℚ) < 2 ^ Fmt.b64.unit := pow_pos (by norm_num) _
  rw [le64_iff]
  unfold rat64
  rw [div_le_div_iff_of_pos_right hU, Int.cast_le, isNaN64, isNaN64, hm, hn]
  simp

/-- A pattern between two finite ones is finite. -/
theorem isFinite64_of_between {lo x hi : F64} (hlo : isFinite64 lo = true) (hhi : isFinite64 hi = true)
    (h : le64 lo x = true) (h' : le64 x hi = true) : isFinite64 x = true := by
  obtain ⟨s, m, hm⟩ := isFinite64_iff.1 hlo
  obtain ⟨t, n, hn⟩ := isFinite64_iff.1 hhi
  have bound : ∀ {v : F64} {s m}, val64 v = .fin s m → m < 2 ^ (Fmt.b64.frac + 2 ^ Fmt.b64.exp) := by
    intro v s m hv
    unfold val64 Fmt.unpack at hv
    simp only at hv
    split at hv
    · rename_i hp
      cases hv
      exact Fmt.b64.magnitude_lt hp
    · split at hv <;> cases hv
  have hb1 := bound hm
  have hb2 := bound hn
  rw [le64_iff] at h h'
  unfold isFinite64
  generalize hv : val64 x = v at *
  cases v with
  | nan => simp [isNaN64, hv] at h
  | fin => rfl
  | inf u =>
    have l := h.2.2
    have r := h'.2.2
    rw [hm] at l
    rw [hn] at r
    unfold Val.order at l r
    generalize 2 ^ (Fmt.b64.frac + 2 ^ Fmt.b64.exp) = B at *
    cases u <;> cases s <;> cases t <;> simp only [Bool.false_eq_true, if_true, if_false] at l r <;> omega

/-! ### The premise of one unit in the last place -/

theorem ulp64_le {r : F64} (hr : isFinite64 r = true) : ulp64 r ≤ |rat64 r| / 2 ^ 52 + 1 / 2 ^ Fmt.b64.unit := by
  obtain ⟨s, m, hm⟩ := isFinite64_iff.1 hr
  have hU : (0 : ℚ) < 2 ^ Fmt.b64.unit := pow_pos (by norm_num) _
  rw [rat64_abs hm]
  have e : (((val64 r).order .b64)).natAbs = m := by rw [hm]; cases s <;> simp [Val.order]
  unfold ulp64
  rw [e, show Fmt.b64.frac = 52 from rfl]
  have key : (2 : ℚ) ^ (Nat.log2 m - 52) ≤ m / 2 ^ 52 + 1 := by
    by_cases h : 52 ≤ Nat.log2 m
    · have hm0 : m ≠ 0 := by rintro rfl; simp at h
      have h1 : 2 ^ (Nat.log2 m - 52 + 52) ≤ m := by rw [Nat.sub_add_cancel h]; exact Nat.log2_self_le hm0
      have h2 : ((2 ^ (Nat.log2 m - 52 + 52) : Nat) : ℚ) ≤ m := Nat.cast_le.2 h1
      rw [Nat.cast_pow, Nat.cast_ofNat, pow_add] at h2
      have := (le_div_iff₀ (show (0 : ℚ) < 2 ^ 52 by norm_num)).2 h2
      linarith
    · rw [Nat.sub_eq_zero_of_le (by omega), pow_zero]
      have : (0 : ℚ) ≤ (m : ℚ) / 2 ^ 52 := div_nonneg (Nat.cast_nonneg _) (by norm_num)
      linarith
  calc _ ≤ ((m : ℚ) / 2 ^ 52 + 1) / 2 ^ Fmt.b64.unit := div_le_div_of_nonneg_right key hU.le
    _ = _ := by rw [add_div, div_right_comm]

/-- Some finite pattern lies within half a unit in the last place and a least subnormal or two of any number. -/
theorem exists_near (y : ℝ) (h : |y| ≤ 2 ^ 150) :
    ∃ u, isFinite64 u = true ∧ |(rat64 u : ℝ) - y| ≤ |y| / 2 ^ 53 + 2 / 2 ^ Fmt.b64.unit := by
  obtain ⟨U, hU⟩ : ∃ U : ℚ, U = 2 ^ Fmt.b64.unit := ⟨_, rfl⟩
  have hU' : (2 : ℝ) ^ Fmt.b64.unit = (U : ℝ) := by rw [hU, Rat.cast_pow, Rat.cast_ofNat]
  have hU1 : (1 : ℝ) ≤ (U : ℝ) := by rw [← hU']; exact one_le_pow₀ (by norm_num)
  obtain ⟨s, hs⟩ : ∃ s : Bool, y = (signFactor s : ℝ) * |y| := by
    rcases le_or_gt 0 y with h0 | h0
    · exact ⟨false, by simp [signFactor, abs_of_nonneg h0]⟩
    · exact ⟨true, by simp [signFactor, abs_of_neg h0]⟩
  have hround := round64_near s (num := ⌊|y| * U⌋₊) (den := 1) (by omega)
  unfold Near64 at hround
  rw [← hU] at hround
  rw [hU']
  have hfl := Nat.floor_le (show (0 : ℝ) ≤ |y| * U by positivity)
  have hfl' := Nat.lt_floor_add_one (|y| * (U : ℝ))
  generalize ⌊|y| * (U : ℝ)⌋₊ = N at *
  have hUp : (0 : ℝ) < U := by linarith
  have hNy : (N : ℝ) / U ≤ |y| := (div_le_iff₀ hUp).2 hfl
  have hyN : |y| ≤ (N : ℝ) / U + 1 / U := by
    rw [← add_div]; exact (le_div_iff₀ hUp).2 hfl'.le
  rw [Nat.cast_one, div_one] at hround
  obtain ⟨hfin, hnear⟩ := hround ((Rat.cast_le (K := ℝ)).1 (by
    rw [Rat.cast_div, Rat.cast_natCast, Rat.cast_pow, Rat.cast_ofNat]
    exact (hNy.trans h).trans (by norm_num)))
  refine ⟨_, hfin, ?_⟩
  generalize rat64 (BitVec.ofNat 64 (Fmt.b64.round s N 1)) = v at *
  have hnear' := (Rat.cast_le (K := ℝ)).2 hnear
  push_cast at hnear'
  have hs1 : |(signFactor s : ℝ)| = 1 := by rw [← Rat.cast_abs, abs_signFactor, Rat.cast_one]
  have hx : |(signFactor s : ℝ) * N / U| = N / U := by
    rw [abs_div, abs_mul, hs1, one_mul, Nat.abs_cast, abs_of_pos hUp]
  have hxy : |(signFactor s : ℝ) * N / U - y| ≤ 1 / U := by
    have e : (signFactor s : ℝ) * N / U - y = signFactor s * (N / U - |y|) := by
      conv_lhs => rw [hs]
      ring
    rw [e, abs_mul, hs1, one_mul, abs_le]
    have : (0 : ℝ) ≤ 1 / U := by positivity
    constructor <;> linarith
  rw [hx] at hnear'
  have e2 : (1 : ℝ) / 2 / U = 1 / 2 * (1 / U) := by ring
  have e3 : (2 : ℝ) / U = 2 * (1 / U) := by ring
  rw [e2] at hnear'
  rw [e3]
  have hi : (0 : ℝ) ≤ 1 / U := by positivity
  generalize (1 : ℝ) / U = u at *
  have h1 := abs_le.1 hxy
  have h2 := abs_le.1 hnear'
  rw [abs_le]
  constructor <;> linarith

/-- What the premise of 40_coeff_factory.md R112 bounds: a relative error of 2^-51, or a few least subnormals. -/
theorem withinOneUlp_near {y : ℝ} {v : F64} (h : WithinOneUlp y v) (hy : |y| ≤ 2 ^ 150) :
    |(rat64 v : ℝ) - y| ≤ |y| / 2 ^ 51 + 8 / 2 ^ Fmt.b64.unit := by
  obtain ⟨-, r, ⟨hr, hnearest⟩, hulp⟩ := h
  obtain ⟨u, hu, hnear⟩ := exists_near y hy
  have h1 := (hnearest u hu).trans hnear
  have h2 := (Rat.cast_le (K := ℝ)).2 (hulp.trans (ulp64_le hr))
  push_cast at h2
  have hi : (0 : ℝ) ≤ 1 / 2 ^ Fmt.b64.unit := div_nonneg (by norm_num) (pow_nonneg (by norm_num) _)
  have e2 : (2 : ℝ) / 2 ^ Fmt.b64.unit = 2 * (1 / 2 ^ Fmt.b64.unit) := by ring
  have e8 : (8 : ℝ) / 2 ^ Fmt.b64.unit = 8 * (1 / 2 ^ Fmt.b64.unit) := by ring
  rw [e2] at h1
  rw [e8]
  generalize (1 : ℝ) / 2 ^ Fmt.b64.unit = k at *
  have h3 : |(rat64 r : ℝ)| ≤ |y| + |(rat64 r : ℝ) - y| := by
    have := abs_add_le y ((rat64 r : ℝ) - y)
    rwa [add_sub_cancel] at this
  have h4 : |(rat64 v : ℝ) - y| ≤ |(rat64 v : ℝ) - rat64 r| + |(rat64 r : ℝ) - y| := abs_sub_le _ _ _
  have := abs_nonneg y
  generalize |(rat64 r : ℝ)| = a at *
  generalize |(rat64 v : ℝ) - rat64 r| = b at *
  generalize |(rat64 v : ℝ) - y| = c at *
  generalize |(rat64 r : ℝ) - y| = d at *
  linarith

/-! ### Working bounds -/

/-- The least subnormal is far below every margin of the factory. -/
theorem least_le : (1 : ℚ) / 2 ^ Fmt.b64.unit ≤ 1 / 2 ^ 200 :=
  one_div_le_one_div_of_le (by norm_num) (pow_le_pow_right₀ (by norm_num) (by decide))

theorem Near64.error {v : F64} {x : ℚ} (h : Near64 v x) : |rat64 v - x| ≤ |x| / 2 ^ 53 + 1 / 2 ^ 200 := by
  have := h.2
  have hl := least_le
  have e : (1 : ℚ) / 2 / 2 ^ Fmt.b64.unit = 1 / 2 * (1 / 2 ^ Fmt.b64.unit) := by ring
  rw [e] at this
  have hp : (0 : ℚ) ≤ 1 / 2 ^ Fmt.b64.unit := div_nonneg (by norm_num) (pow_nonneg (by norm_num) _)
  linarith

/-- A rounded positive value, well above the subnormals: one part in 10^15. -/
theorem Near64.relative {v : F64} {x : ℚ} (h : Near64 v x) (hx : 1 / 2 ^ 100 ≤ x) :
    x * (1 - 1 / 10 ^ 15) ≤ rat64 v ∧ rat64 v ≤ x * (1 + 1 / 10 ^ 15) := by
  have hp : (0 : ℚ) < 1 / 2 ^ 100 := by positivity
  have he := h.error
  rw [abs_of_pos (hp.trans_le hx)] at he
  have hs : x / 2 ^ 53 + 1 / 2 ^ 200 ≤ x * (1 / 10 ^ 15) := by
    have : (1 : ℚ) / 2 ^ 200 ≤ 1 / 2 ^ 100 * (1 / 10 ^ 15 / 2) := by norm_num
    have h2 : (1 : ℚ) / 2 ^ 100 * (1 / 10 ^ 15 / 2) ≤ x * (1 / 10 ^ 15 / 2) := mul_le_mul_of_nonneg_right hx (by norm_num)
    have h3 : x / 2 ^ 53 ≤ x * (1 / 10 ^ 15 / 2) := by
      rw [div_eq_mul_inv]
      exact mul_le_mul_of_nonneg_left (by norm_num) (hp.trans_le hx).le
    have e : x * (1 / 10 ^ 15) = x * (1 / 10 ^ 15 / 2) + x * (1 / 10 ^ 15 / 2) := by ring
    linarith
  obtain ⟨a, b⟩ := abs_le.1 (he.trans hs)
  constructor <;> linarith

theorem Near32.error {v : F32} {x : ℚ} (h : Near32 v x) : |rat32 v - x| ≤ |x| / 2 ^ 24 + 1 / 2 ^ 149 := by
  have := h.2
  have e : (1 : ℚ) / 2 / 2 ^ Fmt.b32.unit = 1 / 2 * (1 / 2 ^ 149) := by rw [show Fmt.b32.unit = 149 from rfl]; ring
  rw [e] at this
  have hp : (0 : ℚ) ≤ 1 / 2 ^ 149 := by positivity
  linarith

/-! ### Constants, unary minus and the order of roundings -/

theorem fin_one64 : isFinite64 one64 = true := isFinite64_of_val val_one64

theorem rat_one64 : rat64 one64 = 1 := by
  rw [show rat64 one64 = _ from rat64_of_val val_one64, signFactor, if_neg Bool.false_ne_true, one_mul]
  rw [Nat.cast_pow, Nat.cast_ofNat]; exact div_self (pow_ne_zero _ (by norm_num))

/-- The number of a constant with `k` binary places. -/
theorem rat64_dyadic {v : F64} {s : Bool} {N k : Nat} (hk : k ≤ Fmt.b64.unit)
    (h : val64 v = .fin s (N * 2 ^ (Fmt.b64.unit - k))) : rat64 v = signFactor s * N / 2 ^ k := by
  rw [rat64_of_val h, Nat.cast_mul, Nat.cast_pow, Nat.cast_ofNat,
    div_eq_div_iff (pow_ne_zero _ (by norm_num)) (pow_ne_zero _ (by norm_num)), ← mul_assoc, mul_assoc, ← pow_add,
    Nat.sub_add_cancel hk]

/-- The number of a whole binary32 constant. -/
theorem rat32_whole {x : F32} {N : Nat} (h : val32 x = .fin false (N * 2 ^ Fmt.b32.unit)) : rat32 x = N := by
  rw [rat32_of_val h, signFactor, if_neg Bool.false_ne_true, one_mul, Nat.cast_mul, Nat.cast_pow, Nat.cast_ofNat,
    mul_div_assoc, div_self (pow_ne_zero _ (by norm_num)), mul_one]

theorem rat_one32 : rat32 0x3F800000#32 = 1 := by
  rw [rat32_of_val val_one32, signFactor, if_neg Bool.false_ne_true, one_mul, Nat.cast_pow, Nat.cast_ofNat]
  exact div_self (pow_ne_zero _ (by norm_num))

/-- Unary minus changes the sign and nothing else, of a NaN too. -/
theorem val64_neg64 (v : F64) : val64 (neg64 v) = (val64 v).neg := by
  have e : (neg64 v).toNat = v.toNat ^^^ 2 ^ 63 := by
    unfold neg64; rw [BitVec.toNat_xor]; rfl
  have hd : (v.toNat ^^^ 2 ^ 63) / 2 ^ 63 = v.toNat / 2 ^ 63 ^^^ 1 := by
    rw [Nat.xor_div_two_pow, Nat.div_self (Nat.two_pow_pos _)]
  have hm : (v.toNat ^^^ 2 ^ 63) % 2 ^ 63 = v.toNat % 2 ^ 63 := by
    rw [Nat.xor_mod_two_pow, Nat.mod_self, Nat.xor_zero]
  have hq : v.toNat / 2 ^ 63 < 2 := by
    have := v.isLt
    omega
  unfold val64 Fmt.unpack
  rw [e, show Fmt.b64.frac + Fmt.b64.exp = 63 from rfl, hd, hm]
  generalize v.toNat / 2 ^ 63 = q at *
  generalize v.toNat % 2 ^ 63 = p at *
  have hs : decide ((q ^^^ 1) % 2 = 1) = !decide (q % 2 = 1) := by
    rcases Nat.lt_or_ge q 1 with h | h
    · obtain rfl : q = 0 := by omega
      rfl
    · obtain rfl : q = 1 := by omega
      rfl
  simp only [hs]
  split
  · rfl
  · split <;> rfl

/-- Unary minus is exact. -/
theorem neg64_exact {v : F64} (h : isFinite64 v = true) : isFinite64 (neg64 v) = true ∧ rat64 (neg64 v) = -rat64 v := by
  obtain ⟨s, m, hm⟩ := isFinite64_iff.1 h
  have hn : val64 (neg64 v) = .fin (!s) m := by rw [val64_neg64, hm]; rfl
  refine ⟨isFinite64_of_val hn, ?_⟩
  rw [rat64_of_val hn, rat64_of_val hm, signFactor_not, neg_mul, neg_div]

/-- The last rounding keeps the order of positive values. -/
theorem rnd32_mono {x y : F64} (hx : isFinite64 x = true) (hy : isFinite64 y = true) (h0 : 0 < rat64 x)
    (h : rat64 x ≤ rat64 y) (hb : rat64 y ≤ 2 ^ 100) : rat32 (rnd32 x) ≤ rat32 (rnd32 y) := by
  have pos : ∀ {v : F64}, isFinite64 v = true → 0 < rat64 v → ∃ m, val64 v = .fin false m := by
    intro v hv hp
    obtain ⟨s, m, hm⟩ := isFinite64_iff.1 hv
    cases s
    · exact ⟨m, hm⟩
    · refine absurd hp (not_lt.2 ?_)
      rw [rat64_of_val hm]
      exact div_nonpos_of_nonpos_of_nonneg (by simp [signFactor]) (pow_nonneg (by norm_num) _)
  obtain ⟨m, hm⟩ := pos hx h0
  obtain ⟨n, hn⟩ := pos hy (h0.trans_le h)
  have hU : (0 : ℚ) < 2 ^ Fmt.b64.unit := pow_pos (by norm_num) _
  have hmn : m ≤ n := by
    rw [rat64_of_val hm, rat64_of_val hn, signFactor, if_neg Bool.false_ne_true, one_mul, one_mul,
      div_le_div_iff_of_pos_right hU] at h
    exact_mod_cast h
  have hbn : n ≤ 2 ^ (100 + Fmt.b64.unit) := by
    rw [rat64_of_val hn, signFactor, if_neg Bool.false_ne_true, one_mul, div_le_iff₀ hU] at hb
    have hb' : (n : ℚ) ≤ ((2 ^ (100 + Fmt.b64.unit) : Nat) : ℚ) := by
      rw [Nat.cast_pow, Nat.cast_ofNat, pow_add]
      exact hb
    exact Nat.cast_le.1 hb'
  have fin : ∀ k, k ≤ 2 ^ (100 + Fmt.b64.unit) →
      Fmt.b32.roundMag k (2 ^ (Fmt.b64.unit - Fmt.b32.unit)) < Fmt.b32.infPattern := by
    intro k hk
    refine (Fmt.b32.roundMag_le (e := 226) ((Nat.div_lt_iff_lt_mul (Nat.two_pow_pos _)).2 ?_)).trans_lt (by decide)
    rw [← Nat.pow_add 2 (Fmt.b32.frac + 1 + 226)]
    exact hk.trans_lt (Nat.pow_lt_pow_right (by omega) (by decide))
  have val : ∀ {v : F64} {k : Nat}, val64 v = .fin false k → k ≤ 2 ^ (100 + Fmt.b64.unit) →
      rat32 (rnd32 v) =
        (Fmt.b32.magnitude (Fmt.b32.roundMag k (2 ^ (Fmt.b64.unit - Fmt.b32.unit))) : ℚ) / 2 ^ Fmt.b32.unit := by
    intro v k hv hk
    have hlt := fin k hk
    have h3 := (Fmt.b32.signBit_add false (hlt.trans Fmt.b32.infPattern_lt)).2.2
    have : val32 (rnd32 v) = .fin false (Fmt.b32.magnitude (Fmt.b32.roundMag k (2 ^ (Fmt.b64.unit - Fmt.b32.unit)))) := by
      unfold rnd32
      rw [hv]
      simp only [Fmt.round, val32]
      rw [BitVec.toNat_ofNat, show 2 ^ 32 = 2 ^ (Fmt.b32.frac + Fmt.b32.exp + 1) from rfl, Nat.mod_eq_of_lt h3]
      exact Fmt.unpack_finite _ _ hlt
    rw [rat32_of_val this, signFactor, if_neg Bool.false_ne_true, one_mul]
  rw [val hm (hmn.trans hbn), val hn hbn]
  refine div_le_div_of_nonneg_right ?_ (pow_nonneg (by norm_num) _)
  exact_mod_cast Fmt.b32.magnitude_roundMag_mono hmn (fin _ hbn) (fin _ (hmn.trans hbn))

theorem isNaN64_of_finite {a : F64} (h : isFinite64 a = true) : isNaN64 a = false := by
  obtain ⟨s, m, hm⟩ := isFinite64_iff.1 h
  unfold isNaN64; rw [hm]; rfl

/-! ### Which patterns are the reference -/

/-- A magnitude of a binade is a whole number of that binade's units. -/
theorem Fmt.dvd_magnitude (f : Fmt) {p k : Nat} (h : 2 ^ (f.frac + k) ≤ f.magnitude p) : 2 ^ k ∣ f.magnitude p := by
  have h2 : 0 < 2 ^ f.frac := Nat.two_pow_pos _
  unfold magnitude at *
  split at h
  · rename_i h0
    have : p < 2 ^ f.frac := (Nat.div_eq_zero_iff_lt h2).1 h0
    have : 2 ^ f.frac ≤ 2 ^ (f.frac + k) := Nat.pow_le_pow_right (by omega) (by omega)
    omega
  · rename_i h0
    rw [if_neg h0]
    have hm := Nat.mod_lt p h2
    have hlt : (2 ^ f.frac + p % 2 ^ f.frac) * 2 ^ (p / 2 ^ f.frac - 1) < 2 ^ (f.frac + 1 + (p / 2 ^ f.frac - 1)) := by
      rw [Nat.pow_add]
      exact Nat.mul_lt_mul_of_pos_right (by rw [Nat.pow_succ]; omega) (Nat.two_pow_pos _)
    have := (Nat.pow_lt_pow_iff_right (a := 2) (by omega)).1 (h.trans_lt hlt)
    exact (Nat.pow_dvd_pow 2 (by omega)).trans (Nat.dvd_mul_left _ _)

theorem val64_magnitude {v : F64} {s : Bool} {m : Nat} (h : val64 v = .fin s m) : ∃ p, m = Fmt.b64.magnitude p := by
  unfold val64 Fmt.unpack at h
  simp only at h
  split at h
  · cases h; exact ⟨_, rfl⟩
  · split at h <;> cases h

/-- Beside a value that is no power of two, every other value is at least a unit in the last place away. -/
theorem one_unit_apart {r u : F64} {s : Bool} {M k : Nat} (hr : val64 r = .fin s (M * 2 ^ k)) (h1 : 2 ^ 52 < M)
    (hu : isFinite64 u = true) : rat64 u = rat64 r ∨ 2 ^ k / 2 ^ Fmt.b64.unit ≤ |rat64 u - rat64 r| := by
  obtain ⟨t, n, hn⟩ := isFinite64_iff.1 hu
  obtain ⟨p, hp⟩ := val64_magnitude hn
  have hU : (0 : ℚ) < 2 ^ Fmt.b64.unit := pow_pos (by norm_num) _
  rw [rat64_of_val hr, rat64_of_val hn, ← sub_div, abs_div, abs_of_pos hU, div_le_div_iff_of_pos_right hU]
  have hk : 0 < 2 ^ k := Nat.two_pow_pos _
  by_cases hst : t = s
  · subst hst
    rw [← mul_sub, abs_mul, abs_signFactor, one_mul]
    have key : n = M * 2 ^ k ∨ n + 2 ^ k ≤ M * 2 ^ k ∨ M * 2 ^ k + 2 ^ k ≤ n := by
      by_cases hbig : 2 ^ (52 + k) ≤ n
      · obtain ⟨N, rfl⟩ : 2 ^ k ∣ n := by rw [hp] at hbig ⊢; exact Fmt.b64.dvd_magnitude hbig
        rw [Nat.mul_comm (2 ^ k) N]
        rcases Nat.lt_trichotomy N M with h | rfl | h
        · right; left
          calc N * 2 ^ k + 2 ^ k = (N + 1) * 2 ^ k := by ring
            _ ≤ _ := Nat.mul_le_mul_right _ h
        · left; rfl
        · right; right
          calc M * 2 ^ k + 2 ^ k = (M + 1) * 2 ^ k := by ring
            _ ≤ _ := Nat.mul_le_mul_right _ h
      · right; left
        have : (2 ^ 52 + 1) * 2 ^ k ≤ M * 2 ^ k := Nat.mul_le_mul_right _ h1
        rw [Nat.pow_add] at hbig
        rw [Nat.add_mul] at this
        omega
    rcases key with h | h | h
    · left; rw [h]
    · right
      have : (n : ℚ) + 2 ^ k ≤ (M * 2 ^ k : Nat) := by exact_mod_cast h
      rw [abs_sub_comm]
      exact le_trans (by linarith) (le_abs_self _)
    · right
      have : ((M * 2 ^ k : Nat) : ℚ) + 2 ^ k ≤ n := by exact_mod_cast h
      exact le_trans (by linarith) (le_abs_self _)
  · right
    have hs : signFactor s = -signFactor t := by
      rw [← signFactor_not]; cases s <;> cases t <;> first | rfl | exact absurd rfl hst
    rw [hs, neg_mul, sub_neg_eq_add, ← mul_add, abs_mul, abs_signFactor, one_mul, ← Nat.cast_add, Nat.abs_cast]
    have : 2 ^ k ≤ n + M * 2 ^ k := by nlinarith
    exact_mod_cast this

/-- Within half a unit in the last place, a value that is no power of two is the reference. -/
theorem correctlyRounded_of_close {r : F64} {s : Bool} {M k : Nat} (hr : val64 r = .fin s (M * 2 ^ k)) (h1 : 2 ^ 52 < M)
    {y : ℝ} (hy : |(rat64 r : ℝ) - y| ≤ 2 ^ k / 2 ^ Fmt.b64.unit / 2) : CorrectlyRounded y r := by
  refine ⟨isFinite64_of_val hr, fun u hu => ?_⟩
  rcases one_unit_apart hr h1 hu with h | h
  · rw [h]
  · have h' := (Rat.cast_le (K := ℝ)).2 h
    rw [Rat.cast_abs, Rat.cast_sub, Rat.cast_div, Rat.cast_pow, Rat.cast_pow, Rat.cast_ofNat] at h'
    have := abs_sub_le (rat64 u : ℝ) y (rat64 r)
    rw [abs_sub_comm y] at this
    generalize (2 : ℝ) ^ k / 2 ^ Fmt.b64.unit = e at *
    linarith

/-- A number that binary64 represents is its own reference. -/
theorem correctlyRounded_rat64 {r : F64} (h : isFinite64 r = true) : CorrectlyRounded (rat64 r) r :=
  ⟨h, fun u _ => by rw [sub_self, abs_zero]; exact abs_nonneg _⟩

/-- The reference is within one unit of itself. -/
theorem withinOneUlp_reference {y : ℝ} {r : F64} (h : CorrectlyRounded y r) : WithinOneUlp y r :=
  ⟨h.1, r, h, by
    rw [sub_self, abs_zero]
    unfold ulp64
    exact div_nonneg (pow_nonneg (by norm_num) _) (pow_nonneg (by norm_num) _)⟩

end Sys2Proof.Machine
end

