-- ==== Sys2Proof/Laws/FactoryRange.lean ====
section
/-! SUPPORT. The numbers the factory works with: the range of every converted parameter and angle, and how far each value of
a design lies from the exact one (40_coeff_factory.md sections 2 to 6), for cosines, sines and gains that meet the premise of
R112's last sentences. -/
namespace Sys2Proof.Machine

/-! ### Constants of the factory -/

/-- The binary64 constants of the designs and of the lemmas below: pattern, sign, whole number and binary places. -/
def constants : List (F64 × Bool × Nat × Nat) :=
  [(0x4000000000000000#64, false, 2, 0),
   (0xC000000000000000#64, true, 2, 0),
   (0x4034000000000000#64, false, 20, 0),
   (0x40D3880000000000#64, false, 20000, 0),
   (0x4038000000000000#64, false, 24, 0),
   (0xC038000000000000#64, true, 24, 0),
   (0x4024000000000000#64, false, 10, 0),
   (0x3FB999999999999A#64, false, 7205759403792794, 56),
   (0x3FDF5C28F5C28F5C#64, false, 8827055269646172, 54),
   (0x401921FB54442D18#64, false, 7074237752028440, 50),
   (0x3FE0000000000000#64, false, 1, 1),
   (0x4008000000000000#64, false, 3, 0),
   (0x3FF0000000800000#64, false, 536870913, 29)]

theorem constants_decode : (constants.all fun e =>
    decide (val64 e.1 = .fin e.2.1 (e.2.2.1 * 2 ^ (Fmt.b64.unit - e.2.2.2)) ∧ e.2.2.2 ≤ Fmt.b64.unit)) = true := by
  decide +kernel

theorem constant {v : F64} {s : Bool} {N k : Nat} (h : (v, s, N, k) ∈ constants) :
    isFinite64 v = true ∧ rat64 v = signFactor s * N / 2 ^ k := by
  obtain ⟨hv, hk⟩ := of_decide_eq_true (List.all_eq_true.1 constants_decode _ h)
  exact ⟨isFinite64_of_val hv, rat64_dyadic hk hv⟩

theorem const_two64 : isFinite64 0x4000000000000000#64 = true ∧ rat64 0x4000000000000000#64 = 2 := by
  have h := constant (v := 0x4000000000000000#64) (s := false) (N := 2) (k := 0) (by simp [constants])
  refine ⟨h.1, h.2.trans ?_⟩
  norm_num [signFactor]

theorem const_negTwo64 : isFinite64 0xC000000000000000#64 = true ∧ rat64 0xC000000000000000#64 = -2 := by
  have h := constant (v := 0xC000000000000000#64) (s := true) (N := 2) (k := 0) (by simp [constants])
  refine ⟨h.1, h.2.trans ?_⟩
  norm_num [signFactor]

theorem const_20 : isFinite64 0x4034000000000000#64 = true ∧ rat64 0x4034000000000000#64 = 20 := by
  have h := constant (v := 0x4034000000000000#64) (s := false) (N := 20) (k := 0) (by simp [constants])
  refine ⟨h.1, h.2.trans ?_⟩
  norm_num [signFactor]

theorem const_20000 : isFinite64 0x40D3880000000000#64 = true ∧ rat64 0x40D3880000000000#64 = 20000 := by
  have h := constant (v := 0x40D3880000000000#64) (s := false) (N := 20000) (k := 0) (by simp [constants])
  refine ⟨h.1, h.2.trans ?_⟩
  norm_num [signFactor]

theorem const_24 : isFinite64 0x4038000000000000#64 = true ∧ rat64 0x4038000000000000#64 = 24 := by
  have h := constant (v := 0x4038000000000000#64) (s := false) (N := 24) (k := 0) (by simp [constants])
  refine ⟨h.1, h.2.trans ?_⟩
  norm_num [signFactor]

theorem const_neg24 : isFinite64 0xC038000000000000#64 = true ∧ rat64 0xC038000000000000#64 = -24 := by
  have h := constant (v := 0xC038000000000000#64) (s := true) (N := 24) (k := 0) (by simp [constants])
  refine ⟨h.1, h.2.trans ?_⟩
  norm_num [signFactor]

theorem const_10 : isFinite64 0x4024000000000000#64 = true ∧ rat64 0x4024000000000000#64 = 10 := by
  have h := constant (v := 0x4024000000000000#64) (s := false) (N := 10) (k := 0) (by simp [constants])
  refine ⟨h.1, h.2.trans ?_⟩
  norm_num [signFactor]

theorem const_qlo : isFinite64 0x3FB999999999999A#64 = true ∧ rat64 0x3FB999999999999A#64 = 7205759403792794 / 2 ^ 56 := by
  have h := constant (v := 0x3FB999999999999A#64) (s := false) (N := 7205759403792794) (k := 56) (by simp [constants])
  refine ⟨h.1, h.2.trans ?_⟩
  norm_num [signFactor]

theorem const_049 : isFinite64 0x3FDF5C28F5C28F5C#64 = true ∧ rat64 0x3FDF5C28F5C28F5C#64 = 8827055269646172 / 2 ^ 54 := by
  have h := constant (v := 0x3FDF5C28F5C28F5C#64) (s := false) (N := 8827055269646172) (k := 54) (by simp [constants])
  refine ⟨h.1, h.2.trans ?_⟩
  norm_num [signFactor]

theorem const_twoPi : isFinite64 0x401921FB54442D18#64 = true ∧ rat64 0x401921FB54442D18#64 = 7074237752028440 / 2 ^ 50 := by
  have h := constant (v := 0x401921FB54442D18#64) (s := false) (N := 7074237752028440) (k := 50) (by simp [constants])
  refine ⟨h.1, h.2.trans ?_⟩
  norm_num [signFactor]

theorem const_half : isFinite64 0x3FE0000000000000#64 = true ∧ rat64 0x3FE0000000000000#64 = 1 / 2 := by
  have h := constant (v := 0x3FE0000000000000#64) (s := false) (N := 1) (k := 1) (by simp [constants])
  refine ⟨h.1, h.2.trans ?_⟩
  norm_num [signFactor]

theorem const_three : isFinite64 0x4008000000000000#64 = true ∧ rat64 0x4008000000000000#64 = 3 := by
  have h := constant (v := 0x4008000000000000#64) (s := false) (N := 3) (k := 0) (by simp [constants])
  refine ⟨h.1, h.2.trans ?_⟩
  norm_num [signFactor]

theorem const_nearOne : isFinite64 0x3FF0000000800000#64 = true ∧ rat64 0x3FF0000000800000#64 = 536870913 / 2 ^ 29 := by
  have h := constant (v := 0x3FF0000000800000#64) (s := false) (N := 536870913) (k := 29) (by simp [constants])
  refine ⟨h.1, h.2.trans ?_⟩
  norm_num [signFactor]

/-- The bounds of the rate, and that no infinity is between them (00_scope.md R9). -/
theorem rate_constants :
    val32 Config.fsMin = .fin false (8000 * 2 ^ Fmt.b32.unit) ∧ val32 Config.fsMax = .fin false (192000 * 2 ^ Fmt.b32.unit) ∧
    (Val.inf true).lt .b32 (val32 Config.fsMin) = true ∧ (val32 Config.fsMax).lt .b32 (.inf false) = true := by
  decide +kernel

theorem rat_fsMin : rat32 Config.fsMin = 8000 := (rat32_whole rate_constants.1).trans (by norm_num)

theorem rat_fsMax : rat32 Config.fsMax = 192000 := (rat32_whole rate_constants.2.1).trans (by norm_num)

/-! ### Rates, frequencies and angles -/

/-- A rate that PREPARE accepts is finite and in its range (43_stereo_processor.md R180). -/
theorem rate_bounds {fs : F32} (h : badRate fs = false) : isFinite32 fs = true ∧ 8000 ≤ rat32 fs ∧ rat32 fs ≤ 192000 := by
  obtain ⟨hmin, hmax, hinf, hinf'⟩ := rate_constants
  simp only [badRate, Bool.or_eq_false_iff] at h
  obtain ⟨⟨hn, hlo⟩, hhi⟩ := h
  unfold lt32 at hlo hhi
  unfold isNaN32 at hn
  have hfin : isFinite32 fs = true := by
    unfold isFinite32
    cases hv : val32 fs with
    | fin => rfl
    | nan => simp [hv] at hn
    | inf u =>
      rw [hv] at hlo hhi
      cases u
      · rw [hinf'] at hhi; cases hhi
      · rw [hinf] at hlo; cases hlo
  refine ⟨hfin, ?_⟩
  unfold Val.lt at hlo hhi
  rw [hmin] at hlo
  rw [hmax] at hhi
  obtain ⟨s, m, hm⟩ := isFinite32_iff.1 hfin
  have e1 : rat32 Config.fsMin ≤ rat32 fs := by
    unfold rat32
    refine div_le_div_of_nonneg_right ?_ (pow_nonneg (by norm_num) _)
    rw [hm] at hlo
    rw [hmin, hm]
    have : ¬ ((Val.fin s m).order Fmt.b32 < (Val.fin false (8000 * 2 ^ Fmt.b32.unit)).order .b32) := by simpa using hlo
    exact_mod_cast not_lt.1 this
  have e2 : rat32 fs ≤ rat32 Config.fsMax := by
    unfold rat32
    refine div_le_div_of_nonneg_right ?_ (pow_nonneg (by norm_num) _)
    rw [hm] at hhi
    rw [hmax, hm]
    have : ¬ ((Val.fin false (192000 * 2 ^ Fmt.b32.unit)).order Fmt.b32 < (Val.fin s m).order .b32) := by simpa using hhi
    exact_mod_cast not_lt.1 this
  rw [rat_fsMin] at e1
  rw [rat_fsMax] at e2
  exact ⟨e1, e2⟩

/-- The rate, widened. -/
theorem wideRate_bounds {fs : F32} (h : badRate fs = false) :
    isFinite64 (widen fs) = true ∧ 7999 ≤ rat64 (widen fs) ∧ rat64 (widen fs) ≤ 192001 := by
  obtain ⟨hf, h1, h2⟩ := rate_bounds h
  have hw := widen_near hf (by rw [abs_of_nonneg (by linarith)]; linarith)
  obtain ⟨w1, w2⟩ := hw.relative (by linarith)
  exact ⟨hw.1, by linarith, by linarith⟩

/-- A converted frequency is between 20 Hz and 20000 Hz, and below half the rate (40_coeff_factory.md R113, R114). -/
theorem convFreq_bounds {fsd : F64} (hfs : isFinite64 fsd = true) (h1 : 7999 ≤ rat64 fsd) (h2 : rat64 fsd ≤ 192001)
    (v : F32) {d : F64} (hd : isNaN64 d = false) :
    isFinite64 (convFreq fsd v d) = true ∧ 20 ≤ rat64 (convFreq fsd v d) ∧ rat64 (convFreq fsd v d) ≤ 20000 ∧
    rat64 (convFreq fsd v d) ≤ 490001 / 1000000 * rat64 fsd := by
  have f049 := const_049.1
  have k1 : (489999 / 10 ^ 6 : ℚ) ≤ 8827055269646172 / 2 ^ 54 := by norm_num
  have k2 : (8827055269646172 / 2 ^ 54 : ℚ) ≤ 4900001 / 10 ^ 7 := by norm_num
  have hmul := mul64_near f049 hfs (by
    rw [const_049.2, abs_mul, abs_of_nonneg (by norm_num), abs_of_nonneg (by linarith)]; norm_num; linarith)
  rw [const_049.2] at hmul
  generalize (8827055269646172 / 2 ^ 54 : ℚ) = q at *
  have p1 : 489999 / 10 ^ 6 * rat64 fsd ≤ q * rat64 fsd := mul_le_mul_of_nonneg_right k1 (by linarith)
  have p2 : q * rat64 fsd ≤ 4900001 / 10 ^ 7 * rat64 fsd := mul_le_mul_of_nonneg_right k2 (by linarith)
  obtain ⟨m1, m2⟩ := hmul.relative (by linarith)
  have hfin := hmul.1
  unfold convFreq freqHigh
  generalize mul64 0x3FDF5C28F5C28F5C#64 fsd = lim at *
  have hlim : rat64 lim ≤ 490001 / 1000000 * rat64 fsd := by linarith
  have hhigh : le64 0x4034000000000000#64 (min64 0x40D3880000000000#64 lim) = true ∧
      le64 (min64 0x40D3880000000000#64 lim) 0x40D3880000000000#64 = true ∧
      le64 (min64 0x40D3880000000000#64 lim) lim = true := by
    have n1 := isNaN64_of_finite const_20000.1
    have n2 := isNaN64_of_finite hfin
    rw [min64_eq n1 n2]
    split
    · rename_i hl
      exact ⟨by rw [le64_iff_rat const_20.1 const_20000.1, const_20.2, const_20000.2]; norm_num, le64_refl n1, hl⟩
    · rename_i hl
      exact ⟨by rw [le64_iff_rat const_20.1 hfin, const_20.2]; linarith, le64_total n1 n2 hl, le64_refl n2⟩
  have hx : isNaN64 (if isNaN32 v then d else widen v) = false := by
    split
    · exact hd
    · rename_i hv; exact isNaN64_widen (by simpa using hv)
  have hcl := clamp hx hhigh.1
  have f20 := hcl.1
  have fhi := le64_trans hcl.2 hhigh.2.1
  have flim := le64_trans hcl.2 hhigh.2.2
  have hff := isFinite64_of_between const_20.1 const_20000.1 f20 fhi
  rw [le64_iff_rat const_20.1 hff, const_20.2] at f20
  rw [le64_iff_rat hff const_20000.1, const_20000.2] at fhi
  rw [le64_iff_rat hff hfin] at flim
  exact ⟨hff, f20, fhi, flim.trans hlim⟩

/-- The angle of every converted frequency lies strictly inside (0, π) (40_coeff_factory.md R113, R114, R119). -/
theorem angle_bounds {fs : F32} (h : badRate fs = false) (v : F32) {d : F64} (hd : isNaN64 d = false) :
    isFinite64 (angle (convFreq (widen fs) v d) (widen fs)) = true ∧
    6544 / 10 ^ 7 ≤ rat64 (angle (convFreq (widen fs) v d) (widen fs)) ∧
    rat64 (angle (convFreq (widen fs) v d) (widen fs)) ≤ 30789 / 10000 := by
  obtain ⟨hfs, h1, h2⟩ := wideRate_bounds h
  obtain ⟨hf, f1, f2, f3⟩ := convFreq_bounds hfs h1 h2 v hd
  obtain ⟨-, b1, b2⟩ := rate_bounds h
  obtain ⟨-, h2'⟩ := (widen_near (rate_bounds h).1 (by rw [abs_of_nonneg (by linarith)]; linarith)).relative (by linarith)
  have h3 : rat64 (widen fs) ≤ 192000 * (1 + 1 / 10 ^ 15) := h2'.trans (mul_le_mul_of_nonneg_right b2 (by norm_num))
  clear h h2' b1 b2 h2
  generalize convFreq (widen fs) v d = f at *
  generalize widen fs = fsd at *
  unfold angle
  have ftp := const_twoPi.1
  have k1 : (62831853 / 10 ^ 7 : ℚ) ≤ 7074237752028440 / 2 ^ 50 := by norm_num
  have k2 : (7074237752028440 / 2 ^ 50 : ℚ) ≤ 628318531 / 10 ^ 8 := by norm_num
  have hmul := mul64_near ftp hf (by
    rw [const_twoPi.2, abs_mul, abs_of_nonneg (by norm_num), abs_of_nonneg (by linarith)]; norm_num; linarith)
  rw [const_twoPi.2] at hmul
  generalize (7074237752028440 / 2 ^ 50 : ℚ) = q at *
  have p1 : 62831853 / 10 ^ 7 * rat64 f ≤ q * rat64 f := mul_le_mul_of_nonneg_right k1 (by linarith)
  have p2 : q * rat64 f ≤ 628318531 / 10 ^ 8 * rat64 f := mul_le_mul_of_nonneg_right k2 (by linarith)
  obtain ⟨m1, m2⟩ := hmul.relative (by linarith)
  have hn := hmul.1
  generalize mul64 0x401921FB54442D18#64 f = n at *
  have hpos : 0 < rat64 fsd := by linarith
  have q1 : 65449 / 10 ^ 8 ≤ rat64 n / rat64 fsd := by rw [le_div_iff₀ hpos]; linarith
  have q2 : rat64 n / rat64 fsd ≤ 307877 / 10 ^ 5 := by rw [div_le_iff₀ hpos]; linarith
  have hdiv := div64_near hn hfs hpos.ne' (by rw [abs_of_nonneg (by linarith)]; linarith)
  obtain ⟨d1, d2⟩ := hdiv.relative (by linarith)
  exact ⟨hdiv.1, by linarith, by linarith⟩

/-- Cosine and sine on the angles of the factory, in exact arithmetic. -/
theorem cos_sin_bounds {w : ℝ} (h1 : 6544 / 10 ^ 7 ≤ w) (h2 : w ≤ 30789 / 10000) :
    Real.cos w ≤ 1 - 21 / 10 ^ 8 ∧ -(1 - 19 / 10000) ≤ Real.cos w ∧ 65 / 10 ^ 5 ≤ Real.sin w ∧ Real.sin w ≤ 1 ∧
    Real.sin w ^ 2 ≤ 2 * (1 - Real.cos w) := by
  have hpi := Real.pi_gt_d6
  have cosub : ∀ x : ℝ, 0 ≤ x → x ≤ 1 → Real.cos x ≤ 1 - x ^ 2 / 2 + x ^ 4 * (5 / 96) := by
    intro x hx hx1
    have := (abs_le.1 (Real.cos_bound (x := x) (by rw [abs_of_nonneg hx]; exact hx1))).2
    rw [abs_of_nonneg hx] at this
    linarith
  have s0 : (65 / 10 ^ 5 : ℝ) ≤ Real.sin (6544 / 10 ^ 7) := by
    have := Real.sin_gt_sub_cube (x := 6544 / 10 ^ 7) (by norm_num)
    refine le_trans ?_ this.le
    norm_num
  have smono : ∀ x : ℝ, 6544 / 10 ^ 7 ≤ x → x ≤ Real.pi / 2 → 65 / 10 ^ 5 ≤ Real.sin x := by
    intro x hx hx'
    exact s0.trans (Real.sin_le_sin_of_le_of_le_pi_div_two (by linarith) hx' hx)
  refine ⟨?_, ?_, ?_, Real.sin_le_one _, ?_⟩
  · refine (Real.cos_le_cos_of_nonneg_of_le_pi (by norm_num) (by linarith) h1).trans ?_
    refine (cosub _ (by norm_num) (by norm_num)).trans ?_
    norm_num
  · have : Real.cos (30789 / 10000) ≤ Real.cos w := Real.cos_le_cos_of_nonneg_of_le_pi (by linarith) (by linarith) h2
    refine le_trans ?_ this
    have e : Real.cos (30789 / 10000) = -Real.cos (Real.pi - 30789 / 10000) := by rw [Real.cos_pi_sub]; ring
    have : Real.cos (Real.pi - 30789 / 10000) ≤ Real.cos (6269 / 100000) :=
      Real.cos_le_cos_of_nonneg_of_le_pi (by norm_num) (by linarith) (by linarith)
    have := cosub (6269 / 100000) (by norm_num) (by norm_num)
    rw [e]
    norm_num at *
    linarith
  · rcases le_or_gt w (Real.pi / 2) with h | h
    · exact smono w h1 h
    · rw [← Real.sin_pi_sub]; exact smono _ (by linarith) (by linarith)
  · have := Real.sin_sq_add_cos_sq w
    nlinarith [Real.cos_le_one w, sq_nonneg (1 - Real.cos w)]

theorem least_le_real : (8 : ℝ) / 2 ^ Fmt.b64.unit ≤ 8 / 2 ^ 200 :=
  div_le_div_of_nonneg_left (by norm_num) (by norm_num) (pow_le_pow_right₀ (by norm_num) (by decide))

/-- The premise of 40_coeff_factory.md R112 as an error, with the least subnormals bounded. -/
theorem withinOneUlp_error {y : ℝ} {v : F64} (h : WithinOneUlp y v) (hy : |y| ≤ 2 ^ 150) :
    |(rat64 v : ℝ) - y| ≤ |y| / 2 ^ 51 + 8 / 2 ^ 200 := (withinOneUlp_near h hy).trans (by have := least_le_real; linarith)

/-- What cosine and sine values that meet the premise satisfy at an angle of the factory. -/
theorem accurate_bounds {w c s : F64} (h : AccurateAngle w c s) (h1 : 6544 / 10 ^ 7 ≤ rat64 w)
    (h2 : rat64 w ≤ 30789 / 10000) :
    isFinite64 c = true ∧ isFinite64 s = true ∧ -(1 - 18 / 10000) ≤ rat64 c ∧ rat64 c ≤ 1 - 209 / 10 ^ 9 ∧
    64 / 10 ^ 5 ≤ rat64 s ∧ rat64 s ≤ 1 + 1 / 10 ^ 9 ∧ rat64 s ^ 2 ≤ 20001 / 10000 * (1 - rat64 c) := by
  have h1' : (6544 / 10 ^ 7 : ℝ) ≤ (rat64 w : ℝ) := by have := (Rat.cast_le (K := ℝ)).2 h1; push_cast at this; exact this
  have h2' : (rat64 w : ℝ) ≤ 30789 / 10000 := by have := (Rat.cast_le (K := ℝ)).2 h2; push_cast at this; exact this
  obtain ⟨t1, t2, t3, t4, t5⟩ := cos_sin_bounds h1' h2'
  have ac : |Real.cos (rat64 w)| ≤ 1 := Real.abs_cos_le_one _
  have as : |Real.sin (rat64 w)| ≤ 1 := Real.abs_sin_le_one _
  have ec := withinOneUlp_error h.cos (ac.trans (by norm_num))
  have es := withinOneUlp_error h.sin (as.trans (by norm_num))
  refine ⟨h.cos.1, h.sin.1, ?_⟩
  generalize rat64 c = C at *
  generalize rat64 s = S at *
  generalize Real.cos (rat64 w) = cw at *
  generalize Real.sin (rat64 w) = sw at *
  have ec' : |(C : ℝ) - cw| ≤ 1 / 2 ^ 50 := by
    have : |cw| / 2 ^ 51 ≤ 1 / 2 ^ 51 := by gcongr
    have : (1 : ℝ) / 2 ^ 51 + 8 / 2 ^ 200 ≤ 1 / 2 ^ 50 := by norm_num
    linarith
  have es' : |(S : ℝ) - sw| ≤ 1 / 2 ^ 50 * sw := by
    rw [abs_of_nonneg (show (0 : ℝ) ≤ sw by linarith)] at es
    have : (8 : ℝ) / 2 ^ 200 ≤ 1 / 2 ^ 51 * (65 / 10 ^ 5) := by norm_num
    have : (1 / 2 ^ 51 : ℝ) * (65 / 10 ^ 5) ≤ 1 / 2 ^ 51 * sw := by gcongr
    have e : sw / 2 ^ 51 = 1 / 2 ^ 51 * sw := by ring
    have e2 : (1 : ℝ) / 2 ^ 50 * sw = 1 / 2 ^ 51 * sw + 1 / 2 ^ 51 * sw := by ring
    linarith
  obtain ⟨c1, c2⟩ := abs_le.1 ec'
  obtain ⟨s1, s2⟩ := abs_le.1 es'
  have hsS : (S : ℝ) ≤ sw * (1 + 1 / 2 ^ 50) := by linarith
  have hS0 : (0 : ℝ) ≤ S := by
    have : (1 : ℝ) / 2 ^ 50 * sw ≤ 1 * sw := by gcongr; norm_num
    linarith
  have hsq : (S : ℝ) ^ 2 ≤ 20001 / 10000 * (1 - C) := by
    have k1 : (S : ℝ) ^ 2 ≤ (sw * (1 + 1 / 2 ^ 50)) ^ 2 := by gcongr
    have k2 : (sw * (1 + 1 / 2 ^ 50)) ^ 2 ≤ sw ^ 2 * (1 + 1 / 10 ^ 6) := by
      rw [mul_pow]; gcongr; norm_num
    have k3 : 1 - cw ≤ (1 - C) * (1 + 1 / 10 ^ 6) := by
      have : (1 : ℝ) / 2 ^ 50 ≤ 1 / 10 ^ 6 * (2 / 10 ^ 7) := by norm_num
      have : (2 : ℝ) / 10 ^ 7 ≤ 1 - C := by
        have : (1:ℝ) / 2 ^ 50 ≤ 1 / 10 ^ 8 := by norm_num
        linarith
      nlinarith
    nlinarith
  have d1 : (-(1 - 18 / 10000) : ℝ) ≤ C := by
    have : (1:ℝ) / 2 ^ 50 ≤ 1 / 10 ^ 8 := by norm_num
    linarith
  have d2 : (C : ℝ) ≤ 1 - 209 / 10 ^ 9 := by
    have : (1:ℝ) / 2 ^ 50 ≤ 1 / 10 ^ 9 := by norm_num
    linarith
  have d3 : (64 / 10 ^ 5 : ℝ) ≤ S := by
    have : (1 : ℝ) / 2 ^ 50 * sw ≤ 1 / 10 ^ 6 * 1 := by gcongr; norm_num
    linarith
  have d4 : (S : ℝ) ≤ 1 + 1 / 10 ^ 9 := by
    have : (1 : ℝ) / 2 ^ 50 * sw ≤ 1 / 10 ^ 9 * 1 := by gcongr; norm_num
    linarith
  refine ⟨?_, ?_, ?_, ?_, ?_⟩ <;> (apply (Rat.cast_le (K := ℝ)).1; push_cast; assumption)

/-! ### Quality, gain and damping -/

/-- A converted quality is in its range (40_coeff_factory.md R116). -/
theorem quality_bounds (v : F32) :
    isFinite64 (convQuality v) = true ∧ 999 / 10000 ≤ rat64 (convQuality v) ∧ rat64 (convQuality v) ≤ 10 := by
  have f1 := const_qlo.1
  have f2 := const_10.1
  have hx : isNaN64 (if isNaN32 v then one64 else widen v) = false := by
    split
    · exact isNaN64_of_finite fin_one64
    · rename_i hv; exact isNaN64_widen (by simpa using hv)
  have := clamp hx ((le64_iff_rat f1 f2).2 (by rw [const_qlo.2, const_10.2]; norm_num))
  have hf := isFinite64_of_between f1 f2 this.1 this.2
  unfold convQuality
  refine ⟨hf, ?_, ?_⟩
  · have h := (le64_iff_rat f1 hf).1 this.1
    rw [const_qlo.2] at h
    refine le_trans ?_ h; norm_num
  · have h := (le64_iff_rat hf f2).1 this.2
    rwa [const_10.2] at h

/-- The table qualities are between 1/2 and 3 (40_coeff_factory.md R121). -/
theorem qRom_bounds (k : Nat) : ∀ Q ∈ qRom k, isFinite64 Q = true ∧ 1 / 2 ≤ rat64 Q ∧ rat64 Q ≤ 3 := by
  have half := const_half.2
  have three := const_three.2
  have all : ∀ k, k < 4 → (qRom k).all (fun Q => le64 0x3FE0000000000000#64 Q && le64 Q 0x4008000000000000#64) = true := by
    decide +kernel
  intro Q hQ
  have hk : k < 4 := by
    by_contra hc
    obtain ⟨n, rfl⟩ : ∃ n, k = n + 4 := ⟨k - 4, by omega⟩
    simp [qRom] at hQ
  have h := List.all_eq_true.1 (all k hk) Q hQ
  rw [Bool.and_eq_true] at h
  have f1 := const_half.1
  have f2 := const_three.1
  have hf := isFinite64_of_between f1 f2 h.1 h.2
  refine ⟨hf, ?_, ?_⟩
  · have := (le64_iff_rat f1 hf).1 h.1; rwa [half] at this
  · have := (le64_iff_rat hf f2).1 h.2; rwa [three] at this

/-- The exponent of the linear gain is in its range (40_coeff_factory.md R115, R120). -/
theorem exponent_bounds (v : F32) :
    |rat64 (div64 (convGain v) 0x4034000000000000#64)| ≤ 6 / 5 + 1 / 10 ^ 15 := by
  have f1 := const_neg24.1
  have f2 := const_24.1
  have hx : isNaN64 (if isNaN32 v then 0#64 else widen v) = false := by
    split
    · decide +kernel
    · rename_i hv; exact isNaN64_widen (by simpa using hv)
  have := clamp hx ((le64_iff_rat f1 f2).2 (by rw [const_neg24.2, const_24.2]; norm_num))
  have hf := isFinite64_of_between f1 f2 this.1 this.2
  have h1 := (le64_iff_rat f1 hf).1 this.1
  have h2 := (le64_iff_rat hf f2).1 this.2
  rw [const_neg24.2] at h1
  rw [const_24.2] at h2
  unfold convGain
  generalize min64 (max64 (if isNaN32 v then 0#64 else widen v) 0xC038000000000000#64) 0x4038000000000000#64 = g at *
  have hq : |rat64 g / 20| ≤ 6 / 5 := by rw [abs_le]; constructor <;> linarith
  have hd := div64_near hf const_20.1 (by rw [const_20.2]; norm_num) (by rw [const_20.2]; exact hq.trans (by norm_num))
  have he := hd.error
  rw [const_20.2] at he
  have := abs_sub_abs_le_abs_sub (rat64 (div64 g 0x4034000000000000#64)) (rat64 g / 20)
  have h3 : |rat64 g / 20| / 2 ^ 53 ≤ 6 / 5 / 2 ^ 53 := by gcongr
  have : (6 : ℚ) / 5 / 2 ^ 53 + 1 / 2 ^ 200 ≤ 1 / 10 ^ 15 := by norm_num
  linarith

theorem ten_pow_bounds : (10 : ℝ) ^ (6 / 5 : ℝ) ≤ 1584894 / 100000 := by
  have h : ((10 : ℝ) ^ (6 / 5 : ℝ)) ^ (5 : ℕ) = 10 ^ (6 : ℕ) := by
    rw [← Real.rpow_natCast, ← Real.rpow_mul (by norm_num)]; norm_num
  refine le_of_pow_le_pow_left₀ (n := 5) (by norm_num) (by norm_num) ?_
  rw [h]; norm_num

theorem ten_pow_near {t : ℝ} (h0 : 0 ≤ t) (h : t ≤ 1 / 10 ^ 8) : (10 : ℝ) ^ (6 / 5 + t : ℝ) ≤ 1584895 / 100000 := by
  have := rpow_one_add_le_one_add_mul_self (s := 9) (p := t) (by norm_num) h0 (by linarith)
  rw [show (1 : ℝ) + 9 = 10 by norm_num] at this
  rw [Real.rpow_add (by norm_num)]
  have h0 := ten_pow_bounds
  have hp' : (0:ℝ) ≤ (10 : ℝ) ^ t := Real.rpow_nonneg (by norm_num) _
  generalize (10 : ℝ) ^ (6 / 5 : ℝ) = a at *
  generalize (10 : ℝ) ^ t = b at *
  calc a * b ≤ 1584894 / 100000 * (1 + t * 9) := by gcongr
    _ ≤ 1584895 / 100000 := by linarith

/-- A linear gain that meets the premise is between 10^-1.2 and 10^1.2, but for rounding. -/
theorem gain_bounds {x G : F64} (hx : |rat64 x| ≤ 6 / 5 + 1 / 10 ^ 15) (h : AccurateExp10 x G) :
    isFinite64 G = true ∧ 1 / 15849 * 1000 ≤ rat64 G ∧ rat64 G ≤ 15849 / 1000 := by
  obtain ⟨t, ht⟩ : ∃ t : ℝ, t = 1 / 10 ^ 15 := ⟨_, rfl⟩
  have hx' : |(rat64 x : ℝ)| ≤ 6 / 5 + t := by
    have := (Rat.cast_le (K := ℝ)).2 hx; push_cast at this; rw [ht]; exact this
  obtain ⟨x1, x2⟩ := abs_le.1 hx'
  have hB : (10 : ℝ) ^ (6 / 5 + t : ℝ) ≤ 1584895 / 100000 := ten_pow_near (by rw [ht]; norm_num) (by rw [ht]; norm_num)
  have y2 : (10 : ℝ) ^ (rat64 x : ℝ) ≤ 1584895 / 100000 :=
    (Real.rpow_le_rpow_of_exponent_le (by norm_num) x2).trans hB
  have y1 : 100000 / 1584895 ≤ (10 : ℝ) ^ (rat64 x : ℝ) := by
    refine le_trans ?_ (Real.rpow_le_rpow_of_exponent_le (by norm_num) x1)
    rw [Real.rpow_neg (by norm_num)]
    rw [div_eq_inv_mul, ← div_eq_inv_mul]
    have hp : (0 : ℝ) < (10 : ℝ) ^ (6 / 5 + t : ℝ) := Real.rpow_pos_of_pos (by norm_num) _
    have := inv_anti₀ hp hB
    refine le_trans ?_ this
    norm_num
  have he := withinOneUlp_error h (by rw [abs_of_nonneg (by linarith)]; linarith)
  rw [abs_of_nonneg (show 0 ≤ (10 : ℝ) ^ (rat64 x : ℝ) by linarith)] at he
  refine ⟨h.1, ?_⟩
  generalize (10 : ℝ) ^ (rat64 x : ℝ) = y at *
  obtain ⟨e1, e2⟩ := abs_le.1 he
  generalize rat64 G = g at *
  have r1 : (1 / 15849 * 1000 : ℝ) ≤ g := by linarith
  have r2 : (g : ℝ) ≤ 15849 / 1000 := by linarith
  constructor <;> (apply (Rat.cast_le (K := ℝ)).1; push_cast; assumption)

/-- The cookbook's A and how near its square is to the gain. -/
theorem amplitude_bounds {G : F64} (hG : isFinite64 G = true)
    (g1 : 1 / 15849 * 1000 ≤ rat64 G) (g2 : rat64 G ≤ 15849 / 1000) :
    isFinite64 (sqrt64 G) = true ∧ 249 / 1000 ≤ rat64 (sqrt64 G) ∧ rat64 (sqrt64 G) ≤ 39821 / 10000 ∧
    |rat64 (sqrt64 G) ^ 2 - rat64 G| ≤ rat64 G / 2 ^ 50 := by
  obtain ⟨hf, he⟩ := sqrt64_near hG (by linarith) (by linarith)
  refine ⟨hf, ?_⟩
  generalize rat64 (sqrt64 G) = A at *
  generalize rat64 G = g at *
  have hg1 : (1 / 15849 * 1000 : ℝ) ≤ g := by have := (Rat.cast_le (K := ℝ)).2 g1; push_cast at this; exact this
  have hg2 : (g : ℝ) ≤ 15849 / 1000 := by have := (Rat.cast_le (K := ℝ)).2 g2; push_cast at this; exact this
  have hg0 : (0 : ℝ) ≤ g := by linarith
  have hl := least_le_real
  have e8 : (8 : ℝ) / 2 ^ Fmt.b64.unit = 8 * (1 / 2 ^ Fmt.b64.unit) := by ring
  rw [e8] at hl
  generalize (1 : ℝ) / 2 ^ Fmt.b64.unit = u at *
  have y1 : (2505 / 10000 : ℝ) ≤ √(g : ℝ) := Real.le_sqrt_of_sq_le (by linarith)
  have y2 : √(g : ℝ) ≤ 3982 / 1000 := Real.sqrt_le_iff.2 ⟨by norm_num, by linarith⟩
  have hsq : √(g : ℝ) ^ 2 = g := Real.sq_sqrt hg0
  generalize √(g : ℝ) = y at *
  obtain ⟨e1, e2⟩ := abs_le.1 he
  have r1 : (249 / 1000 : ℝ) ≤ A := by linarith
  have r2 : (A : ℝ) ≤ 39821 / 10000 := by linarith
  have r3 : |(A : ℝ) ^ 2 - g| ≤ g / 2 ^ 50 := by
    have hd : |(A : ℝ) - y| ≤ y / 2 ^ 52 := by
      refine he.trans ?_
      linarith
    have e : (A : ℝ) ^ 2 - g = (A - y) * (A + y) := by rw [← hsq]; ring
    have hs : |(A : ℝ) + y| ≤ 3 * y := by rw [abs_of_nonneg (by linarith)]; linarith
    rw [e, abs_mul]
    calc _ ≤ y / 2 ^ 52 * (3 * y) := by gcongr
      _ = 3 * y ^ 2 / 2 ^ 52 := by ring
      _ ≤ g / 2 ^ 50 := by rw [hsq]; linarith
  refine ⟨?_, ?_, ?_⟩
  · apply (Rat.cast_le (K := ℝ)).1; push_cast; assumption
  · apply (Rat.cast_le (K := ℝ)).1; push_cast; assumption
  · apply (Rat.cast_le (K := ℝ)).1; push_cast; assumption

/-- alpha = s / (2 q), but for rounding. -/
theorem alpha_bounds {s q : F64} (hs : isFinite64 s = true) (hq : isFinite64 q = true)
    (s1 : 64 / 10 ^ 5 ≤ rat64 s) (s2 : rat64 s ≤ 1 + 1 / 10 ^ 9) (q1 : 999 / 10000 ≤ rat64 q) (q2 : rat64 q ≤ 10) :
    isFinite64 (div64 s (mul64 0x4000000000000000#64 q)) = true ∧
    |rat64 (div64 s (mul64 0x4000000000000000#64 q)) - rat64 s / (2 * rat64 q)| ≤ 1 / 10 ^ 9 * (rat64 s / (2 * rat64 q)) := by
  have f2 : isFinite64 0x4000000000000000#64 = true := const_two64.1
  have hm := mul64_near f2 hq (by rw [const_two64.2, abs_of_nonneg (by linarith)]; linarith)
  rw [const_two64.2] at hm
  obtain ⟨m1, m2⟩ := hm.relative (by linarith)
  have hmf := hm.1
  generalize mul64 0x4000000000000000#64 q = d at *
  have hQ : 0 < 2 * rat64 q := by linarith
  have hQ20 : 2 * rat64 q ≤ 20 := by linarith
  have hd : 199 / 1000 ≤ rat64 d := by linarith
  generalize 2 * rat64 q = Q at *
  have hlb : 3 / 10 ^ 5 ≤ rat64 s / rat64 d := by rw [le_div_iff₀ (by linarith)]; linarith
  have hub : rat64 s / rat64 d ≤ 6 := by rw [div_le_iff₀ (by linarith)]; linarith
  have hv := div64_near hs hmf (by linarith) (by rw [abs_of_nonneg (by linarith)]; linarith)
  obtain ⟨v1, v2⟩ := hv.relative (by linarith)
  refine ⟨hv.1, ?_⟩
  have hx : 0 ≤ rat64 s / Q := div_nonneg (by linarith) hQ.le
  have es : rat64 s = rat64 s / Q * Q := by field_simp
  have k1 : rat64 s / Q * (1 - 1 / 10 ^ 14) ≤ rat64 s / rat64 d := by
    rw [le_div_iff₀ (by linarith)]
    calc rat64 s / Q * (1 - 1 / 10 ^ 14) * rat64 d ≤ rat64 s / Q * (1 - 1 / 10 ^ 14) * (Q * (1 + 1 / 10 ^ 15)) :=
          mul_le_mul_of_nonneg_left m2 (mul_nonneg hx (by norm_num))
      _ = rat64 s / Q * Q * ((1 - 1 / 10 ^ 14) * (1 + 1 / 10 ^ 15)) := by ring
      _ ≤ rat64 s := by rw [← es]; linarith
  have k2 : rat64 s / rat64 d ≤ rat64 s / Q * (1 + 1 / 10 ^ 14) := by
    rw [div_le_iff₀ (by linarith)]
    calc rat64 s ≤ rat64 s / Q * Q * ((1 + 1 / 10 ^ 14) * (1 - 1 / 10 ^ 15)) := by rw [← es]; linarith
      _ = rat64 s / Q * (1 + 1 / 10 ^ 14) * (Q * (1 - 1 / 10 ^ 15)) := by ring
      _ ≤ _ := mul_le_mul_of_nonneg_left m1 (mul_nonneg hx (by norm_num))
  generalize rat64 s / Q = x at *
  generalize rat64 s / rat64 d = y at *
  clear es hub hlb m1 m2
  rw [abs_le]
  constructor <;> linarith

/-- alpha / A, but for rounding. -/
theorem damping_bounds {a A : F64} (ha : isFinite64 a = true) (hA : isFinite64 A = true)
    (a1 : 31 / 10 ^ 6 ≤ rat64 a) (a2 : rat64 a ≤ 6) (A1 : 249 / 1000 ≤ rat64 A) (A2 : rat64 A ≤ 4001 / 1000) :
    isFinite64 (div64 a A) = true ∧ |rat64 (div64 a A) - rat64 a / rat64 A| ≤ 2 / 10 ^ 15 * (rat64 a / rat64 A) := by
  have hpos : 0 < rat64 A := by linarith
  have hlb : 7 / 10 ^ 6 ≤ rat64 a / rat64 A := by rw [le_div_iff₀ hpos]; linarith
  have hub : rat64 a / rat64 A ≤ 25 := by rw [div_le_iff₀ hpos]; linarith
  have hv := div64_near ha hA hpos.ne' (by rw [abs_of_nonneg (by linarith)]; linarith)
  obtain ⟨v1, v2⟩ := hv.relative (by linarith)
  refine ⟨hv.1, ?_⟩
  generalize rat64 a / rat64 A = x at *
  rw [abs_le]
  constructor <;> linarith

/-- Both of them for a peak set. -/
theorem peak_damping {s q A : F64} (hs : isFinite64 s = true) (s1 : 64 / 10 ^ 5 ≤ rat64 s) (s2 : rat64 s ≤ 1 + 1 / 10 ^ 9)
    (hq : isFinite64 q = true) (q1 : 999 / 10000 ≤ rat64 q) (q2 : rat64 q ≤ 10)
    (hA : isFinite64 A = true) (A1 : 249 / 1000 ≤ rat64 A) (A2 : rat64 A ≤ 39821 / 10000) :
    isFinite64 (div64 s (mul64 0x4000000000000000#64 q)) = true ∧
    31 / 10 ^ 6 ≤ rat64 (div64 s (mul64 0x4000000000000000#64 q)) ∧
    rat64 (div64 s (mul64 0x4000000000000000#64 q)) ≤ 50051 / 10000 * rat64 s ∧
    isFinite64 (div64 (div64 s (mul64 0x4000000000000000#64 q)) A) = true ∧
    7 / 10 ^ 6 ≤ rat64 (div64 (div64 s (mul64 0x4000000000000000#64 q)) A) ∧
    rat64 (div64 (div64 s (mul64 0x4000000000000000#64 q)) A) ≤ 2011 / 100 * rat64 s ∧
    |rat64 (div64 (div64 s (mul64 0x4000000000000000#64 q)) A) - rat64 (div64 s (mul64 0x4000000000000000#64 q)) / rat64 A| ≤
      2 / 10 ^ 15 * (rat64 (div64 s (mul64 0x4000000000000000#64 q)) / rat64 A) := by
  obtain ⟨hf, he⟩ := alpha_bounds hs hq s1 s2 q1 q2
  have x1 : 32 / 10 ^ 6 ≤ rat64 s / (2 * rat64 q) := by rw [le_div_iff₀ (by linarith)]; linarith
  have x2 : rat64 s / (2 * rat64 q) ≤ 500501 / 100000 * rat64 s := by rw [div_le_iff₀ (by linarith)]; nlinarith
  generalize div64 s (mul64 0x4000000000000000#64 q) = al at *
  generalize rat64 s / (2 * rat64 q) = x at *
  obtain ⟨e1, e2⟩ := abs_le.1 he
  have a1 : 31997 / 10 ^ 9 ≤ rat64 al := by linarith
  have a2 : rat64 al ≤ 50051 / 10000 * rat64 s := by linarith
  obtain ⟨hf', he'⟩ := damping_bounds hf hA (by linarith) (by linarith) A1 (by linarith)
  refine ⟨hf, by linarith, a2, hf', ?_, ?_, he'⟩
  · have y1 : 802 / 10 ^ 8 ≤ rat64 al / rat64 A := by rw [le_div_iff₀ (by linarith)]; linarith
    generalize rat64 al / rat64 A = y at *
    have := (abs_le.1 he').1
    linarith
  · have y2 : rat64 al / rat64 A ≤ 2010105 / 100000 * rat64 s := by rw [div_le_iff₀ (by linarith)]; nlinarith
    generalize rat64 al / rat64 A = y at *
    have := (abs_le.1 he').2
    linarith

/-! ### A coefficient -/

/-- The error of a quotient of two values with errors. -/
theorem quotient_error {m a M A e : ℚ} (hA : 1 ≤ A) (hM : |M| ≤ 22) (hm : |m - M| ≤ e) (ha : |a - A| ≤ e) (he : e ≤ 1 / 4) :
    |m / a - M / A| ≤ 60 * e ∧ 3 / 4 ≤ a := by
  have hm' := abs_le.1 hm
  have ha' := abs_le.1 ha
  have hMM := abs_le.1 hM
  have ha34 : 3 / 4 ≤ a := by linarith
  refine ⟨?_, ha34⟩
  have ha0 : 0 < a := by linarith
  have hA0 : 0 < A := by linarith
  have e1 : m / a - M / A = ((m - M) * A - M * (a - A)) / (a * A) := by field_simp; ring
  rw [e1, abs_div, abs_of_pos (mul_pos ha0 hA0), div_le_iff₀ (mul_pos ha0 hA0)]
  have h1 : |(m - M) * A - M * (a - A)| ≤ e * A + 22 * e := by
    refine (abs_sub _ _).trans ?_
    rw [abs_mul, abs_mul, abs_of_pos hA0]
    have := abs_nonneg M
    have := abs_nonneg (a - A)
    gcongr
  have he0 : 0 ≤ e := (abs_nonneg _).trans hm
  have h2 : 60 * e * (3 / 4 * A) ≤ 60 * e * (a * A) := by gcongr
  nlinarith

/-- A quotient rounded to binary64 and then to binary32. -/
theorem coeff_error {num den : F64} {M A : ℚ} (hn : isFinite64 num = true) (hd : isFinite64 den = true)
    (hA : 1 ≤ A) (hM : |M| ≤ 22) (hm : |rat64 num - M| ≤ 1 / 2 ^ 46) (ha : |rat64 den - A| ≤ 1 / 2 ^ 46) :
    isFinite32 (rnd32 (div64 num den)) = true ∧
    |rat32 (rnd32 (div64 num den)) - M / A| ≤ |M / A| / 2 ^ 24 + 1 / 2 ^ 39 ∧
    isFinite64 (div64 num den) = true ∧ |rat64 (div64 num den) - M / A| ≤ 1 / 2 ^ 39 := by
  obtain ⟨hq, h34⟩ := quotient_error hA hM hm ha (by norm_num)
  have hMA : |M / A| ≤ 22 := by
    rw [abs_div, abs_of_pos (by linarith : (0:ℚ) < A), div_le_iff₀ (by linarith)]; nlinarith [abs_nonneg M]
  have hne : rat64 den ≠ 0 := by intro h; rw [h] at h34; norm_num at h34
  have hb : |rat64 num / rat64 den| ≤ 23 := by
    have := abs_sub_abs_le_abs_sub (rat64 num / rat64 den) (M / A)
    have : (60 : ℚ) * (1 / 2 ^ 46) ≤ 1 := by norm_num
    linarith
  have hdiv := div64_near hn hd hne (hb.trans (by norm_num))
  have herr := hdiv.error
  have h1 : |rat64 (div64 num den) - M / A| ≤ 1 / 2 ^ 39 := by
    have := abs_sub_le (rat64 (div64 num den)) (rat64 num / rat64 den) (M / A)
    have h3 : |rat64 num / rat64 den| / 2 ^ 53 ≤ 23 / 2 ^ 53 := by gcongr
    have : (23 : ℚ) / 2 ^ 53 + 1 / 2 ^ 200 + 60 * (1 / 2 ^ 46) ≤ 1 / 2 ^ 39 := by norm_num
    linarith
  have hb2 : |rat64 (div64 num den)| ≤ |M / A| + 1 / 2 ^ 39 := by
    have := abs_sub_abs_le_abs_sub (rat64 (div64 num den)) (M / A)
    linarith
  have h32 := rnd32_near hdiv.1 (hb2.trans (by
    have : (22 : ℚ) + 1 / 2 ^ 39 ≤ 2 ^ 100 := by norm_num
    linarith))
  refine ⟨h32.1, ?_, hdiv.1, h1⟩
  have h4 := h32.error
  have := abs_sub_le (rat32 (rnd32 (div64 num den))) (rat64 (div64 num den)) (M / A)
  have h5 : |rat64 (div64 num den)| / 2 ^ 24 ≤ (|M / A| + 1 / 2 ^ 39) / 2 ^ 24 := by gcongr
  have h6 : 60 * (1 / 2 ^ 46) + (22:ℚ)/2^53 + 1 / 2 ^ 200 ≤ 1 / 2^ 40 := by norm_num
  have h7 : |rat64 (div64 num den) - M / A| ≤ 1 / 2 ^ 40 := by
    have := abs_sub_le (rat64 (div64 num den)) (rat64 num / rat64 den) (M / A)
    have h3 : |rat64 num / rat64 den| / 2 ^ 53 ≤ 23 / 2 ^ 53 := by gcongr
    have : (23 : ℚ) / 2 ^ 53 + 1 / 2 ^ 200 + 60 * (1 / 2 ^ 46) ≤ 1 / 2 ^ 40 := by norm_num
    linarith
  have h8 : (1 / 2 ^ 39 : ℚ) / 2 ^ 24 + 1 / 2 ^ 149 + 1 / 2 ^ 40 ≤ 1 / 2 ^ 39 := by norm_num
  rw [add_div] at h5
  linarith

theorem rounding_error_small {x y : ℚ} (hx : |x| ≤ 21) (hy : |y - x| ≤ |x| / 2 ^ 53 + 1 / 2 ^ 200) :
    |y - x| ≤ 1 / 2 ^ 48 := by
  have : |x| / 2 ^ 53 ≤ 21 / 2 ^ 53 := by gcongr
  have : (21 : ℚ) / 2 ^ 53 + 1 / 2 ^ 200 ≤ 1 / 2 ^ 48 := by norm_num
  linarith

theorem coeff_bound {num den : F64} {M A B : ℚ} (hn : isFinite64 num = true) (hd : isFinite64 den = true)
    (hA : 1 ≤ A) (hM : |M| ≤ 21) (hm : |rat64 num - M| ≤ 1 / 2 ^ 46) (ha : |rat64 den - A| ≤ 1 / 2 ^ 46)
    (hB : |M / A| * (1 + 1 / 10 ^ 7) + 1 / 10 ^ 7 ≤ B) :
    isFinite32 (rnd32 (div64 num den)) = true ∧ |rat32 (rnd32 (div64 num den))| ≤ B := by
  obtain ⟨f, g, -⟩ := coeff_error hn hd hA (hM.trans (by norm_num)) hm ha
  refine ⟨f, ?_⟩
  have h1 := abs_sub_abs_le_abs_sub (rat32 (rnd32 (div64 num den))) (M / A)
  have h2 := abs_nonneg (M / A)
  generalize |M / A| = z at *
  generalize |rat32 (rnd32 (div64 num den)) - M / A| = e at *
  linarith

/-- A coefficient of a cut section is at most 2. -/
theorem cut_coeff {num t : F64} {M : ℚ} (hn : isFinite64 num = true) (ht : isFinite64 t = true) (t1 : 9 / 10 ^ 5 ≤ rat64 t)
    (t2 : rat64 t ≤ 11 / 10) (hM : |M| ≤ 2) (hm : |rat64 num - M| ≤ 1 / 2 ^ 46) :
    isFinite32 (rnd32 (div64 num (add64 one64 t))) = true ∧ |rat32 (rnd32 (div64 num (add64 one64 t)))| ≤ 2 := by
  have hadd := add64_near fin_one64 ht (by rw [rat_one64, abs_of_nonneg (by linarith)]; linarith)
  have eadd := hadd.error
  rw [rat_one64] at eadd
  have eadd' := rounding_error_small (by rw [abs_of_nonneg (by linarith)]; linarith) eadd
  refine coeff_bound (A := 1 + rat64 t) hn hadd.1 (by linarith) (hM.trans (by norm_num)) hm (eadd'.trans (by norm_num)) ?_
  have : |M / (1 + rat64 t)| ≤ 2 / (1 + 9 / 10 ^ 5) := by
    rw [abs_div, abs_of_pos (show 0 < 1 + rat64 t by linarith)]; gcongr
  generalize |M / (1 + rat64 t)| = z at *
  linarith

theorem half_near {num : F64} {M : ℚ} (hn : isFinite64 num = true) (hM : |M| ≤ 2) (hm : |rat64 num - M| ≤ 1 / 2 ^ 48) :
    isFinite64 (div64 num 0x4000000000000000#64) = true ∧ |rat64 (div64 num 0x4000000000000000#64) - M / 2| ≤ 1 / 2 ^ 46 := by
  have f2 : isFinite64 0x4000000000000000#64 = true := const_two64.1
  have hb : |rat64 num| ≤ 3 := by
    have := abs_sub_abs_le_abs_sub (rat64 num) M
    linarith
  have hb2 : |rat64 num / 2| ≤ 3 / 2 := by rw [abs_div, abs_of_pos (show (0 : ℚ) < 2 by norm_num)]; linarith
  have hd := div64_near hn f2 (by rw [const_two64.2]; norm_num) (by rw [const_two64.2]; linarith)
  have he := hd.error
  rw [const_two64.2] at he
  have he' := rounding_error_small (hb2.trans (by norm_num)) he
  refine ⟨hd.1, ?_⟩
  have h3 : |rat64 num / 2 - M / 2| ≤ 1 / 2 ^ 48 / 2 := by
    rw [← sub_div, abs_div, abs_of_pos (show (0 : ℚ) < 2 by norm_num)]
    gcongr
  have := abs_sub_le (rat64 (div64 num 0x4000000000000000#64)) (rat64 num / 2) (M / 2)
  linarith

/-! ### Poles, and the gain of a peak set -/

/-- The exact poles leave the margins of 40_coeff_factory.md R126, which errors of this size do not use up. -/
theorem stable_of_errors {C T a1 a2 : ℚ} (h1 : -(1 - 18 / 10000) ≤ C) (h2 : C ≤ 1 - 209 / 10 ^ 9) (h3 : 7 / 10 ^ 6 ≤ T)
    (h4 : T ≤ 202 / 10) (h5 : T ^ 2 ≤ 811 * (1 - C)) (y1 : |a1 - -2 * C / (1 + T)| ≤ 12 / 10 ^ 8)
    (y2 : |a2 - (1 - T) / (1 + T)| ≤ 6 / 10 ^ 8) : |a2| < 1 ∧ |a1| < 1 + a2 := by
  have hT : 0 < 1 + T := by linarith
  have hδ : 18 / 10 ^ 8 * (1 + T) < 2 * (1 - C) := by
    rcases le_or_gt (2 / 10 ^ 6) (1 - C) with hbig | hsmall
    · linarith
    · have : T ≤ 41 / 1000 := by
        refine le_of_sq_le_sq (h5.trans ?_) (by norm_num)
        linarith
      linarith
  have hδ' : 18 / 10 ^ 8 * (1 + T) < 2 * (1 + C) := by linarith
  obtain ⟨q1, q2⟩ := abs_le.1 y1
  obtain ⟨p1, p2⟩ := abs_le.1 y2
  have e1 : (1 - T) / (1 + T) = 2 / (1 + T) - 1 := by field_simp; ring
  have e2 : -2 * C / (1 + T) = 2 * (1 - C) / (1 + T) - 2 / (1 + T) := by field_simp; ring
  have e3 : 2 * (1 + C) / (1 + T) = 2 * (2 / (1 + T)) - 2 * (1 - C) / (1 + T) := by field_simp; ring
  have m1 : 18 / 10 ^ 8 < 2 * (1 - C) / (1 + T) := (lt_div_iff₀ hT).2 hδ
  have m2 : 18 / 10 ^ 8 < 2 * (1 + C) / (1 + T) := (lt_div_iff₀ hT).2 hδ'
  have m3 : 2 / (1 + T) < 2 - 6 / 10 ^ 8 := by rw [div_lt_iff₀ hT]; linarith
  have m4 : 6 / 10 ^ 8 < 2 / (1 + T) := by rw [lt_div_iff₀ hT]; linarith
  rw [e1] at p1 p2
  rw [e2] at q1 q2
  rw [e3] at m2
  clear e1 e2 e3 y1 y2 hδ hδ' h1 h2 h3 h4 h5
  generalize 2 / (1 + T) = u at *
  generalize 2 * (1 - C) / (1 + T) = w at *
  constructor <;> rw [abs_lt] <;> constructor <;> linarith

/-- A set with the angle's cosine `c` and damping `t` has both poles inside the unit circle (40_coeff_factory.md R126). -/
theorem polesInside_of_damping (c t : F64) (hc : isFinite64 c = true) (ht : isFinite64 t = true)
    (h1 : -(1 - 18 / 10000) ≤ rat64 c) (h2 : rat64 c ≤ 1 - 209 / 10 ^ 9) (h3 : 7 / 10 ^ 6 ≤ rat64 t) (h4 : rat64 t ≤ 202 / 10)
    (h5 : rat64 t ^ 2 ≤ 811 * (1 - rat64 c)) (k : CoeffSet)
    (ha1 : k.a1 = rnd32 (div64 (mul64 0xC000000000000000#64 c) (add64 one64 t)))
    (ha2 : k.a2 = rnd32 (div64 (sub64 one64 t) (add64 one64 t))) : PolesInside k := by
  have hfn : isFinite64 0xC000000000000000#64 = true := const_negTwo64.1
  have hT : 0 < 1 + rat64 t := by linarith
  have b1 : |1 + rat64 t| ≤ 22 := by rw [abs_of_pos hT]; linarith
  have b2 : |1 - rat64 t| ≤ 1 + rat64 t := by rw [abs_le]; constructor <;> linarith
  have b3 : |-2 * rat64 c| ≤ 2 := by rw [abs_le]; constructor <;> linarith
  have b2' : |1 - rat64 t| ≤ 22 := b2.trans ((le_abs_self _).trans b1)
  have hmul := mul64_near hfn hc (by rw [const_negTwo64.2]; exact b3.trans (by norm_num))
  have hadd := add64_near fin_one64 ht (by rw [rat_one64]; exact b1.trans (by norm_num))
  have hsub := sub64_near fin_one64 ht (by rw [rat_one64]; exact b2'.trans (by norm_num))
  rw [const_negTwo64.2] at hmul
  rw [rat_one64] at hadd hsub
  have small : ∀ {x : ℚ} {v : F64}, |x| ≤ 22 → Near64 v x → |rat64 v - x| ≤ 1 / 2 ^ 46 := by
    intro x v hx hv
    refine hv.error.trans ?_
    calc |x| / 2 ^ 53 + 1 / 2 ^ 200 ≤ 22 / 2 ^ 53 + 1 / 2 ^ 200 := by gcongr
      _ ≤ _ := by norm_num
  obtain ⟨f1, g1, -⟩ := coeff_error hmul.1 hadd.1 (by linarith) (b3.trans (by norm_num)) (small (b3.trans (by norm_num)) hmul)
    (small b1 hadd)
  obtain ⟨f2, g2, -⟩ := coeff_error hsub.1 hadd.1 (by linarith) b2' (small b2' hsub) (small b1 hadd)
  rw [← ha1] at f1 g1
  rw [← ha2] at f2 g2
  have x1 : |-2 * rat64 c / (1 + rat64 t)| ≤ 2 := by
    rw [abs_div, abs_of_pos hT, div_le_iff₀ hT]; linarith
  have x2 : |(1 - rat64 t) / (1 + rat64 t)| ≤ 1 := by
    rw [abs_div, abs_of_pos hT, div_le_iff₀ hT, one_mul]; exact b2
  refine ⟨f1, f2, stable_of_errors h1 h2 h3 h4 h5 (g1.trans ?_) (g2.trans ?_)⟩
  · calc _ ≤ (2 : ℚ) / 2 ^ 24 + 1 / 2 ^ 39 := by gcongr
      _ ≤ _ := by norm_num
  · calc _ ≤ (1 : ℚ) / 2 ^ 24 + 1 / 2 ^ 39 := by gcongr
      _ ≤ _ := by norm_num

theorem rnd_nearOne : rnd32 0x3FF0000000800000#64 = 0x3F800000#32 := by decide +kernel

/-- The damping times the gain is alpha times A, but for rounding. -/
theorem damping_times_gain {al A T g : ℚ} (al1 : 31 / 10 ^ 6 ≤ al) (al2 : al ≤ 5006 / 1000) (A1 : 249 / 1000 ≤ A)
    (hT : |T - al / A| ≤ 2 / 10 ^ 15 * (al / A)) (hg : |A ^ 2 - g| ≤ g / 2 ^ 50) (g1 : 1 / 16 ≤ g) (g2 : g ≤ 16) :
    |al * A - g * T| ≤ 1 / 2 ^ 39 := by
  have hA : 0 < A := by linarith
  have hx0 : 0 ≤ al / A := div_nonneg (by linarith) hA.le
  have hx1 : al / A ≤ 21 := by rw [div_le_iff₀ hA]; linarith
  have e : al * A - g * T = (A ^ 2 - g) * (al / A) - g * (T - al / A) := by field_simp; ring
  rw [e]
  generalize al / A = x at *
  calc |(A ^ 2 - g) * x - g * (T - x)| ≤ |(A ^ 2 - g) * x| + |g * (T - x)| := abs_sub _ _
    _ = |A ^ 2 - g| * x + g * |T - x| := by rw [abs_mul, abs_mul, abs_of_nonneg hx0, abs_of_pos (show 0 < g by linarith)]
    _ ≤ 16 / 2 ^ 50 * 21 + 16 * (2 / 10 ^ 15 * 21) := by
      gcongr
      · exact hg.trans (by gcongr)
      · exact hT.trans (by gcongr)
    _ ≤ _ := by norm_num

/-- A coefficient of a peak set is at most 1 + 5 × 3.99. -/
theorem peak_coeff {num t : F64} {M : ℚ} (hn : isFinite64 num = true) (ht : isFinite64 t = true) (t1 : 0 ≤ rat64 t)
    (t2 : rat64 t ≤ 2012 / 100) (hM : |M| ≤ 2094 / 100) (hm : |rat64 num - M| ≤ 1 / 2 ^ 46) :
    isFinite64 (add64 one64 t) = true ∧ |rat64 (add64 one64 t) - (1 + rat64 t)| ≤ 1 / 2 ^ 46 ∧
    isFinite32 (rnd32 (div64 num (add64 one64 t))) = true ∧
    |rat32 (rnd32 (div64 num (add64 one64 t)))| ≤ 1 + 5 * (399 / 100) := by
  have hT : 0 < 1 + rat64 t := by linarith
  have hadd := add64_near fin_one64 ht (by rw [rat_one64, abs_of_pos hT]; linarith)
  have eadd := hadd.error
  rw [rat_one64] at eadd
  have eadd' : |rat64 (add64 one64 t) - (1 + rat64 t)| ≤ 1 / 2 ^ 46 := by
    have : |1 + rat64 t| / 2 ^ 53 ≤ 22 / 2 ^ 53 := by rw [abs_of_pos hT]; gcongr; linarith
    linarith
  refine ⟨hadd.1, eadd', ?_⟩
  refine coeff_bound (A := 1 + rat64 t) hn hadd.1 (by linarith) (hM.trans (by norm_num)) hm eadd' ?_
  have : |M / (1 + rat64 t)| ≤ 2094 / 100 := by
    rw [abs_div, abs_of_pos hT, div_le_iff₀ hT]
    have := abs_nonneg M
    nlinarith
  generalize |M / (1 + rat64 t)| = z at *
  linarith

/-- The quotient of `b0` is at most max(1, G), and its rounding at most the larger of 1 and the rounding of G. -/
theorem peak_b0_le {num t G : F64} {p : ℚ} (hn : isFinite64 num = true) (ht : isFinite64 t = true) (t1 : 0 ≤ rat64 t)
    (t2 : rat64 t ≤ 2012 / 100) (p0 : 0 ≤ p) (p1 : p ≤ 1994 / 100) (hm : |rat64 num - (1 + p)| ≤ 1 / 2 ^ 46)
    (hG : isFinite64 G = true) (g2 : rat64 G ≤ 16) (hpg : |p - rat64 G * rat64 t| ≤ 1 / 2 ^ 39) :
    rat32 (rnd32 (div64 num (add64 one64 t))) ≤ max 1 (rat32 (rnd32 G)) := by
  obtain ⟨hgp, hpg⟩ := abs_le.1 hpg
  have bM : |1 + p| ≤ 2094 / 100 := by rw [abs_of_nonneg (by linarith)]; linarith
  obtain ⟨hadd, eadd, -⟩ := peak_coeff hn ht t1 t2 bM hm
  have hT : 0 < 1 + rat64 t := by linarith
  obtain ⟨-, -, hρf, hρ⟩ := coeff_error (M := 1 + p) (A := 1 + rat64 t) hn hadd (by linarith) (bM.trans (by norm_num)) hm eadd
  generalize div64 num (add64 one64 t) = ρ at *
  obtain ⟨r1, r2⟩ := abs_le.1 hρ
  have hR0 : 1 / 22 ≤ (1 + p) / (1 + rat64 t) := by rw [le_div_iff₀ hT]; linarith
  have hρ0 : 0 < rat64 ρ := by linarith
  rcases le_or_gt (1 + 1 / 2 ^ 30) (rat64 G) with hbig | hsmall
  · refine le_max_of_le_right (rnd32_mono hρf hG hρ0 ?_ (by linarith))
    have : (1 + p) / (1 + rat64 t) ≤ rat64 G - 1 / 2 ^ 39 := by
      rw [div_le_iff₀ hT]
      have : (1 : ℚ) / 2 ^ 39 * (1 + rat64 t) ≤ 1 / 2 ^ 39 * 22 := by gcongr; linarith
      linarith
    linarith
  · refine le_max_of_le_left ?_
    have h1 : rat32 (rnd32 0x3FF0000000800000#64) = 1 := by
      rw [rnd_nearOne, rat_one32]
    rw [← h1]
    refine rnd32_mono hρf const_nearOne.1 hρ0 ?_ (by rw [const_nearOne.2]; norm_num)
    rw [const_nearOne.2]
    have : (1 + p) / (1 + rat64 t) ≤ 1 + 1 / 2 ^ 30 + 1 / 2 ^ 39 := by
      rw [div_le_iff₀ hT]
      have : rat64 G * rat64 t ≤ (1 + 1 / 2 ^ 30) * rat64 t := mul_le_mul_of_nonneg_right hsmall.le t1
      linarith
    linarith

theorem one_plus_near {a : F64} {p : ℚ} (ha : isFinite64 a = true) (p0 : 0 ≤ p) (p1 : p ≤ 1994 / 100)
    (h : |rat64 a - p| ≤ 1 / 2 ^ 48) :
    (isFinite64 (add64 one64 a) = true ∧ |rat64 (add64 one64 a) - (1 + p)| ≤ 1 / 2 ^ 46) ∧
    (isFinite64 (sub64 one64 a) = true ∧ |rat64 (sub64 one64 a) - (1 - p)| ≤ 1 / 2 ^ 46) := by
  obtain ⟨m1, m2⟩ := abs_le.1 h
  have b1 : |1 + rat64 a| ≤ 21 := by rw [abs_le]; constructor <;> linarith
  have b2 : |1 - rat64 a| ≤ 21 := by rw [abs_le]; constructor <;> linarith
  have hnp := add64_near fin_one64 ha (by rw [rat_one64]; exact b1.trans (by norm_num))
  have hnm := sub64_near fin_one64 ha (by rw [rat_one64]; exact b2.trans (by norm_num))
  have enp := hnp.error
  have enm := hnm.error
  rw [rat_one64] at enp enm
  obtain ⟨u1, u2⟩ := abs_le.1 (rounding_error_small b1 enp)
  obtain ⟨v1, v2⟩ := abs_le.1 (rounding_error_small b2 enm)
  refine ⟨⟨hnp.1, ?_⟩, ⟨hnm.1, ?_⟩⟩
  · rw [abs_le]; constructor <;> linarith
  · rw [abs_le]; constructor <;> linarith

end Sys2Proof.Machine
end

