-- ==== Sys2Proof/Laws/Process.lean ====
section
/-! SUPPORT. What sample processing depends on: the stages of its lane and the draws, nothing else of the state. -/
namespace Sys2Proof.Machine

/-- Two states that agree on the stages of lane `c` and on the draws. -/
def SameLane (c : Lane) (s s' : State) : Prop := (∀ j, s.stage c j = s'.stage c j) ∧ s.nanDraws = s'.nanDraws

/-- Two states that agree on the bypass flags and on the draws. -/
def SameFlags (s s' : State) : Prop :=
  (∀ c j, (s.stage c j).bypass = (s'.stage c j).bypass) ∧ s.nanDraws = s'.nanDraws

theorem SameLane.refl (c : Lane) (s : State) : SameLane c s s := ⟨fun _ => rfl, rfl⟩

theorem SameLane.symm {c : Lane} {s s' : State} (h : SameLane c s s') : SameLane c s' s :=
  ⟨fun j => (h.1 j).symm, h.2.symm⟩

theorem SameLane.trans {c : Lane} {s s' s'' : State} (h : SameLane c s s') (h' : SameLane c s' s'') :
    SameLane c s s'' :=
  ⟨fun j => (h.1 j).trans (h'.1 j), h.2.trans h'.2⟩

/-- One stage: the same output and agreement again (41_biquad_stage.md R142). -/
theorem stageProcess_sameLane {c : Lane} {s s' : State} (h : SameLane c s s') (j : StageIdx) (x : F32) :
    (stageProcess c j x s).1 = (stageProcess c j x s').1 ∧
      SameLane c (stageProcess c j x s).2 (stageProcess c j x s').2 := by
  cases hb : (s.stage c j).bypass with
  | true =>
    rw [stageProcess_bypassed hb, stageProcess_bypassed ((h.1 j) ▸ hb)]
    exact ⟨rfl, h⟩
  | false =>
    rw [stageProcess_active hb, stageProcess_active ((h.1 j) ▸ hb), h.1 j, h.2]
    refine ⟨rfl, fun j' => ?_, rfl⟩
    refine (s.stage_setStage c c j j' _).trans ((s'.stage_setStage c c j j' _).trans ?_).symm
    split
    · rfl
    · exact (h.1 j').symm

/-- A cut chain: the same output and agreement again. -/
theorem chainProcess_sameLane {c : Lane} {s s' : State} (h : SameLane c s s') (ch : Chain) (x : F32) :
    (chainProcess c ch x s).1 = (chainProcess c ch x s').1 ∧
      SameLane c (chainProcess c ch x s).2 (chainProcess c ch x s').2 := by
  have fold : ∀ (l : List Slot) (r r' : F32 × State), r.1 = r'.1 → SameLane c r.2 r'.2 →
      (l.foldl (fun r i => stageProcess c (slotStage ch i) r.1 r.2) r).1 =
        (l.foldl (fun r i => stageProcess c (slotStage ch i) r.1 r.2) r').1 ∧
      SameLane c (l.foldl (fun r i => stageProcess c (slotStage ch i) r.1 r.2) r).2
        (l.foldl (fun r i => stageProcess c (slotStage ch i) r.1 r.2) r').2 := by
    intro l
    induction l with
    | nil => exact fun _ _ h1 h2 => ⟨h1, h2⟩
    | cons i l ih =>
      rintro ⟨v, u⟩ ⟨v', u'⟩ h1 h2
      cases h1
      have := stageProcess_sameLane h2 (slotStage ch i) v
      exact ih _ _ this.1 this.2
  exact fold slots (x, s) (x, s') rfl h

/-- A lane: the same output and agreement again (43_stereo_processor.md R188). -/
theorem monoProcess_sameLane {c : Lane} {s s' : State} (h : SameLane c s s') (x : F32) :
    (monoProcess c x s).1 = (monoProcess c x s').1 ∧ SameLane c (monoProcess c x s).2 (monoProcess c x s').2 := by
  obtain ⟨h1, h1'⟩ := chainProcess_sameLane h .low x
  obtain ⟨h2, h2'⟩ := stageProcess_sameLane h1' peakStage (chainProcess c .low x s).1
  have h3 := chainProcess_sameLane h2' .high (stageProcess c peakStage (chainProcess c .low x s).1 (chainProcess c .low x s).2).1
  unfold monoProcess
  simp only
  rw [← h1, ← h2]
  exact h3

/-- One stage: how many draws it takes depends on its flag alone (41_biquad_stage.md R144). -/
theorem stageProcess_sameFlags {s s' : State} (h : SameFlags s s') (c : Lane) (j : StageIdx) (x x' : F32) :
    SameFlags (stageProcess c j x s).2 (stageProcess c j x' s').2 := by
  refine ⟨fun c' j' => ?_, ?_⟩
  · rw [(stageProcess_stage c j x s c' j').2.1, (stageProcess_stage c j x' s' c' j').2.1, h.1]
  · cases hb : (s.stage c j).bypass with
    | true => rw [stageProcess_bypassed hb, stageProcess_bypassed ((h.1 c j) ▸ hb)]; exact h.2
    | false =>
      rw [stageProcess_active hb, stageProcess_active ((h.1 c j) ▸ hb)]
      exact congrArg (· + 9) h.2

theorem chainProcess_sameFlags {s s' : State} (h : SameFlags s s') (c : Lane) (ch : Chain) (x x' : F32) :
    SameFlags (chainProcess c ch x s).2 (chainProcess c ch x' s').2 := by
  have fold : ∀ (l : List Slot) (r r' : F32 × State), SameFlags r.2 r'.2 →
      SameFlags (l.foldl (fun r i => stageProcess c (slotStage ch i) r.1 r.2) r).2
        (l.foldl (fun r i => stageProcess c (slotStage ch i) r.1 r.2) r').2 := by
    intro l
    induction l with
    | nil => exact fun _ _ h => h
    | cons i l ih => exact fun r r' h => ih _ _ (stageProcess_sameFlags h ..)
  exact fold slots (x, s) (x', s') h

theorem monoProcess_sameFlags {s s' : State} (h : SameFlags s s') (c : Lane) (x x' : F32) :
    SameFlags (monoProcess c x s).2 (monoProcess c x' s').2 :=
  chainProcess_sameFlags (stageProcess_sameFlags (chainProcess_sameFlags h ..) ..) ..

theorem SameFlags.bufWrite {s s' : State} (h : SameFlags s s') (c : Lane) (i : Nat) (v v' : F32) :
    SameFlags (s.bufWrite c i v) (s'.bufWrite c i v') := h

theorem SameLane.bufWrite {c : Lane} {s s' : State} (h : SameLane c s s') (i : Nat) (v v' : F32) :
    SameLane c (s.bufWrite c i v) (s'.bufWrite c i v') := h

theorem processSample_sameFlags {s s' : State} (h : SameFlags s s') (c : Lane) (i : Nat) (x x' : F32) :
    SameFlags (processSample c i x s) (processSample c i x' s') :=
  (monoProcess_sameFlags h c x x').bufWrite ..

/-- A lane's block: how many draws it takes depends on the flags and the length alone. -/
theorem blockLane_sameFlags {c : Lane} {n i : Nat} {s s' t t' : State} (h : SameFlags s s')
    (ht : blockLane c n i s = .ok t) (ht' : blockLane c n i s' = .ok t') : SameFlags t t' := by
  induction n generalizing i s s' with
  | zero => cases ht; cases ht'; exact h
  | succ n ih =>
    rw [blockLane_succ] at ht ht'
    split at ht
    · cases ht
    · split at ht'
      · cases ht'
      · exact ih (processSample_sameFlags h ..) ht ht'

/-- A word of a sample processed in place: its own. -/
theorem bufRead_processSample_self {c : Lane} {i : Nat} {x : F32} {s : State} (hi : i < Config.bufLen) :
    (processSample c i x s).bufRead c i = some (monoProcess c x s).1 := by
  simp only [State.bufRead, if_pos hi, processSample_mem, Memory.readWord_writeWord_same]

/-- A word that holds a value exists. -/
theorem bufRead_some_lt {c : Lane} {i : Nat} {x : F32} {s : State} (h : s.bufRead c i = some x) : i < Config.bufLen := by
  by_contra hn
  simp [State.bufRead, hn] at h

/-- A lane's block leaves the words before its first index alone. -/
theorem blockLane_bufRead_before {c : Lane} {n i : Nat} {s t : State} (h : blockLane c n i s = .ok t) {k : Nat}
    (hk : k < i) : t.bufRead c k = s.bufRead c k := by
  induction n generalizing i s with
  | zero => cases h; rfl
  | succ n ih =>
    rw [blockLane_succ] at h
    split at h
    · cases h
    · rename_i x hx
      rw [ih h (by omega), bufRead_processSample (.inr (by omega)) (bufRead_some_lt hx)]

/-- A lane's block reads only words that hold a value (43_stereo_processor.md R189). -/
theorem blockLane_reads {c : Lane} {n i : Nat} {s t : State} (h : blockLane c n i s = .ok t) {k : Nat} (hk : i ≤ k)
    (hk' : k < i + n) : (s.bufRead c k).isSome = true := by
  induction n generalizing i s with
  | zero => omega
  | succ n ih =>
    rw [blockLane_succ] at h
    split at h
    · cases h
    · rename_i x hx
      by_cases he : k = i
      · subst he; rw [hx]; rfl
      · have := ih h (by omega) (by omega)
        rwa [bufRead_processSample (.inr he) (bufRead_some_lt hx)] at this

/-- A lane's block stops at a word that holds no value (43_stereo_processor.md R189). -/
theorem blockLane_stops {c : Lane} {n i : Nat} {s : State} {e : Fault} (h : blockLane c n i s = .error e) :
    ∃ k, i ≤ k ∧ k < i + n ∧ e = .unwrittenSample c k ∧ s.bufRead c k = none := by
  induction n generalizing i s with
  | zero => cases h
  | succ n ih =>
    rw [blockLane_succ] at h
    split at h
    · cases h; exact ⟨i, by omega, by omega, rfl, by assumption⟩
    · rename_i x hx
      obtain ⟨k, hk, hk', he, hn⟩ := ih h
      exact ⟨k, by omega, by omega, he, by rwa [bufRead_processSample (.inr (by omega)) (bufRead_some_lt hx)] at hn⟩

/-- A lane's output up to an index depends on its stages, the draws and its input up to that index
(70_reset_and_hazards.md R262). -/
theorem blockLane_causal {c : Lane} {n i k : Nat} {s s' t t' : State} (h : SameLane c s s')
    (hin : ∀ m, i ≤ m → m < k → s.bufRead c m = s'.bufRead c m) (hk : k ≤ i + n)
    (ht : blockLane c n i s = .ok t) (ht' : blockLane c n i s' = .ok t') :
    (∀ m, i ≤ m → m < k → t.bufRead c m = t'.bufRead c m) ∧ (k = i + n → SameLane c t t') := by
  induction n generalizing i s s' with
  | zero => cases ht; cases ht'; exact ⟨fun m h1 h2 => hin m h1 h2, fun _ => h⟩
  | succ n ih =>
    by_cases hki : k ≤ i
    · exact ⟨fun m h1 h2 => by omega, fun he => by omega⟩
    rw [blockLane_succ] at ht ht'
    have h0 := hin i (le_refl _) (by omega)
    split at ht
    · cases ht
    · rename_i x hx
      rw [← h0, hx] at ht'
      simp only at ht'
      have hi := bufRead_some_lt hx
      have hm := monoProcess_sameLane h x
      have hsl : SameLane c (processSample c i x s) (processSample c i x s') := hm.2.bufWrite ..
      have := ih hsl (fun m h1 h2 => by
        rw [bufRead_processSample (.inr (by omega)) hi, bufRead_processSample (.inr (by omega)) hi]
        exact hin m (by omega) h2) (by omega) ht ht'
      refine ⟨fun m h1 h2 => ?_, fun he => this.2 (by omega)⟩
      by_cases hmi : m = i
      · subst hmi
        rw [blockLane_bufRead_before ht (by omega), blockLane_bufRead_before ht' (by omega),
          bufRead_processSample_self hi, bufRead_processSample_self hi, hm.1]
      · exact this.1 m (by omega) h2

/-- A block of both lanes, lane by lane. -/
theorem blockProcess_ok {n : Nat} {s t : State} (h : blockProcess n s = .ok t) :
    ∃ u, blockLane 0 n 0 s = .ok u ∧ blockLane 1 n 0 u = .ok t := by
  unfold blockProcess at h
  split at h
  · cases h
  · exact ⟨_, by assumption, h⟩

/-- A block stops at a word that holds no value (43_stereo_processor.md R189). -/
theorem blockProcess_stops {n : Nat} {s : State} {e : Fault} (h : blockProcess n s = .error e) :
    ∃ c k, k < n ∧ e = .unwrittenSample c k ∧ s.bufRead c k = none := by
  unfold blockProcess at h
  split at h
  · rename_i e' he
    cases h
    obtain ⟨k, _, hk, rfl, hn⟩ := blockLane_stops he
    exact ⟨0, k, by omega, rfl, hn⟩
  · rename_i u hu
    obtain ⟨k, _, hk, rfl, hn⟩ := blockLane_stops h
    exact ⟨1, k, by omega, rfl, by rwa [blockLane_bufRead_other hu (by decide)] at hn⟩

/-- A block that completes has read only words that hold a value. -/
theorem blockProcess_reads {n : Nat} {s t : State} (h : blockProcess n s = .ok t) (c : Lane) {k : Nat} (hk : k < n) :
    (s.bufRead c k).isSome = true := by
  obtain ⟨u, h0, h1⟩ := blockProcess_ok h
  have a := blockLane_reads h0 (k := k) (by omega) (by omega)
  have b := blockLane_reads h1 (k := k) (by omega) (by omega)
  rw [blockLane_bufRead_other h0 (by decide)] at b
  fin_cases c
  · exact a
  · exact b

end Sys2Proof.Machine
end

