-- ==== Sys2Proof/Laws/Invariant.lean ====
section
/-! SUPPORT. The parts of the invariant, and the operations that keep them. -/
namespace Sys2Proof

open Machine

/-- The buffer in its canonical form, made of whole words of `BUF_LEN` (10_state.md R34). -/
def MemOk (m : Memory) : Prop :=
  m.wf ∧ (∀ p ∈ m, ∃ (c : Lane) (i k : Nat), i < Config.bufLen ∧ k < 4 ∧ p.1 = bufOffset c i + k) ∧
  ∀ (c : Lane) (i k : Nat), i < Config.bufLen → k < 4 → (m.readByte (bufOffset c i + k)).isSome = (m.readWord (bufOffset c i)).isSome

/-- Writing a sample word that exists keeps the form. -/
theorem MemOk.write {m : Memory} (h : MemOk m) {c : Lane} {i : Nat} (hi : i < Config.bufLen) (w : Word) :
    MemOk (m.writeWord (bufOffset c i) w) := by
  obtain ⟨h1, h2, h3⟩ := h
  have hb := bufLen_bounds
  refine ⟨Memory.writeWord_wf h1 _ _, fun p hp => ?_, fun c' i' k hi' hk => ?_⟩
  · rcases Memory.writeWord_keys hp with h | h
    · exact ⟨c, i, p.1 - bufOffset c i, hi, by omega, by omega⟩
    · exact h2 p h
  · by_cases he : c = c' ∧ i = i'
    · obtain ⟨rfl, rfl⟩ := he
      rw [Memory.readWord_writeWord_same, Memory.readByte_writeWord]
      interval_cases k <;> simp
    · have hd := bufOffset_disjoint (c := c) (c' := c') (i := i) (i' := i') (by omega) (by omega) (by
        by_cases hc : c = c'
        · exact .inr fun e => he ⟨hc, e⟩
        · exact .inl hc)
      rw [Memory.readWord_writeWord_other _ _ _ _ hd.symm, Memory.readByte_writeWord_outside _ _ _ _ (by omega)]
      exact h3 c' i' k hi' hk

/-- A lane's block keeps the form. -/
theorem MemOk.blockLane {c : Lane} {n i : Nat} {s t : State} (h : blockLane c n i s = .ok t) (hs : MemOk s.mem) : MemOk t.mem := by
  induction n generalizing i s with
  | zero => cases h; exact hs
  | succ n ih =>
    rw [blockLane_succ] at h
    split at h
    · cases h
    · rename_i x hx
      refine ih h ?_
      rw [processSample_mem]
      exact hs.write (bufRead_some_lt hx) _

/-- A block keeps the form (43_stereo_processor.md R187). -/
theorem MemOk.blockProcess {n : Nat} {s t : State} (h : blockProcess n s = .ok t) (hs : MemOk s.mem) : MemOk t.mem := by
  unfold Machine.blockProcess at h
  split at h
  · cases h
  · rename_i u hu
    exact MemOk.blockLane h (MemOk.blockLane hu hs)

/-- A length as a word is its number. -/
theorem zext_nat (len : BitVec 16) : (zextLen len).toNat = len.toNat := by
  have := len.isLt
  unfold zextLen; rw [BitVec.toNat_setWidth, Nat.mod_eq_of_lt (by omega)]

/-- What acceptance lets in flight is legal (43_stereo_processor.md R180). -/
theorem PendingLegal.of_accept {s : State} {w : Word} {cmd : Command} (hm : matchRow w = some cmd) (hr : s.rejects cmd = none) :
    PendingLegal (s.accept w cmd) { opc := opcField w, len := lenField w, fsLatched := s.latchedRate cmd } := by
  have hb := bufLen_bounds
  refine ⟨cmd, by simp only [commandWord_of_matchRow hm, hm], fun len e => ?_, fun len e => ?_⟩
  · subst e
    unfold State.rejects at hr
    simp only at hr
    split at hr
    · cases hr
    · split at hr
      · cases hr
      · rename_i h1 h2
        have hz : (zextLen len).toNat = len.toNat := zext_nat len
        have hbw : bufLenWord.toNat = Config.bufLen := by unfold bufLenWord; rw [BitVec.toNat_ofNat, Nat.mod_eq_of_lt (by omega)]
        refine ⟨by simpa [State.latchedRate] using h1, ?_, ?_⟩
        · rcases Nat.eq_zero_or_pos len.toNat with h | h
          · exact absurd (.inl (BitVec.eq_of_toNat_eq (by rw [hz, h]; rfl))) h2
          · exact h
        · have : ¬ bufLenWord < zextLen len := fun h => h2 (.inr h)
          rw [BitVec.lt_def, hz, hbw] at this; omega
  · subst e
    unfold State.rejects at hr
    simp only at hr
    split at hr
    · cases hr
    · split at hr
      · cases hr
      · rename_i h1 h2
        have hz : (zextLen len).toNat = len.toNat := zext_nat len
        have hp : s.prepared = true := by simpa using h1
        refine ⟨hp, ?_⟩
        rw [BitVec.lt_def, hz] at h2
        exact Nat.le_of_not_lt h2

/-- Legality rests on `PREPARED` and `MAXBLK` only. -/
theorem PendingLegal.congr {s t : State} {p : Pending} (h1 : t.prepared = s.prepared) (h2 : t.maxBlk = s.maxBlk) (h : PendingLegal s p) : PendingLegal t p := by
  obtain ⟨cmd, a, b, c⟩ := h
  exact ⟨cmd, a, b, fun len e => by rw [h1, h2]; exact c len e⟩

/-- The invariant's claim about the buffer. -/
theorem Inv.memOk {s : State} (h : Inv s) : MemOk s.mem := by
  refine ⟨h.canonical, h.inBuffer, fun c i k hi hk => ?_⟩
  rw [h.wholeWords c i k hi hk, State.bufRead, if_pos hi]

/-- The invariant from its parts. -/
theorem Inv.of {s : State} (h1 : s.busy = s.pending.isSome) (h2 : s.err = false ↔ s.errCause = .none) (h3 : MemOk s.mem)
   (h4 : LanesAgree s) (h5 : s.prepared = true → badRate s.fs = false ∧ 1 ≤ s.maxBlk.toNat ∧ s.maxBlk.toNat ≤ Config.bufLen)
   (h6 : ∀ p, s.pending = some p → PendingLegal s p) (h7 : ∀ ws, Request.micro ws ∉ s.inbox) : Inv s :=
  ⟨h1, h2, h3.1, h3.2.1, fun c i k hi hk => by rw [h3.2.2 c i k hi hk, State.bufRead, if_pos hi], h4, h5, h6, h7⟩

/-- Taking a request off the list keeps the invariant. -/
theorem Inv.pop {s : State} {r : Request} {rest : List Request} (h : Inv s) (hi : s.inbox = r :: rest) : Inv { s with inbox := rest } :=
  Inv.of h.busy h.cause h.memOk h.lanesAgree h.prepared h.pending fun ws hm => h.noMicro ws (by rw [hi]; exact List.mem_cons_of_mem _ hm)


/-- Reporting a cause keeps the invariant (60_exceptions.md R222). -/
theorem Inv.report {s : State} (h : Inv s) {e : Cause} (he : e ≠ .none) : Inv (s.report e) := by
  refine Inv.of h.busy ?_ h.memOk h.lanesAgree h.prepared (fun p hp => PendingLegal.congr rfl rfl (h.pending p hp)) h.noMicro
  simp only [State.report]
  cases hs : s.err with
  | false => simpa using he
  | true =>
    have : ¬ s.errCause = .none := fun e => by rw [h.cause.2 e] at hs; cases hs
    simpa using this

/-- A write keeps the invariant (20_memory.md R65 to R68). -/
theorem Inv.write {s : State} (h : Inv s) (v : Word) (x : Target) : Inv (s.writeTarget v x) := by
  rcases writeTarget_cases s v x with e | ⟨_, e⟩ | ⟨_, e⟩ | ⟨_, e⟩ | ⟨_, _, e⟩ | ⟨_, _, _, _, _, e⟩ | ⟨c, i, _, hi, _, e⟩
  · rw [e]; exact h
  · rw [e]
    rcases present_cases s v with ⟨e, he, e'⟩ | ⟨_, cmd, hm, hr, e'⟩
    · rw [e']; exact h.report he
    · rw [e']
      refine Inv.of rfl h.cause h.memOk h.lanesAgree h.prepared (fun p hp => ?_) h.noMicro
      cases hp
      exact PendingLegal.of_accept hm hr
  · rw [e, writeStatus_eq]
    refine Inv.of h.busy ?_ h.memOk h.lanesAgree h.prepared (fun p hp => PendingLegal.congr rfl rfl (h.pending p hp)) h.noMicro
    have := h.cause
    simp only
    cases v.getLsbD 3 <;> simp_all
  · rw [e]; exact Inv.of h.busy h.cause h.memOk h.lanesAgree h.prepared (fun p hp => PendingLegal.congr rfl rfl (h.pending p hp)) h.noMicro
  · rw [e]; exact Inv.of h.busy h.cause h.memOk h.lanesAgree h.prepared (fun p hp => PendingLegal.congr rfl rfl (h.pending p hp)) h.noMicro
  · rw [e]; exact h.report (by decide)
  · rw [e]; exact Inv.of h.busy h.cause (h.memOk.write hi v) h.lanesAgree h.prepared (fun p hp => PendingLegal.congr rfl rfl (h.pending p hp)) h.noMicro

end Sys2Proof
end

