-- ==== Sys2Proof/Laws/PerInstr.lean ====
section
/-! SUPPORT. The per-instruction family RoundTrip: decoding the encoding of a well-formed instruction gives it back
(30_encoding.md R90, R92; the operand words of internal operations and transactions are the model's, log 4). -/
namespace Sys2Proof.Laws.RoundTrip

/-- Decoding what the encoder makes of a well-formed instruction gives that instruction. -/
def Statement (i : Instr) : Prop := WellFormed i → decode (encode i) = .ok i

theorem nop : Statement .nop := fun _ => rfl

theorem prepare (len : BitVec 16) : Statement (.prepare len) := fun _ => by
  simp only [encode, decode, decodeCommand, matchRow_prepare, Command.toInstr]

theorem reset : Statement .reset := fun _ => rfl

theorem updateAndProcess (len : BitVec 16) : Statement (.updateAndProcess len) := fun _ => by
  simp only [encode, decode, decodeCommand, matchRow_updateAndProcess, Command.toInstr]

/-- A label read back from its own word. -/
theorem parse_finish {label : Word} {ws : List Word} {i : Instr} (hp : parseUop label ws = .ok (i, []))
    (h : WellFormed i) : decode (.uop (label :: ws)) = .ok i := by
  simp only [decode, hp, bind, Except.bind, finish_nil h]

theorem convertSnapshot (fsd : F64) : Statement (.convertSnapshot fsd) := fun h =>
  parse_finish (by simp [parseUop, bind, Except.bind]) h

theorem designPeak (peakF gainDb q fsd : F64) : Statement (.designPeak peakF gainDb q fsd) := fun h =>
  parse_finish (by simp [parseUop, bind, Except.bind]) h

theorem designLowcut (lowF : F64) (kL : Nat) (fsd : F64) : Statement (.designLowcut lowF kL fsd) := fun h => by
  have hk := checkOrder_eq_none.1 h
  exact parse_finish (by simp [parseUop, bind, Except.bind, takeOrder_numWord (k := kL) (by omega)]) h

theorem designHighcut (highF : F64) (kH : Nat) (fsd : F64) : Statement (.designHighcut highF kH fsd) := fun h => by
  have hk := checkOrder_eq_none.1 h
  exact parse_finish (by simp [parseUop, bind, Except.bind, takeOrder_numWord (k := kH) (by omega)]) h

theorem stageSetCoeff (c : Lane) (j : StageIdx) (set : CoeffSet) : Statement (.stageSetCoeff c j set) := fun h =>
  parse_finish (by simp [parseUop, bind, Except.bind]) h

theorem stageSetBypass (c : Lane) (j : StageIdx) (b : Bool) : Statement (.stageSetBypass c j b) := fun h =>
  parse_finish (by simp [parseUop, bind, Except.bind]) h

theorem stageProcess (c : Lane) (j : StageIdx) (x : F32) : Statement (.stageProcess c j x) := fun h =>
  parse_finish (by simp [parseUop, bind, Except.bind, takeWord]) h

theorem stageClear (c : Lane) (j : StageIdx) : Statement (.stageClear c j) := fun h =>
  parse_finish (by simp [parseUop, bind, Except.bind]) h

theorem chainApplyOrder (c : Lane) (ch : Chain) (k : Nat) (seq : List CoeffSet) :
    Statement (.chainApplyOrder c ch k seq) := fun h => by
  obtain ⟨hk, h1, h4⟩ := checkSequence_eq_none.1 h
  have hs := takeSequence_sequenceWords (seq := seq) (by omega) h4 []
  rw [List.append_nil] at hs
  exact parse_finish (by simp [parseUop, bind, Except.bind, takeOrder_numWord (k := k) (by omega), hs]) h

theorem chainProcess (c : Lane) (ch : Chain) (x : F32) : Statement (.chainProcess c ch x) := fun h =>
  parse_finish (by simp [parseUop, bind, Except.bind, takeWord]) h

theorem monoProcess (c : Lane) (x : F32) : Statement (.monoProcess c x) := fun h =>
  parse_finish (by simp [parseUop, bind, Except.bind, takeWord]) h

theorem updateCut (kL : Nat) (lowSeq : List CoeffSet) (kH : Nat) (highSeq : List CoeffSet) :
    Statement (.updateCut kL lowSeq kH highSeq) := fun h => by
  have h2 : checkSequence kL lowSeq = none ∧ checkSequence kH highSeq = none := by
    cases hL : checkSequence kL lowSeq with
    | none => exact ⟨rfl, by simpa [WellFormed, Instr.check, hL] using h⟩
    | some why => simp [WellFormed, Instr.check, hL] at h
  obtain ⟨hk, h1, h4⟩ := checkSequence_eq_none.1 h2.1
  obtain ⟨hk', h1', h4'⟩ := checkSequence_eq_none.1 h2.2
  have hs := takeSequence_sequenceWords (seq := highSeq) (by omega) h4' []
  rw [List.append_nil] at hs
  exact parse_finish (by
    simp [parseUop, bind, Except.bind, takeOrder_numWord (k := kL) (by omega), takeOrder_numWord (k := kH) (by omega),
      takeSequence_sequenceWords (seq := lowSeq) (by omega) h4, hs]) h

theorem updatePeak (peakSet : CoeffSet) : Statement (.updatePeak peakSet) := fun h =>
  parse_finish (by simp [parseUop, bind, Except.bind]) h

theorem update : Statement .update := fun _ => rfl

theorem blockProcess (n : BitVec 16) : Statement (.blockProcess n) := fun h =>
  parse_finish (by simp only [parseUop, bind, Except.bind, takeLen_setWidth]; rfl) h

theorem chainsReset : Statement .chainsReset := fun _ => rfl

theorem memRead (a : Word) (n : Nat) : Statement (.memRead a n) := fun h => by
  obtain ⟨rfl, _⟩ := checkAccess_eq_none.1 h
  simp only [encode, decode]
  exact finish_nil h

theorem memWrite (a : Word) (n : Nat) (v : Word) : Statement (.memWrite a n v) := fun h => by
  obtain ⟨rfl, _⟩ := checkAccess_eq_none.1 h
  simp only [encode, decode]
  exact finish_nil h

end Sys2Proof.Laws.RoundTrip
end

