-- ==== Sys2Proof/Tests/Slice0.lean ====
section
/-! SUPPORT. The model's own tests. Expected values are the spec's: 95_test_vectors.md (V and P numbers), 30_encoding.md,
or its rules. Then one witness for the hypotheses of each statement that has some. -/
namespace Sys2Proof.Tests

open Machine

/-- The operation goes on to a state with the property. -/
def after (o : Result) (p : State → Bool) : Bool :=
  match o with
  | .next t => p t
  | .fault _ => false
  | .refused _ => false

/-- The coefficient set `K` of 95_test_vectors.md section 3. -/
def K : CoeffSet := ⟨0x3F000000#32, 0x3E800000#32, 0x3E000000#32, 0xBF000000#32, 0x3E800000#32⟩

/-- The set (0.5, 0, 0, 0, 0) of V4.8. -/
def half : CoeffSet := ⟨0x3F000000#32, 0#32, 0#32, 0#32, 0#32⟩

/-- The reset state with an active stage in lane 0. -/
def active (j : StageIdx) (set : CoeffSet) (s1 s2 : F32) : State := State.reset.setStage 0 j ⟨set, s1, s2, false⟩

/-- Prepared at 48000 Hz with blocks of 512. -/
def prepared : State :=
  { State.reset with fsArg := 0x473B8000#32, fs := 0x473B8000#32, maxBlk := 512#32, prepared := true }

/-- A command in flight on a prepared block, with the snapshot acceptance takes. -/
def inFlight (opc : BitVec 8) (len : BitVec 16) : State :=
  { prepared with busy := true, snap := paramReset, pending := some ⟨opc, len, 0x473B8000#32⟩ }

/-- The bypass flags of a lane, stage 0 to 8. -/
def flags (s : State) (c : Lane) : List Bool := (stages.map fun j => (s.stage c j).bypass)

/-! ### Well-formedness: an ill-formed term for each check, which the check refuses -/

theorem test_wf_order_code : ¬WellFormed (.designLowcut 0#64 4 0#64) ∧ ¬WellFormed (.designHighcut 0#64 4 0#64) := by
  decide

theorem test_wf_sequence :
    ¬WellFormed (.chainApplyOrder 0 .low 1 [K]) ∧ ¬WellFormed (.chainApplyOrder 0 .low 4 [K, K, K, K]) ∧
    ¬WellFormed (.updateCut 0 [K] 3 [K, K, K]) ∧ ¬WellFormed (.updateCut 0 [K, K, K, K, K] 0 [K]) := by
  decide

theorem test_wf_access :
    ¬WellFormed (.memRead 0x002#32 4) ∧ ¬WellFormed (.memRead 0x000#32 2) ∧ ¬WellFormed (.memWrite 0x001#32 4 0#32) := by
  decide

/-! ### Decoding, from words written out bit by bit (30_encoding.md R90, R92, R93, R96, R99) -/

theorem test_decode_nop : decode (.cmd 0b00000000000000000000000000000000#32) = .ok .nop := by decide
theorem test_decode_prepare : decode (.cmd 0b00000010000000000000000000000001#32) = .ok (.prepare 512#16) := by decide
theorem test_decode_reset : decode (.cmd 0b00000000000000000000000000000010#32) = .ok .reset := by decide
theorem test_decode_uap : decode (.cmd 0b00000000000010000000000000000011#32) = .ok (.updateAndProcess 8#16) := by decide

/-- V5.2: the illegal words. -/
theorem test_decode_illegal :
    [0x000000FF#32, 0x00000101#32, 0x00010002#32, 0x00010000#32, 0x12340004#32].all
      (fun w => decide (decode (.cmd w) = .error (.illegalCommand w))) = true := by
  decide

theorem test_decode_factory :
    decode (.uop [0b10000000#32, 0#32, 0x40E77000#32]) = .ok (.convertSnapshot 0x40E7700000000000#64) ∧
    decode (.uop [0b10000010#32, 0#32, 0x40590000#32, 3#32, 0#32, 0x40E77000#32]) =
      .ok (.designLowcut 0x4059000000000000#64 3 0x40E7700000000000#64) := by
  decide

theorem test_decode_stage :
    decode (.uop [0b10000100#32, 1#32, 8#32, 0x3F000000#32, 0x3E800000#32, 0x3E000000#32, 0xBF000000#32,
      0x3E800000#32]) = .ok (.stageSetCoeff 1 8 K) ∧
    decode (.uop [0b10000101#32, 0#32, 4#32, 1#32]) = .ok (.stageSetBypass 0 4 true) ∧
    decode (.uop [0b10000111#32, 0#32, 9#32]) = .error (.operandRange 9#32) := by
  decide

theorem test_decode_chain :
    decode (.uop [0b10001001#32, 0#32, 1#32, 0x3F800000#32]) = .ok (.chainProcess 0 .high 0x3F800000#32) ∧
    decode (.uop [0b10001010#32, 1#32, 0x3F800000#32]) = .ok (.monoProcess 1 0x3F800000#32) := by
  decide

theorem test_decode_stereo :
    decode (.uop [0b10001101#32]) = .ok .update ∧ decode (.uop [0b10001110#32, 512#32]) = .ok (.blockProcess 512#16) ∧
    decode (.uop [0b10001111#32]) = .ok .chainsReset ∧ decode (.uop [0b10010000#32]) = .error (.unknownLabel 0x90#32) := by
  decide

theorem test_decode_bus :
    decode (.bus [0#32, 0x00C#32, 4#32]) = .ok (.memRead 0x00C#32 4) ∧
    decode (.bus [1#32, 0x008#32, 4#32, 0x00000002#32]) = .ok (.memWrite 0x008#32 4 0x00000002#32) ∧
    decode (.bus [0#32, 0x00D#32, 4#32]) = .error (.illFormed (.accessForm 0x00D#32 4)) := by
  decide

/-- The numbers of spec/opcode_table.json: the first row of each format. -/
theorem test_decode_table :
    decodeTableWord 32 0x00000000 = some .nop ∧ decodeTableWord 8 0x8D = some .update ∧
    decodeTableWord 8 0x8F = some .chainsReset ∧ decodeTableWord 32 0x00000004 = none := by
  decide

/-- A row placed where `step` fetches runs at once: RESET completes (R181). -/
theorem test_fetch_word :
    after (step (State.reset.withFetchWord 32 0x00000002)) (fun t => t.done && !t.busy && t.pending.isNone) = true ∧
    after (step (State.reset.withFetchWord 8 0x8F)) (fun t => t == State.reset) = true := by
  decide

/-! ### The host commands -/

/-- V5.11: NOP completes with `STATUS` = 6 on a prepared block. -/
theorem test_nop : after (exec .nop (inFlight 0x00#8 0#16)) (fun t => t.statusWord == 6#32) = true := by decide

/-- V7.7: PREPARE of 48000 and 512 from reset. -/
theorem test_prepare :
    after (exec (.prepare 512#16) { State.reset with busy := true, pending := some ⟨0x01#8, 512#16, 0x473B8000#32⟩ })
      (fun t => t.statusWord == 6#32 && t.fs == 0x473B8000#32 && t.maxBlk == 0x200#32) = true := by
  decide

/-- V7.6: RESET when prepared. -/
theorem test_reset :
    after (exec .reset ((inFlight 0x02#8 0#16).setStage 1 4 ⟨K, 1#32, 2#32, false⟩))
      (fun t => t.statusWord == 6#32 && t.maxBlk == 512#32 && t.stage 1 4 == Stage.reset) = true := by
  decide

/-- P5: UPDATE_AND_PROCESS of LEN 0 updates: order codes 0 leave slots 0 and 5 and the peak active, lane 1 too. -/
theorem test_update_only :
    after (exec (.updateAndProcess 0#16) (inFlight 0x03#8 0#16)) (fun t => t.statusWord == 6#32 &&
      flags t 1 == [false, true, true, true, false, false, true, true, true]) = true := by
  decide +kernel

/-! ### The coefficient factory -/

/-- V2.6: the reset parameters at 48000. -/
theorem test_convert_reset :
    convertSnapshot paramReset 0x40E7700000000000#64 =
      { lowF := 0x4034000000000000#64, highF := 0x40D3880000000000#64, peakF := 0x4087700000000000#64
        gainDb := 0#64, q := 0x3FF0000000000000#64, kL := 0, kH := 0 } := by
  decide +kernel

/-- V2.1, V2.3 to V2.5: NaN, 30000 Hz, 5 Hz, 30 dB, quality 0, slopes 2.9 and -1.0, as one step. -/
theorem test_convert_limits :
    after (exec (.convertSnapshot 0x40E7700000000000#64) { State.reset with snap := #v[0x7FC00000#32, 0x46EA6000#32,
        0x40A00000#32, 0x41F00000#32, 0x00000000#32, 0x4039999A#32, 0xBF800000#32] })
      (fun t => t.result == .snapshot
        { lowF := 0x4034000000000000#64, highF := 0x40D3880000000000#64, peakF := 0x4034000000000000#64
          gainDb := 0x4038000000000000#64, q := 0x3FB999999999999A#64, kL := 2, kH := 0 }) = true := by
  decide +kernel

/-- V2.7: peak 1000 Hz, 0 dB, Q 1 at 48000, with the C library's cosine and sine of the angle. -/
theorem test_peak_0dB :
    peakSet 0x3FF0000000000000#64 0x3FEFB9EA92EC689B#64 0x3FC0B5150F6DA2D0#64 0x3FF0000000000000#64 =
      ⟨0x3F800000#32, 0xBFEE42A2#32, 0x3F60A1E8#32, 0xBFEE42A2#32, 0x3F60A1E8#32⟩ := by
  decide +kernel

/-- V2.9: the same at +6 dB: A is the square root of the C library's 10^0.3. -/
theorem test_peak_6dB :
    peakSet (sqrt64 0x3FFFEC982D5BB8AF#64) 0x3FEFB9EA92EC689B#64 0x3FC0B5150F6DA2D0#64 0x3FF0000000000000#64 =
      ⟨0x3F85A041#32, 0xBFF299DF#32, 0x3F5E230C#32, 0xBFF299DF#32, 0x3F69638F#32⟩ := by
  decide +kernel

/-- V2.14, V2.17: low-cut 100 Hz at 48000, k = 0 and the last section of k = 3. -/
theorem test_lowcut_100 :
    (qRom 0).map (cutSet .hp 0x3FEFFF4C54F76E1C#64 0x3F8ACEB7C72CA0A9#64) =
      [⟨0x3F7DA432#32, 0xBFFDA432#32, 0x3F7DA432#32, 0xBFFDA16A#32, 0x3F7B4DF5#32⟩] ∧
    ((qRom 3).map (cutSet .hp 0x3FEFFF4C54F76E1C#64 0x3F8ACEB7C72CA0A9#64))[3]? =
      some ⟨0x3F7F5645#32, 0xBFFF5645#32, 0x3F7F5645#32, 0xBFFF5378#32, 0x3F7EB224#32⟩ := by
  decide +kernel

/-- V2.19: high-cut 10000 Hz at 48000, k = 1. -/
theorem test_highcut_10000 :
    (qRom 1).map (cutSet .lp 0x3FD0907DC1930690#64 0x3FEEE8DD4748BF15#64) =
      [⟨0x3E4887EE#32, 0x3EC887EE#32, 0x3E4887EE#32, 0xBE8C0CD4#32, 0x3D68E586#32⟩,
        ⟨0x3E8A88B8#32, 0x3F0A88B8#32, 0x3E8A88B8#32, 0xBEC180DD#32, 0x3EEBA3BF#32⟩] := by
  decide +kernel

/-! ### The biquad stage -/

/-- V3.3, first step: the set changes, the state stays. -/
theorem test_set_coeff :
    after (exec (.stageSetCoeff 0 4 CoeffSet.unity) (active 4 K 0x3E800000#32 0xBE000000#32))
      (fun t => t.stage 0 4 == ⟨CoeffSet.unity, 0x3E800000#32, 0xBE000000#32, false⟩) = true := by
  decide

/-- V3.15, first step. -/
theorem test_set_bypass :
    after (exec (.stageSetBypass 0 4 true) (active 4 K 0x3E800000#32 0xBE000000#32))
      (fun t => t.stage 0 4 == ⟨K, 0x3E800000#32, 0xBE000000#32, true⟩) = true := by
  decide

/-- V3.2b. -/
theorem test_stage_process :
    after (exec (.stageProcess 0 4 0#32) (active 4 K 0x3F000000#32 0#32)) (fun t => t.result == .sample 0x3F000000#32 &&
      t.stage 0 4 == ⟨K, 0x3E800000#32, 0xBE000000#32, false⟩) = true := by
  decide

/-- V3.5: +∞ through `K` gives +∞, and a NaN in `s2`. -/
theorem test_stage_infinity :
    after (exec (.stageProcess 0 4 0x7F800000#32) (active 4 K 0#32 0#32)) (fun t => t.result == .sample 0x7F800000#32 &&
      (t.stage 0 4).s1 == 0x7F800000#32) = true := by
  decide

/-- V3.14. -/
theorem test_stage_clear :
    after (exec (.stageClear 0 4) (active 4 K 0x7FC00000#32 0x7FC00000#32))
      (fun t => t.stage 0 4 == ⟨⟨0x3F800000#32, 0#32, 0#32, 0#32, 0#32⟩, 0#32, 0#32, true⟩) = true := by
  decide

/-! ### The chains -/

/-- V4.3: from all active, k = 1 leaves slots 2 and 3 bypassed. -/
theorem test_apply_order_two :
    after (exec (.chainApplyOrder 0 .low 1 [K, half])
        { State.reset with lanes := Vector.replicate 2 (Vector.replicate 9 ⟨CoeffSet.unity, 1#32, 2#32, false⟩) })
      (fun t => t.stage 0 0 == ⟨K, 1#32, 2#32, false⟩ && t.stage 0 1 == ⟨half, 1#32, 2#32, false⟩ &&
        flags t 0 == [false, false, true, true, false, false, false, false, false]) = true := by
  decide

/-- V4.2 in the high-cut chain of lane 1: k = 3 activates all four slots. -/
theorem test_apply_order_four :
    after (exec (.chainApplyOrder 1 .high 3 [K, half, K, half]) State.reset)
      (fun t => (t.stage 1 8).coeffs == half &&
        flags t 1 == [true, true, true, true, true, false, false, false, false] && flags t 0 == flags State.reset 0) =
      true := by
  decide

/-- V4.8: two halves. -/
theorem test_chain_process :
    after (exec (.chainProcess 0 .low 0x3F800000#32) ((active 0 half 0#32 0#32).setStage 0 1 ⟨half, 0#32, 0#32, false⟩))
      (fun t => t.result == .sample 0x3E800000#32) = true := by
  decide

/-- V4.9: a reset lane is transparent, to a NaN too. -/
theorem test_mono_transparent :
    after (exec (.monoProcess 1 0x7FC00001#32) State.reset)
      (fun t => t == { State.reset with result := .sample 0x7FC00001#32 }) = true := by
  decide

/-- P3, first sample: 1.0 through V2.14, V2.7 and V2.18. -/
theorem test_mono_impulse :
    after (exec (.monoProcess 0 0x3F800000#32)
        (((active 0 ⟨0x3F7DA432#32, 0xBFFDA432#32, 0x3F7DA432#32, 0xBFFDA16A#32, 0x3F7B4DF5#32⟩ 0#32 0#32).setStage 0 4
          ⟨⟨0x3F800000#32, 0xBFEE42A2#32, 0x3F60A1E8#32, 0xBFEE42A2#32, 0x3F60A1E8#32⟩, 0#32, 0#32, false⟩).setStage 0 5
          ⟨⟨0x3E617AB8#32, 0x3EE17AB8#32, 0x3E617AB8#32, 0xBE9D7957#32, 0x3E40DD8E#32⟩, 0#32, 0#32, false⟩))
      (fun t => t.result == .sample 0x3E5F66E6#32) = true := by
  decide

/-! ### The stereo processor -/

/-- R184: the low-cut chains take order 2, the high-cut chains order 1, in both lanes. -/
theorem test_update_cut :
    after (exec (.updateCut 1 [K, half] 0 [half]) State.reset) (fun t =>
      flags t 0 == [false, false, true, true, true, false, true, true, true] && flags t 1 == flags t 0 &&
      (t.stage 1 5).coeffs == half) = true := by
  decide

/-- R185. -/
theorem test_update_peak :
    after (exec (.updatePeak K) State.reset) (fun t =>
      t.stage 0 4 == ⟨K, 0#32, 0#32, false⟩ && t.stage 1 4 == t.stage 0 4 && t.stage 0 3 == Stage.reset) = true := by
  decide

/-- P4: slope parameters 3.0 and 1.0 activate all low-cut slots and two high-cut slots. -/
theorem test_update :
    after (exec .update { prepared with snap := (paramReset.set 5 0x40400000#32).set 6 0x3F800000#32 }) (fun t =>
      flags t 0 == [false, false, false, false, false, false, false, true, true]) = true := by
  decide +kernel

/-- R187: a block of no samples changes nothing. -/
theorem test_block_empty : exec (.blockProcess 0#16) State.reset = .next State.reset := rfl

/-- R189: the first word of a block was never written. -/
theorem test_block_unwritten : exec (.blockProcess 8#16) State.reset = .fault (.unwrittenSample 0 0) := by
  simp [exec, execBlockProcess, blockProcess, blockLane, State.bufRead, State.reset, Memory.readWord, Memory.readByte]

/-- V7.5, R251. -/
theorem test_chains_reset :
    after (exec .chainsReset ((active 0 K 1#32 2#32).setStage 1 8 ⟨K, 1#32, 2#32, false⟩)) (fun t => t == State.reset) =
      true := by
  decide

/-! ### The bus -/

/-- V6.1, V6.2, V6.4, V6.10, V7.5. -/
theorem test_reads_after_reset :
    [(0x000#32, 0x42514331#32), (0x004#32, 0x00000001#32), (0x008#32, 0#32), (0x00C#32, 0#32), (0x020#32, 0#32),
      (0x05C#32, 0#32), (0x220#32, 0#32), (0x30000#32, 0#32), (0x11C#32, 0x00000001#32), (0x400#32, 0x3F800000#32)].all (fun p =>
      after (exec (.memRead p.1 4) State.reset) (fun t => t.readData == some p.2)) = true := by
  decide

/-- P1: `STATUS` after a rejected command of a prepared block whose last command completed. -/
theorem test_status_read :
    after (exec (.memRead 0x00C#32 4) { prepared with done := true, err := true, errCause := .blockTooLong })
      (fun t => t.readData == some 0x0000000E#32) = true := by
  decide

/-- V5.1 to V5.4, V5.8, V7.1: the cause each presented word leaves. -/
theorem test_rejections :
    ∀ p ∈ [(inFlight 0#8 0#16, 0x00000000#32, Cause.cmdBusy), (State.reset, 0x00010000#32, .illegalCmd),
      (State.reset, 0x00080003#32, .notPrepared), ({ State.reset with fsArg := 0x493B8000#32 }, 0x02000001#32, .badRate),
      ({ State.reset with fsArg := 0x7FC00000#32 }, 0x00000001#32, .badRate),
      ({ State.reset with fsArg := 0x45F9FFFF#32 }, 0x02000001#32, .badRate),
      ({ State.reset with fsArg := 0x45FA0000#32 }, 0x00000001#32, .badBlockSize),
      (prepared, 0x02010003#32, .blockTooLong),
      ({ State.reset with err := true, errCause := .illegalCmd }, 0x00080003#32, .illegalCmd)],
      after (exec (.memWrite 0x008#32 4 p.2.1) p.1) (fun t => t == { p.1 with err := true, errCause := p.2.2 }) = true := by
  decide

/-- V5.9: UPDATE_AND_PROCESS of 512 is accepted, with the snapshot. -/
theorem test_acceptance :
    after (exec (.memWrite 0x008#32 4 0x02000003#32) prepared) (fun t => t ==
      { prepared with busy := true, done := false, pending := some ⟨0x03#8, 512#16, 0#32⟩, snap := paramReset }) = true := by
  decide

/-! ## Witnesses: states and operands that meet the hypotheses of each statement, at boundary values of its clauses

`prepared`, `inFlight` and the states below stand for themselves; a statement without hypotheses has no witness. -/

/-- One sample in each lane. -/
def filled (s : State) : State := (s.bufWrite 0 0 0x3F800000#32).bufWrite 1 0 0x3F000000#32

theorem bufLen_pos : 0 < Config.bufLen ∧ 511 < Config.bufLen := by
  have := bufLen_bounds
  omega

theorem filled_read (s : State) (hm : s.mem = []) :
    (filled s).bufRead 0 0 = some 0x3F800000#32 ∧ (filled s).bufRead 1 0 = some 0x3F000000#32 := by
  have h0 := bufLen_pos.1
  simp only [filled, State.bufWrite, State.bufRead, if_pos h0, hm]
  decide

theorem filled_isSome (s : State) (hm : s.mem = []) (c : Lane) (i : Nat) (hi : i < 1) :
    ((filled s).bufRead c i).isSome = true := by
  obtain ⟨h0, h1⟩ := filled_read s hm
  obtain rfl : i = 0 := by omega
  have hc : c = 0 ∨ c = 1 := by revert c; decide
  rcases hc with rfl | rfl
  · rw [h0]; rfl
  · rw [h1]; rfl

theorem reset_unread (c : Lane) (i : Nat) : State.reset.bufRead c i = none ∧ prepared.bufRead c i = none := by
  simp [State.bufRead, prepared, State.reset, Memory.readWord, Memory.readByte]

/-- `DecodingAnEncodedInstructionGivesItBack`: well-formed instructions with operands at their bounds. -/
theorem witness_well_formed :
    WellFormed (.updateCut 0 [K] 3 [K, K, K, half]) ∧ WellFormed (.memWrite 0xFFFFFFFC#32 4 0xFFFFFFFF#32) ∧
    WellFormed (.designLowcut 0#64 3 0#64) := by
  decide

/-- `CommandWordsDecodeByTheOpcodeMap`: both lengths out of bounds for PREPARE, one too long for UPDATE_AND_PROCESS. -/
theorem witness_argument_bounds :
    (prepared.busy = false ∧ prepared.err = false ∧ prepared.prepared = true ∧ badRate prepared.fsArg = false) ∧
    (0x00000001#32 &&& 0x0000FFFF#32 = 0x00000001#32 ∧ (0x00000001#32 : Word).toNat / 65536 = 0) ∧
    (0xFFFF0001#32 &&& 0x0000FFFF#32 = 0x00000001#32 ∧ Config.bufLen < (0xFFFF0001#32 : Word).toNat / 65536) ∧
    (0x02010003#32 &&& 0x0000FFFF#32 = 0x00000003#32 ∧ prepared.maxBlk.toNat < (0x02010003#32 : Word).toNat / 65536) := by
  have := bufLen_bounds
  have e : (0xFFFF0001#32 : Word).toNat / 65536 = 65535 := by decide
  refine ⟨by decide, by decide, ⟨by decide, by omega⟩, by decide⟩

/-- `IllegalCommandWordsAreExactlyTheUnmatchedOnes`: a word for each way to be illegal, on an idle block. -/
theorem witness_illegal :
    4 ≤ (0x00000004#32 : Word).toNat % 256 ∧ (0x00000103#32 : Word).toNat / 256 % 256 ≠ 0 ∧
    ((0x00010000#32 : Word).toNat % 256 = 0 ∧ (0x00010000#32 : Word).toNat / 65536 ≠ 0) ∧
    ((0xFFFF0002#32 : Word).toNat % 256 = 2 ∧ (0xFFFF0002#32 : Word).toNat / 65536 ≠ 0) ∧ State.reset.busy = false := by
  decide

/-- `StepRunsTheDecodedInstruction`: a request of each kind, and a command in flight. -/
theorem witness_requests :
    decode (.bus [0#32, 0x3FFFC#32, 4#32]) = .ok (.memRead 0x3FFFC#32 4) ∧ decode (.uop [0x8F#32]) = .ok .chainsReset ∧
    (inFlight 0x03#8 8#16).pending = some ⟨0x03#8, 8#16, 0x473B8000#32⟩ ∧ (inFlight 0x03#8 8#16).inbox = [] ∧
    decode (.cmd (commandWord 0x03#8 8#16)) = .ok (.updateAndProcess 8#16) := by
  decide

/-- `PowerOnResetRestoresTheResetState`, `AnIdleBlockStaysAsItIs`: the requests, during a command and on an idle block. -/
theorem witness_power_on_and_idle :
    { inFlight 0x03#8 8#16 with inbox := [.powerOn] }.inbox = .powerOn :: [] ∧
    State.reset.pending = none ∧ State.reset.inbox = [] ∧ { State.reset with inbox := [.engine] }.inbox = .engine :: [] := by
  decide

/-- `TheFirstCauseIsKeptAndNothingElseIsWritten`: a first cause, and a second one that is not latched. -/
theorem witness_causes :
    exec (.memWrite 0x008#32 4 0x000000FF#32) State.reset =
      .next { State.reset with err := true, errCause := .illegalCmd } ∧
    exec (.memWrite 0x008#32 4 0x00080003#32) { State.reset with err := true, errCause := .illegalCmd } =
      .next { State.reset with err := true, errCause := .illegalCmd } ∧
    (0x00000004#32 : Word).getLsbD 3 = false :=
  ⟨rfl, rfl, rfl⟩

/-- `SampleRateArgumentRegister`: a PREPARE that is accepted. -/
theorem witness_accepted_prepare :
    exec (.memWrite 0x008#32 4 (commandWord 0x01#8 512#16)) prepared =
      .next { prepared with busy := true, pending := some ⟨0x01#8, 512#16, 0x473B8000#32⟩ } := by
  have h := bufLen_bounds
  have hr : prepared.rejects (.prepare 512#16) = none := by
    have hb : badRate prepared.fsArg = false := by decide
    have hl : ¬(zextLen 512#16 = 0#32 ∨ bufLenWord < zextLen 512#16) := by
      have e : bufLenWord.toNat = Config.bufLen := by
        unfold bufLenWord; rw [BitVec.toNat_ofNat, Nat.mod_eq_of_lt (by omega)]
      have z : (zextLen 512#16).toNat = 512 := rfl
      rintro (h0 | h0)
      · exact absurd h0 (by decide)
      · rw [BitVec.lt_def, e, z] at h0; omega
    simp only [State.rejects, hb, if_neg hl, Bool.false_eq_true, if_false]
  show Host.Outcome.next (prepared.present (commandWord 0x01#8 512#16)) = _
  have hm : matchRow (commandWord 0x01#8 512#16) = some (.prepare 512#16) := matchRow_prepare _
  have hb : prepared.busy = false := rfl
  simp only [State.present, hb, hm, hr]
  rfl

/-- `ParameterRegisters`: a write that changes a parameter, and one that changes the snapshot. -/
theorem witness_parameter_and_snapshot :
    exec (.memWrite 0x058#32 4 0x40400000#32) State.reset =
      .next { State.reset with param := State.reset.param.set 6 0x40400000#32 } ∧
    after (exec (.memWrite 0x008#32 4 0x00000003#32) prepared)
      (fun t => t.snap == prepared.param && t.snap != prepared.snap) = true :=
  ⟨rfl, by decide⟩

/-- `OnlyPrepareSetsRateAndBlockSize`, `OnlyAcceptanceAndCompletionMoveBusy`: an acceptance and a completion. -/
theorem witness_acceptance_and_completion :
    after (exec (.memWrite 0x008#32 4 0x00000000#32) prepared) (fun t => t.busy != prepared.busy) = true ∧
    exec .nop (inFlight 0x00#8 0#16) = .next { inFlight 0x00#8 0#16 with busy := false, done := true, pending := none } :=
  ⟨by decide, rfl⟩

/-- `HostAccessesWriteNoStage`, `SampleBufferAccess`, `WordsBeyondTheBufferDoNotExist`: a sample write on an idle block
changes a byte; the last word that exists for every `BUF_LEN`; a word that is written and one that is not. -/
theorem witness_sample_write :
    IsAccess (.memWrite 0x10000#32 4 1#32) ∧
    exec (.memWrite 0x10000#32 4 1#32) State.reset = .next (State.reset.bufWrite 0 0 1#32) ∧
    (State.reset.bufWrite 0 0 1#32).mem.readByte 0x10000 ≠ State.reset.mem.readByte 0x10000 ∧
    511 < Config.bufLen ∧ State.reset.busy = false ∧ (inFlight 0x00#8 0#16).busy = true ∧
    (filled State.reset).bufRead 1 0 = some 0x3F000000#32 ∧ State.reset.bufRead 1 511 = none ∧
    (Config.bufLen ≠ 16384 → Config.bufLen ≤ 16383) := by
  have h := bufLen_bounds
  refine ⟨.inr ⟨_, _, _, rfl⟩, ?_, by decide, by omega, rfl, rfl, (filled_read _ rfl).2, (reset_unread _ _).1, by omega⟩
  rw [exec_memWrite (by decide) (by decide), show target (0x10000#32 : Word).toNat = .sample 0 0 from rfl]
  rw [writeTarget_sample rfl _ (by omega)]

/-- `StageView`: the first and the last word, and the gaps between and after the lanes' words. -/
theorem witness_stage_view :
    ∀ off ∈ [0x100#32, 0x21C#32, 0x220#32, 0x2FC#32, 0x300#32, 0x41C#32, 0x420#32, 0x4FC#32],
      (off : Word).toNat % 4 = 0 ∧ 0x100 ≤ off.toNat ∧ off.toNat < 0x500 := by
  intro off h
  simp only [List.mem_cons, List.not_mem_nil, or_false] at h
  rcases h with rfl | rfl | rfl | rfl | rfl | rfl | rfl | rfl <;> decide

/-- `ReadOnlyAndReservedOffsets`: the first and last offset of each range. -/
theorem witness_reserved :
    ∀ off ∈ [0x020#32, 0x03C#32, 0x05C#32, 0x0FC#32, 0x500#32, 0xFFFC#32, 0x30000#32, 0x3FFFC#32, 0x01C#32, 0x4FC#32],
      (off : Word).toNat % 4 = 0 := by
  intro off h
  simp only [List.mem_cons, List.not_mem_nil, or_false] at h
  rcases h with rfl | rfl | rfl | rfl | rfl | rfl | rfl | rfl | rfl | rfl <;> decide

/-- `UnsupportedAccessFormsAreRefused`, `AlignedAccessesComplete`: both sides of each bound. -/
theorem witness_access_forms :
    (2 ≠ 4 ∧ (0x00D#32 : Word).toNat % 4 ≠ 0) ∧ ((0x3FFFC#32 : Word).toNat % 4 = 0 ∧ (0x3FFFC#32 : Word).toNat < 0x40000) ∧
    ((0x40000#32 : Word).toNat % 4 = 0 ∧ 0x40000 ≤ (0x40000#32 : Word).toNat) ∧
    (∀ c i, (0x3FFFC#32 : Word).toNat ≠ bufOffset c i ∨ Config.bufLen ≤ i) := by
  have h := bufLen_bounds
  refine ⟨by decide, by decide, by decide, fun c i => ?_⟩
  have e : (0x3FFFC#32 : Word).toNat = 262140 := rfl
  have := c.isLt
  unfold bufOffset
  omega

/-- `ReadsHaveNoSideEffect`: a read on an idle block. -/
theorem witness_read :
    State.reset.busy = false ∧
    exec (.memRead 0x000#32 4) State.reset = .next { State.reset with readData := some 0x42514331#32 } :=
  ⟨rfl, rfl⟩

/-- `DesignFunctionsHaveTheirProperties`: the ends of each interval. -/
theorem witness_intervals :
    (le64 0x3F454C985F06F694#64 0x3F454C985F06F694#64 = true ∧ le64 0x3F454C985F06F694#64 0x4008A161E4F765FE#64 = true ∧
      le64 0x4008A161E4F765FE#64 0x4008A161E4F765FE#64 = true) ∧
    (le64 0xBFF3333333333333#64 0xBFF3333333333333#64 = true ∧ le64 0xBFF3333333333333#64 0x3FF3333333333333#64 = true ∧
      le64 0x3FF3333333333333#64 0x3FF3333333333333#64 = true) := by
  decide +kernel

/-- `ConvertSnapshotClampsEveryParameter`: slopes of each case; `ConvertedParametersAreInRange`,
`OrderCodesAboveThreeAreRefused`: the least rate PREPARE accepts, a conversion that goes on, the least code refused. -/
theorem witness_conversion :
    (isNaN32 0x7FC00000#32 = true ∧ le64 (widen 0x80000000#32) 0#64 = true ∧
      le64 0x4008000000000000#64 (widen 0x40400000#32) = true ∧
      (le64 (widen 0x4039999A#32) 0#64 = false ∧ le64 0x4008000000000000#64 (widen 0x4039999A#32) = false)) ∧
    le64 0x4034000000000000#64 (mul64 0x3FDF5C28F5C28F5C#64 0x40BF400000000000#64) = true ∧ 3 < 4 := by
  decide +kernel

theorem witness_conversion_runs : ∃ t P,
    exec (.convertSnapshot 0x40BF400000000000#64) State.reset = .next t ∧ t.result = .snapshot P :=
  ⟨_, _, rfl, rfl⟩

/-- `ZeroDecibelPeakHasUnityForm`: 1000 Hz at 48000, quality 1, -0 dB. -/
theorem witness_unity_form :
    let alpha := div64 0x3FC0B5150F6DA2D0#64 (mul64 0x4000000000000000#64 0x3FF0000000000000#64)
    isZero64 0x8000000000000000#64 = true ∧ isFinite64 alpha = true ∧
    isFinite64 (add64 0x3FF0000000000000#64 alpha) = true ∧ isZero64 (add64 0x3FF0000000000000#64 alpha) = false := by
  decide +kernel

/-- `CutDesignsComputeTheirSections`: the last row of the table. -/
theorem witness_quality_row :
    ((3, 3, 0x400480D9D073B428#64) : Nat × Nat × F64) ∈ [((0, 0, 0x3FE6A09E667F3BCD#64) : Nat × Nat × F64),
      (3, 3, 0x400480D9D073B428#64)] := by
  simp

/-- The least angle the factory passes, 20 Hz at 192000 Hz; its cosine; its sine; and zero. -/
theorem lowAngle_values :
    val64 0x3F457254C2C98977#64 = .fin false (6036682881730935 * 2 ^ (Fmt.b64.unit - 63)) ∧
    val64 0x3FEFFFFF8D02C261#64 = .fin false (9007197325541985 * 2 ^ (Fmt.b64.unit - 53)) ∧
    val64 0x3F457254A91931B6#64 = .fin false (6036682450743734 * 2 ^ (Fmt.b64.unit - 63)) ∧
    val64 0#64 = .fin false 0 ∧ badRate 0x483B8000#32 = false := by decide +kernel

/-- The cosine and the sine are correctly rounded: from bounds on the sine of a ninth and of a half of the angle. -/
theorem accurate_lowAngle : AccurateAngle 0x3F457254C2C98977#64 0x3FEFFFFF8D02C261#64 0x3F457254A91931B6#64 := by
  obtain ⟨vw, vc, vs, -, -⟩ := lowAngle_values
  have number : ∀ {v : F64} {N k : Nat}, k ≤ Fmt.b64.unit → val64 v = .fin false (N * 2 ^ (Fmt.b64.unit - k)) →
      ((rat64 v : ℚ) : ℝ) = N / 2 ^ k := by
    intro v N k hk h
    rw [rat64_dyadic hk h, signFactor, if_neg Bool.false_ne_true, one_mul]
    push_cast
    rfl
  have hw : ((rat64 0x3F457254C2C98977#64 : ℚ) : ℝ) = 6036682881730935 / 2 ^ 63 := by
    rw [number (by decide) vw]; norm_num
  have hc : ((rat64 0x3FEFFFFF8D02C261#64 : ℚ) : ℝ) = 9007197325541985 / 2 ^ 53 := by
    rw [number (by decide) vc]; norm_num
  have hs : ((rat64 0x3F457254A91931B6#64 : ℚ) : ℝ) = 6036682450743734 / 2 ^ 63 := by
    rw [number (by decide) vs]; norm_num
  have unit_eq : ∀ {a b : Nat}, a + b = Fmt.b64.unit → (2 : ℝ) ^ a / 2 ^ Fmt.b64.unit = 1 / 2 ^ b := by
    intro a b h
    rw [← h, pow_add, div_mul_eq_div_div, div_self (pow_ne_zero _ (by norm_num))]
  -- the sine of a ninth of the angle and of half the angle, and from them the sine and the cosine of the angle
  obtain ⟨x, hx⟩ : ∃ x : ℝ, x = 6036682881730935 / 2 ^ 63 / 9 := ⟨_, rfl⟩
  have b9 := Real.sin_bound (x := x) (by rw [hx, abs_of_nonneg (by norm_num)]; norm_num)
  have b2 := Real.sin_bound (x := x * 9 / 2) (by rw [hx, abs_of_nonneg (by norm_num)]; norm_num)
  have esin : Real.sin (6036682881730935 / 2 ^ 63) =
      3 * (3 * Real.sin x - 4 * Real.sin x ^ 3) - 4 * (3 * Real.sin x - 4 * Real.sin x ^ 3) ^ 3 := by
    rw [← Real.sin_three_mul, ← Real.sin_three_mul, hx]; congr 1; ring
  have ecos : Real.cos (6036682881730935 / 2 ^ 63) = 1 - 2 * Real.sin (x * 9 / 2) ^ 2 := by
    rw [show (6036682881730935 / 2 ^ 63 : ℝ) = 2 * (x * 9 / 2) by rw [hx]; ring, Real.cos_two_mul, Real.cos_sq']; ring
  have hx0 : 0 ≤ x := by rw [hx]; norm_num
  rw [abs_of_nonneg hx0] at b9
  rw [abs_of_nonneg (show 0 ≤ x * 9 / 2 by linarith)] at b2
  obtain ⟨l9, u9⟩ := abs_le.1 b9
  obtain ⟨l2, u2⟩ := abs_le.1 b2
  have p1 : 7272205210233199966878413443 / 10 ^ 32 ≤ Real.sin x := by
    have : (7272205210233199966878413443 / 10 ^ 32 : ℝ) ≤ x - x ^ 3 / 6 - x ^ 5 / 100 := by rw [hx]; norm_num
    linarith
  have p2 : Real.sin x ≤ 7272205210233199970946223121 / 10 ^ 32 := by
    have : x - x ^ 3 / 6 + x ^ 5 / 100 ≤ (7272205210233199970946223121 / 10 ^ 32 : ℝ) := by rw [hx]; norm_num
    linarith
  have q1 : 32724922890797084998581155788 / 10 ^ 32 ≤ Real.sin (x * 9 / 2) := by
    have : (32724922890797084998581155788 / 10 ^ 32 : ℝ) ≤ x * 9 / 2 - (x * 9 / 2) ^ 3 / 6 - (x * 9 / 2) ^ 5 / 100 := by
      rw [hx]; norm_num
    linarith
  have q2 : Real.sin (x * 9 / 2) ≤ 32724922890797092504834080030 / 10 ^ 32 := by
    have : x * 9 / 2 - (x * 9 / 2) ^ 3 / 6 + (x * 9 / 2) ^ 5 / 100 ≤ (32724922890797092504834080030 / 10 ^ 32 : ℝ) := by
      rw [hx]; norm_num
    linarith
  clear b9 b2 l9 u9 l2 u2
  -- tripling twice
  have triple : ∀ {a lo hi : ℝ}, 0 ≤ lo → lo ≤ a → a ≤ hi → 3 * lo - 4 * hi ^ 3 ≤ 3 * a - 4 * a ^ 3 ∧
      3 * a - 4 * a ^ 3 ≤ 3 * hi - 4 * lo ^ 3 := by
    intro a lo hi h0 h1 h2
    have c1 : lo ^ 3 ≤ a ^ 3 := by gcongr
    have c2 : a ^ 3 ≤ hi ^ 3 := by gcongr; linarith
    constructor <;> linarith
  obtain ⟨t1, t2⟩ := triple (by norm_num) p1 p2
  obtain ⟨v1, v2⟩ := triple (by norm_num) t1 t2
  rw [← esin] at v1 v2
  have c1 : (32724922890797084998581155788 / 10 ^ 32 : ℝ) ^ 2 ≤ Real.sin (x * 9 / 2) ^ 2 := by gcongr
  have c2 : Real.sin (x * 9 / 2) ^ 2 ≤ (32724922890797092504834080030 / 10 ^ 32 : ℝ) ^ 2 := by
    have : (0 : ℝ) ≤ Real.sin (x * 9 / 2) := le_trans (by norm_num) q1
    gcongr
  constructor
  · refine withinOneUlp_reference (correctlyRounded_of_close vc (by norm_num) ?_)
    rw [hw, hc, unit_eq (Nat.sub_add_cancel (by decide)), ecos, abs_le]
    constructor
    · norm_num at c1 c2 ⊢; linarith
    · norm_num at c1 c2 ⊢; linarith
  · refine withinOneUlp_reference (correctlyRounded_of_close vs (by norm_num) ?_)
    rw [hw, hs, unit_eq (Nat.sub_add_cancel (by decide)), abs_le]
    constructor
    · norm_num at v1 v2 ⊢; linarith
    · norm_num at v1 v2 ⊢; linarith

/-- The gain of 0 dB. -/
theorem accurate_unitGain : AccurateExp10 0#64 one64 := by
  have h0 : rat64 0#64 = 0 := by
    rw [rat64_of_val lowAngle_values.2.2.2.1, Nat.cast_zero, mul_zero, zero_div]
  have := correctlyRounded_rat64 fin_one64
  rw [rat_one64] at this
  refine withinOneUlp_reference ?_
  rw [h0, Rat.cast_zero, Real.rpow_zero]
  simpa using this

/-- A snapshot with every frequency at 20 Hz, 0 dB and quality 1. -/
def lowSnap : Vector F32 7 :=
  #v[0x41A00000#32, 0x41A00000#32, 0x41A00000#32, 0x00000000#32, 0x3F800000#32, 0x00000000#32, 0x00000000#32]

/-- Its conversion at the highest rate gives the least angle for each frequency, and a gain exponent of zero. -/
theorem lowSnap_converts :
    let fsd := widen 0x483B8000#32
    let P := convertSnapshot lowSnap fsd
    angle P.peakF fsd = 0x3F457254C2C98977#64 ∧ angle P.lowF fsd = 0x3F457254C2C98977#64 ∧
    angle P.highF fsd = 0x3F457254C2C98977#64 ∧ div64 P.gainDb 0x4034000000000000#64 = 0#64 ∧
    0x3FE6A09E667F3BCD#64 ∈ qRom P.kL ∧ 0x3FE6A09E667F3BCD#64 ∈ qRom P.kH := by decide +kernel

/-- `DesignedSetsAreStable`, `DesignedCoefficientsAreFiniteAndBounded`: every premise, at the least angle the factory passes
(20 Hz at the highest rate), where the margin of R126 is least. -/
theorem witness_designs : ∃ (fs : F32) (snap : Vector F32 7) (c s G : F64), badRate fs = false ∧
    (let fsd := widen fs
    let P := convertSnapshot snap fsd
    AccurateAngle (angle P.peakF fsd) c s ∧ AccurateExp10 (div64 P.gainDb 0x4034000000000000#64) G ∧
    AccurateAngle (angle P.lowF fsd) c s ∧ (∃ Q, Q ∈ qRom P.kL) ∧
    AccurateAngle (angle P.highF fsd) c s ∧ ∃ Q, Q ∈ qRom P.kH) := by
  obtain ⟨h1, h2, h3, h4, h5, h6⟩ := lowSnap_converts
  refine ⟨0x483B8000#32, lowSnap, 0x3FEFFFFF8D02C261#64, 0x3F457254A91931B6#64, one64, lowAngle_values.2.2.2.2, ?_⟩
  simp only [h1, h2, h3, h4]
  exact ⟨accurate_lowAngle, accurate_unitGain, accurate_lowAngle, ⟨_, h5⟩, accurate_lowAngle, ⟨_, h6⟩⟩

/-- The statements about one stage: bypassed, active, with a NaN in `s1` or `s2`, and the worked cases' stages. -/
theorem witness_stage :
    (State.reset.stage 1 8).bypass = true ∧ ((active 4 K 0#32 0#32).stage 0 4).bypass = false ∧
    isNaN32 ((active 4 K 0x7FC00000#32 0#32).stage 0 4).s1 = true ∧
    isNaN32 ((active 4 K 0#32 0xFFFFFFFF#32).stage 0 4).s2 = true ∧
    (active 4 K 0#32 0#32).stage 0 4 = { coeffs := K, s1 := 0#32, s2 := 0#32, bypass := false } := by
  decide

/-- `StageSettersChangeOnlyTheirField`: another stage, and values already there. -/
theorem witness_same_value :
    ¬((1 : Lane) = 0 ∧ (8 : StageIdx) = 8) ∧ CoeffSet.unity = (State.reset.stage 0 8).coeffs ∧
    true = (State.reset.stage 0 8).bypass := by
  decide

/-- `ZeroDecibelPeakIsTheIdentity`: the peak of V2.7, at 0.75 and at the greatest sample below 2^126. -/
theorem witness_flat_peak :
    let s := active 4 ⟨0x3F800000#32, 0xBFEE42A2#32, 0x3F60A1E8#32, 0xBFEE42A2#32, 0x3F60A1E8#32⟩ 0#32 0x80000000#32
    (∃ m, val32 0xBFEE42A2#32 = .fin true m ∧ m < 2 * 2 ^ 149) ∧ (∃ m, val32 0x3F60A1E8#32 = .fin false m ∧ m < 2 ^ 149) ∧
    (∃ m, val32 0x3F400000#32 = .fin false m ∧ m < 2 ^ 126 * 2 ^ 149) ∧
    (∃ m, val32 0x7E7FFFFF#32 = .fin false m ∧ m < 2 ^ 126 * 2 ^ 149) ∧
    IsZero32 (s.stage 0 4).s1 ∧ IsZero32 (s.stage 0 4).s2 := by
  refine ⟨⟨_, rfl, by decide⟩, ⟨_, rfl, by decide⟩, ⟨_, rfl, by decide⟩,
    ⟨_, rfl, by decide⟩, .inl rfl, .inr rfl⟩

/-- `ApplyOrderActivatesExactlyTheFirstSlots`, `UpdateCutUpdatesBothLanes`: the least and the greatest order code, with
sequences that are just long enough. -/
theorem witness_orders : (0 ≤ 3 ∧ 0 + 1 ≤ [K].length) ∧ (3 ≤ 3 ∧ 3 + 1 ≤ [K, half, K, half].length) := by
  decide

/-- `ChainProcessIsItsSlotsInOrder`, `MonoProcessIsLowPeakHigh`: a lane with every stage bypassed. -/
theorem witness_bypassed_lane : ∀ (c : Lane) (j : StageIdx), (State.reset.stage c j).bypass = true := by
  decide

/-- `SilenceStaysSilence`: an active lane with zeros of both signs. -/
theorem witness_silence :
    let s := active 4 K 0x80000000#32 0#32
    (∀ j, IsZero32 (s.stage 0 j).s1 ∧ IsZero32 (s.stage 0 j).s2) ∧
    (∀ j, ∀ k ∈ [(s.stage 0 j).coeffs.b0, (s.stage 0 j).coeffs.b1, (s.stage 0 j).coeffs.b2, (s.stage 0 j).coeffs.a1,
      (s.stage 0 j).coeffs.a2], isFinite32 k = true) ∧ IsZero32 0x80000000#32 := by
  refine ⟨?_, ?_, .inr rfl⟩
  · unfold IsZero32; decide
  · intro j k hk
    have : ∀ j, [((active 4 K 0x80000000#32 0#32).stage 0 j).coeffs.b0, ((active 4 K 0x80000000#32 0#32).stage 0 j).coeffs.b1,
      ((active 4 K 0x80000000#32 0#32).stage 0 j).coeffs.b2, ((active 4 K 0x80000000#32 0#32).stage 0 j).coeffs.a1,
      ((active 4 K 0x80000000#32 0#32).stage 0 j).coeffs.a2].all isFinite32 = true := by decide
    exact List.all_eq_true.1 (this j) k hk

/-- `UpdateIsItsStepsInOrder`, `LanesAgreeAfterEveryCommand`: lanes that agree, a command and an access that go on. -/
theorem witness_lanes_agree :
    LanesAgree prepared ∧ LanesAgree (inFlight 0x02#8 0#16) ∧
    exec (Command.toInstr .nop) (inFlight 0x00#8 0#16) = .next (inFlight 0x00#8 0#16).complete ∧
    IsAccess (.memWrite 0x014#32 4 1#32) ∧ exec (.memWrite 0x014#32 4 1#32) prepared = .next { prepared with fsArg := 1#32 } :=
  ⟨by unfold LanesAgree; decide, by unfold LanesAgree; decide, rfl, .inr ⟨_, _, _, rfl⟩, rfl⟩

/-- `BlockProcessRunsEverySampleInPlace`, `UpdateAndProcessUpdatesThenProcesses`: a block of one written sample, and an
empty one. -/
theorem witness_written_block :
    (∀ c i, i < (1#16 : BitVec 16).toNat → ((filled (inFlight 0x03#8 1#16)).bufRead c i).isSome = true) ∧
    (∀ c i, i < (0#16 : BitVec 16).toNat → ((inFlight 0x03#8 0#16).bufRead c i).isSome = true) ∧
    (filled (inFlight 0x03#8 1#16)).pending = some ⟨0x03#8, 1#16, 0x473B8000#32⟩ ∧ (1#16 : BitVec 16) ≠ 0#16 :=
  ⟨fun c i h => filled_isSome _ rfl c i h, fun _ _ h => absurd h (Nat.not_lt_zero _), rfl, by decide⟩

/-- `UnwrittenSamplesFault`: a block of one sample never written, with a command in flight. -/
theorem witness_unwritten_block :
    (∃ c i, i < (1#16 : BitVec 16).toNat ∧ (inFlight 0x03#8 1#16).bufRead c i = none) ∧
    (inFlight 0x03#8 1#16).pending.isSome = true :=
  ⟨⟨1, 0, by decide, (reset_unread 1 0).2⟩, rfl⟩

/-- `LanesAreIsolatedAndCausal`: two states that differ in the other lane's sample and state word, each with a block of
one sample that completes. -/
theorem witness_isolation :
    let s := filled prepared
    let s' := (filled (prepared.setStage 1 4 { Stage.reset with s1 := 1#32 })).bufWrite 1 0 0x40000000#32
    (1 ≤ (1#16 : BitVec 16).toNat) ∧ s ≠ s' ∧ (∀ j, s.stage 0 j = s'.stage 0 j) ∧
    (∀ c j, (s.stage c j).bypass = (s'.stage c j).bypass) ∧ s.nanDraws = s'.nanDraws ∧
    (∀ i, i < 1 → s.bufRead 0 i = s'.bufRead 0 i) ∧
    (∃ t, exec (.blockProcess 1#16) s = .next t) ∧ ∃ t', exec (.blockProcess 1#16) s' = .next t' := by
  intro s s'
  have h0 := bufLen_pos.1
  have r : ∀ c : Lane, ∀ k, k < 1 → (∃ x, s.bufRead c k = some x) ∧ ∃ x, s'.bufRead c k = some x := by
    intro c k hk
    obtain rfl : k = 0 := by omega
    simp only [s, s', filled, State.bufWrite, State.bufRead, if_pos h0]
    have : (Memory.readWord (filled prepared).mem (bufOffset c 0)).isSome = true ∧
        (Memory.readWord ((filled prepared).bufWrite 1 0 0x40000000#32).mem (bufOffset c 0)).isSome = true := by
      revert c; decide
    exact ⟨Option.isSome_iff_exists.1 this.1, Option.isSome_iff_exists.1 this.2⟩
  refine ⟨by decide, fun e => ?_, by decide, by decide, rfl, fun i hi => ?_, ?_, ?_⟩
  · have := congrArg (fun x : State => (x.stage 1 4).s1) e
    exact absurd this (by decide)
  · obtain rfl : i = 0 := by omega
    simp only [s, s', filled, State.bufWrite, State.bufRead, if_pos h0]
    decide
  · obtain ⟨t, ht⟩ := blockProcess_completes (n := 1) (s := s) fun c k hk => (r c k hk).1
    exact ⟨t, by simp only [exec, execBlockProcess]; rw [show (1#16 : BitVec 16).toNat = 1 from rfl, ht]⟩
  · obtain ⟨t, ht⟩ := blockProcess_completes (n := 1) (s := s') fun c k hk => (r c k hk).2
    exact ⟨t, by simp only [exec, execBlockProcess]; rw [show (1#16 : BitVec 16).toNat = 1 from rfl, ht]⟩

/-- The statements of NOP, PREPARE and RESET: an idle block, a busy one, a command in flight. -/
theorem witness_in_flight :
    State.reset.busy = false ∧ (inFlight 0x00#8 0#16).busy = true ∧
    (inFlight 0x00#8 0#16).pending = some ⟨0x00#8, 0#16, 0x473B8000#32⟩ ∧
    (inFlight 0x01#8 512#16).pending = some ⟨0x01#8, 512#16, 0x473B8000#32⟩ ∧
    (inFlight 0x02#8 0#16).pending = some ⟨0x02#8, 0#16, 0x473B8000#32⟩ := by
  decide

/-- The invariant of a prepared block that processes a block of one sample, with two requests to come. -/
def running : State :=
  { filled (inFlight 0x03#8 1#16) with inbox := [.host [1#32, 0x10000#32, 4#32, 7#32], .engine] }

/-- `EveryStepKeepsTheInvariant`, `EveryAcceptedCommandCompletes`: a busy block with a sample written in each lane. -/
theorem witness_running :
    Inv running ∧ (∃ t, step running = .next t) ∧ running.pending = some ⟨0x03#8, 1#16, 0x473B8000#32⟩ ∧
    (∀ r ∈ running.inbox, r = .engine ∨ ∃ a v, a.toNat % 4 = 0 ∧ a.toNat < 0x40000 ∧
      (r = .host [0#32, a, 4#32] ∨ r = .host [1#32, a, 4#32, v])) ∧
    (∀ c i, i < (1#16 : BitVec 16).toNat → (running.bufRead c i).isSome = true) := by
  have h := bufLen_bounds
  have hb : ∀ c : Lane, bufOffset c 0 = 0x10000 + 0x10000 * c.val := fun c => rfl
  have hw : ∀ m : Memory, MemOk m → ∀ c v, MemOk (m.writeWord (bufOffset c 0) v) := fun m hm c v => hm.write (by omega) v
  have he : MemOk [] := ⟨List.Pairwise.nil, fun p hp => absurd hp List.not_mem_nil, fun _ _ _ _ _ => rfl⟩
  refine ⟨Inv.of rfl (by decide) (hw _ (hw _ he 0 _) 1 _) (by unfold LanesAgree; decide) (fun _ => ⟨by decide, by decide, ?_⟩)
      (fun p hp => ?_) (fun ws hm => ?_), ⟨_, rfl⟩, rfl, ?_, fun c i hi => filled_isSome _ rfl c i hi⟩
  · show 512 ≤ Config.bufLen; omega
  · cases hp
    refine ⟨.updateAndProcess 1#16, by decide, ?_, ?_⟩
    · intro len e; cases e
    · intro len e; cases e; exact ⟨rfl, by decide⟩
  · simp [running] at hm
  · intro r hr
    simp only [running, List.mem_cons, List.not_mem_nil, or_false] at hr
    rcases hr with rfl | rfl
    · exact .inr ⟨0x10000#32, 7#32, by decide, by decide, .inr rfl⟩
    · exact .inl rfl

/-- `HostAccessesCannotDisturbACommandInFlight`: a parameter write and a rejected sample write during a command. -/
theorem witness_host_accesses :
    HostAccesses (inFlight 0x02#8 0#16) { inFlight 0x02#8 0#16 with fsArg := 1#32, err := true, errCause := .cmdBusy } ∧
    (inFlight 0x02#8 0#16).busy = true ∧ ∃ u, exec (Command.toInstr .reset) (inFlight 0x02#8 0#16) = .next u :=
  ⟨.more (.inr ⟨0x014#32, 4, 1#32, rfl⟩) rfl (.more (.inr ⟨0x008#32, 4, 0#32, rfl⟩) rfl (.none _)), rfl, _, rfl⟩

end Sys2Proof.Tests
end

section
/-! Proofs of the statements about the state (10_state.md): the reset values (R40), `FS_ARG` (R26), and the agreement of
the lanes (R39). -/
namespace Sys2Proof

open Machine

/-! ### The reset values -/

/-- Every stage of both lanes at power-on (R40). -/
@[simp] theorem reset_stage (c : Lane) (j : StageIdx) : State.reset.stage c j = Stage.reset := by
  simp [State.stage, State.reset]

/-- No sample word has a value at power-on (R34, R40). -/
@[simp] theorem reset_bufRead (c : Lane) (i : Nat) : State.reset.bufRead c i = none :=
  ite_self none

/-- Settles O6: the identification words through the address map, each register and stage by its value in
`State.reset`. -/
theorem resetValues : Obligations.ResetValues := by
  refine ⟨?id, ?version, rfl, rfl, rfl, rfl, rfl, rfl, rfl, rfl, rfl, reset_stage, reset_bufRead, rfl⟩
  case id => exact exec_memRead (by decide) (by decide) State.reset
  case version => exact exec_memRead (by decide) (by decide) State.reset

/-! ### `FS_ARG` and the rate a PREPARE latches -/

/-- A write of `CMD` presents its word (43_stereo_processor.md R180). -/
theorem exec_writeCmd (w : Word) (s : State) : exec (.memWrite 0x008#32 4 w) s = .next (s.present w) :=
  exec_memWrite (by decide) (by decide) w s

/-- A PREPARE that no check rejects has a rate in range (43_stereo_processor.md R180). -/
theorem badRate_of_rejects_prepare {s : State} {len : BitVec 16} (h : s.rejects (.prepare len) = none) :
    badRate s.fsArg = false := by
  cases hb : badRate s.fsArg with
  | false => rfl
  | true => simp [State.rejects, hb] at h

/-- A presented PREPARE that leaves an idle block busy was accepted: its rate was checked and is latched
(43_stereo_processor.md R180). -/
theorem present_prepare_accepted {s : State} {len : BitVec 16} (hs : s.busy = false)
    (ht : (s.present (commandWord 0x01#8 len)).busy = true) :
    badRate s.fsArg = false ∧ s.present (commandWord 0x01#8 len) = s.accept (commandWord 0x01#8 len) (.prepare len) := by
  rcases present_cases s (commandWord 0x01#8 len) with ⟨e, -, he⟩ | ⟨-, cmd, hm, hr, ha⟩
  · rw [he, State.report_busy, hs] at ht
    cases ht
  · obtain rfl : Command.prepare len = cmd := Option.some.inj ((matchRow_prepare len).symm.trans hm)
    exact ⟨badRate_of_rejects_prepare hr, ha⟩

/-- Settles O13: the two accesses by the address map, the latched rate by what an accepted PREPARE leaves. -/
theorem sampleRateArgumentRegister : Obligations.SampleRateArgumentRegister := by
  refine ⟨rfl, fun s v => ⟨?write, ?read, fun len t h hs ht => ?prepare⟩⟩
  case write => exact exec_memWrite (by decide) (by decide) v s
  case read => exact exec_memRead (by decide) (by decide) s
  case prepare =>
    obtain rfl : s.present (commandWord 0x01#8 len) = t := Host.Outcome.next.inj ((exec_writeCmd _ s).symm.trans h)
    obtain ⟨hb, ha⟩ := present_prepare_accepted hs ht
    exact ⟨hb, _, by rw [ha, State.accept_pending], rfl⟩

/-! ### The agreement of the lanes -/

/-- The agreement rests on coefficients and flags only, so what changes filter states alone keeps it. -/
theorem LanesAgree.of_shape {s t : State}
    (h : ∀ c j, (t.stage c j).coeffs = (s.stage c j).coeffs ∧ (t.stage c j).bypass = (s.stage c j).bypass)
    (hs : LanesAgree s) : LanesAgree t := by
  intro j
  obtain ⟨hc0, hb0⟩ := h 0 j
  obtain ⟨hc1, hb1⟩ := h 1 j
  obtain ⟨hc, hb⟩ := hs j
  exact ⟨hc0.trans (hc.trans hc1.symm), hb0.trans (hb.trans hb1.symm)⟩

/-- The agreement rests on the stage register file only. -/
theorem LanesAgree.of_lanes {s t : State} (h : t.lanes = s.lanes) (hs : LanesAgree s) : LanesAgree t :=
  hs.of_shape fun c j => by simp [State.stage, h]

/-- Lanes with the same value in every stage agree. -/
theorem LanesAgree.of_stage_eq {s : State} {st : Stage} (h : ∀ c j, s.stage c j = st) : LanesAgree s :=
  fun j => by simp [h]

/-- The agreement at reset (R39, R40). -/
theorem lanesAgree_reset : LanesAgree State.reset := .of_stage_eq reset_stage

/-- The chain reset makes the lanes agree, whatever they were (70_reset_and_hazards.md R251). -/
theorem lanesAgree_chainsReset (s : State) : LanesAgree (chainsReset s) := .of_stage_eq (chainsReset_stage s)

/-- The update keeps the agreement (43_stereo_processor.md R186). -/
theorem LanesAgree.update {s : State} (hs : LanesAgree s) : LanesAgree (update s) :=
  update_lanesAgree s fun j => (hs j).1

/-- A block keeps the agreement (43_stereo_processor.md R187). -/
theorem LanesAgree.blockProcess {n : Nat} {s t : State} (h : blockProcess n s = .ok t) (hs : LanesAgree s) :
    LanesAgree t :=
  hs.of_shape (blockProcess_frame h).2.1

/-- A command's completion keeps the agreement (43_stereo_processor.md R200 to R203); with none in flight nothing
changes. -/
theorem LanesAgree.command {cmd : Command} {s t : State} (h : exec cmd.toInstr s = .next t) (hs : LanesAgree s) :
    LanesAgree t := by
  cases hp : s.pending with
  | none =>
    obtain rfl : s = t := Host.Outcome.next.inj ((execCommand_idle hp).symm.trans h)
    exact hs
  | some p =>
    rcases (execCommand_pending hp h).2 with
      ⟨-, rfl⟩ | ⟨-, rfl⟩ | ⟨len, -, rfl⟩ | ⟨len, u, -, hu, rfl⟩
    case inl => exact hs
    case inr.inl => exact lanesAgree_chainsReset s
    case inr.inr.inl => exact lanesAgree_chainsReset s
    case inr.inr.inr => exact (hs.update.blockProcess hu).of_lanes u.complete_lanes

/-- A word presented at `CMD` writes no stage (43_stereo_processor.md R180). -/
@[simp] theorem present_lanes (s : State) (w : Word) : (s.present w).lanes = s.lanes := by
  rcases present_cases s w with ⟨e, -, he⟩ | ⟨-, cmd, -, -, ha⟩
  · rw [he, State.report_lanes]
  · rw [ha, State.accept_lanes]

/-- No write of the bus window writes a stage (20_memory.md R65 to R68). -/
@[simp] theorem writeTarget_lanes (s : State) (v : Word) (x : Target) : (s.writeTarget v x).lanes = s.lanes := by
  rcases writeTarget_cases s v x with
    e | ⟨-, e⟩ | ⟨-, e⟩ | ⟨-, e⟩ | ⟨i, -, e⟩ | ⟨c, i, -, -, -, e⟩ | ⟨c, i, -, -, -, e⟩ <;> rw [e]
  · exact present_lanes s v
  · rw [writeStatus_eq]
  · exact State.report_lanes s .accessBusy
  · exact State.bufWrite_lanes s c i v

/-- No bus access writes a stage (10_state.md R32, 20_memory.md R64 to R68). -/
theorem access_lanes {i : Instr} {s t : State} (ha : IsAccess i) (h : exec i s = .next t) : t.lanes = s.lanes := by
  rcases ha with ⟨a, n, rfl⟩ | ⟨a, n, v, rfl⟩
  · obtain ⟨-, -, -, hr⟩ := accessing_next (show accessing a n s.readTarget = .next t from h)
    rw [readTarget_frame hr]
  · obtain ⟨-, -, -, hw⟩ :=
      accessing_next (show accessing a n (fun x => .next (s.writeTarget v x)) = .next t from h)
    rw [← Host.Outcome.next.inj hw, writeTarget_lanes]

/-- Settles O58: at reset every stage is the same; a completion resets, updates or processes both lanes; an access
writes no stage. -/
theorem lanesAgreeAfterEveryCommand : Obligations.LanesAgreeAfterEveryCommand :=
  ⟨lanesAgree_reset, fun _ _ _ hs h => hs.command h, fun _ _ _ ha hs h => hs.of_lanes (access_lanes ha h)⟩

end Sys2Proof
end

section
/-! Proofs of the statements about the bus window (20_memory.md): the read-only and reserved offsets (R65), the words
beyond the buffer (R67), and the access forms that are refused (R63). -/
namespace Sys2Proof

open Machine

/-! ### The read-only and reserved offsets -/

/-- The reserved ranges of the address map (R61). -/
def ReservedOffset (off : Nat) : Prop :=
  (0x020 ≤ off ∧ off < 0x040) ∨ (0x05C ≤ off ∧ off < 0x100) ∨ (0x500 ≤ off ∧ off < 0x10000) ∨
    (0x30000 ≤ off ∧ off < 0x40000)

/-- The reserved ranges lie in the window (R60). -/
theorem ReservedOffset.lt_windowSize {off : Nat} (h : ReservedOffset off) : off < windowSize := by
  unfold ReservedOffset at h
  unfold windowSize
  omega

/-- Past `MAXBLK` there is no control register (R61). -/
theorem controlTarget_reserved {off : Nat} (h : 0x020 ≤ off) : controlTarget off = .reserved := by
  unfold controlTarget
  split
  case h_9 => rfl
  all_goals omega

/-- Nothing stands in the reserved ranges (R61). -/
theorem target_reserved {off : Nat} (h : ReservedOffset off) : target off = .reserved := by
  rcases h with ⟨h0, h1⟩ | ⟨h0, h1⟩ | ⟨h0, h1⟩ | ⟨h0, h1⟩
  · exact (if_pos h1).trans (controlTarget_reserved h0)
  · unfold target paramTarget
    rw [if_neg (by omega), if_pos h1, dif_neg (by omega)]
  · unfold target
    rw [if_neg (by omega), if_neg (by omega), if_neg (by omega), if_neg (by omega), if_pos h1]
  · rw [target_buffer (by omega), bufferTarget, if_neg (by omega), if_neg (by omega)]

/-- In the stage view's region stand its words and its gaps only (R61). -/
theorem target_view {off : Nat} (h0 : 0x100 ≤ off) (h1 : off < 0x500) :
    target off = .viewGap ∨ ∃ c j w, target off = .stageView c j w := by
  have hlane : ∃ c d, target off = viewTarget c d := by
    unfold target
    rw [if_neg (by omega), if_neg (by omega)]
    by_cases h : off < 0x300
    · exact ⟨0, _, if_pos h⟩
    · exact ⟨1, _, (if_neg h).trans (if_pos h1)⟩
  obtain ⟨c, d, hd⟩ := hlane
  rw [hd]
  exact (viewTarget_cases c d).imp_right fun ⟨j, w, h⟩ => ⟨c, j, w, h⟩

/-- A write that its target ignores changes nothing. -/
theorem exec_memWrite_ignored {s : State} {a v : Word} (ha : a.toNat % 4 = 0) (hw : a.toNat < windowSize)
    (h : s.writeTarget v (target a.toNat) = s) : exec (.memWrite a 4 v) s = .next s :=
  (exec_memWrite ha hw v s).trans (congrArg _ h)

/-- A reserved offset ignores writes (R65). -/
theorem exec_memWrite_reserved {a : Word} (ha : a.toNat % 4 = 0) (h : ReservedOffset a.toNat) (v : Word) (s : State) :
    exec (.memWrite a 4 v) s = .next s :=
  exec_memWrite_ignored ha h.lt_windowSize (by rw [target_reserved h]; rfl)

/-- A reserved offset reads 0 (R65). -/
theorem exec_memRead_reserved {a : Word} (ha : a.toNat % 4 = 0) (h : ReservedOffset a.toNat) (s : State) :
    exec (.memRead a 4) s = .next { s with readData := some 0#32 } := by
  rw [exec_memRead ha h.lt_windowSize, target_reserved h]
  rfl

/-- `ID`, `VERSION`, `ERRCAUSE`, `FS` and `MAXBLK` ignore writes (R65). -/
theorem exec_memWrite_readOnlyRegister {a : Word} (h : a ∈ [0x000#32, 0x004#32, 0x010#32, 0x018#32, 0x01C#32])
    (v : Word) (s : State) : exec (.memWrite a 4 v) s = .next s := by
  simp only [List.mem_cons, List.not_mem_nil, or_false] at h
  rcases h with rfl | rfl | rfl | rfl | rfl <;> exact exec_memWrite_ignored (by decide) (by decide) rfl

/-- The stage view ignores writes (R65). -/
theorem exec_memWrite_view {a : Word} (ha : a.toNat % 4 = 0) (h0 : 0x100 ≤ a.toNat) (h1 : a.toNat < 0x500)
    (v : Word) (s : State) : exec (.memWrite a 4 v) s = .next s := by
  refine exec_memWrite_ignored ha (by unfold windowSize; omega) ?_
  rcases target_view h0 h1 with ht | ⟨c, j, w, ht⟩ <;> rw [ht] <;> rfl

/-- Settles O21: the address map puts at each such offset a target that ignores writes, and at a reserved one a target
that reads 0. -/
theorem readOnlyAndReservedOffsets : Obligations.ReadOnlyAndReservedOffsets := by
  refine fun s off ha => ⟨fun h v => ?write, fun h => exec_memRead_reserved ha h s⟩
  case write =>
    rcases h with h | h | ⟨h0, h1⟩
    · exact exec_memWrite_reserved ha h v s
    · exact exec_memWrite_readOnlyRegister h v s
    · exact exec_memWrite_view ha h0 h1 v s

/-! ### The words beyond the buffer -/

/-- A sample word that does not exist reads 0, busy or idle (R67). -/
theorem readTarget_sample_beyond {i : Nat} (hi : Config.bufLen ≤ i) (s : State) (c : Lane) :
    s.readTarget (.sample c i) = .next { s with readData := some 0#32 } :=
  if_pos hi

/-- A sample word that does not exist ignores writes, busy or idle (R67). -/
theorem writeTarget_sample_beyond {i : Nat} (hi : Config.bufLen ≤ i) (s : State) (v : Word) (c : Lane) :
    s.writeTarget v (.sample c i) = s :=
  if_pos hi

/-- Settles O20: the word's offset is that of its sample, and beyond `BUF_LEN` the sample reads 0 and ignores writes. -/
theorem wordsBeyondTheBufferDoNotExist : Obligations.WordsBeyondTheBufferDoNotExist := by
  intro s c i hi off
  obtain ⟨hoff, ha, hw⟩ := bufOffset_word c hi
  have ht : target off.toNat = .sample c i := hoff ▸ target_sample c hi
  rw [← hoff] at ha hw
  refine (Nat.lt_or_ge i Config.bufLen).imp_right fun hb => ⟨?read, fun v => ?write⟩
  case read => rw [exec_memRead ha hw, ht, readTarget_sample_beyond hb]
  case write => exact exec_memWrite_ignored ha hw (ht ▸ writeTarget_sample_beyond hb s v c)

/-! ### The access forms -/

/-- The check names the form of an access that is not one aligned word (R63). -/
theorem checkAccess_unsupported {a : Word} {n : Nat} (h : n ≠ 4 ∨ a.toNat % 4 ≠ 0) :
    checkAccess a n = some (.accessForm a n) :=
  if_neg (by omega)

/-- An access that is not one aligned word is refused before its target is looked at (R63). -/
theorem accessing_unsupported {a : Word} {n : Nat} (h : n ≠ 4 ∨ a.toNat % 4 ≠ 0) (go : Target → Result) :
    accessing a n go = .refused (.illFormed (.accessForm a n)) := by
  unfold accessing
  rw [checkAccess_unsupported h]

/-- Settles O22: reads and writes share the check of the access form. -/
theorem unsupportedAccessFormsAreRefused : Obligations.UnsupportedAccessFormsAreRefused :=
  fun s _ _ h =>
    ⟨accessing_unsupported h s.readTarget, fun v => accessing_unsupported h fun x => .next (s.writeTarget v x)⟩

end Sys2Proof
end

section
/-! Proofs of the statements about the command word (30_encoding.md): the opcode map (R92) and the illegal words (R93),
with the rejections by an argument bound (43_stereo_processor.md R180). -/
namespace Sys2Proof

open Machine

/-! ### The rows of the opcode map -/

/-- The row of a command as R92 writes it: mask, match, and `LEN` as its operand. -/
def SelectsRow (w : Word) : Command → Prop
  | .nop => w &&& 0xFFFFFFFF#32 = 0x00000000#32
  | .prepare len => w &&& 0x0000FFFF#32 = 0x00000001#32 ∧ len = lenField w
  | .reset => w &&& 0xFFFFFFFF#32 = 0x00000002#32
  | .updateAndProcess len => w &&& 0x0000FFFF#32 = 0x00000003#32 ∧ len = lenField w

/-- At most one row matches a word, so the order in which `matchRow` tries the rows does not matter. -/
theorem matchRow_eq_some_iff {w : Word} {cmd : Command} : matchRow w = some cmd ↔ SelectsRow w cmd := by
  rw [matchRow_eq]
  cases cmd <;> simp only [SelectsRow, word_eq_iff, toNat_and_low, toNat_and_all, BitVec.toNat_ofNat]
  case nop => split_ifs <;> simp <;> omega
  case reset => split_ifs <;> simp <;> omega
  case prepare len => split_ifs <;> simp [eq_comm] <;> omega
  case updateAndProcess len => split_ifs <;> simp [eq_comm] <;> omega

theorem toInstr_injective : Function.Injective Command.toInstr := by
  intro a b h
  cases a <;> cases b <;> cases h <;> rfl

/-- A command word decodes to the instruction of the row it selects, and to nothing else. -/
theorem decode_cmd_eq_ok_iff {w : Word} {i : Instr} :
    decode (.cmd w) = .ok i ↔ ∃ cmd, matchRow w = some cmd ∧ cmd.toInstr = i := by
  cases hm : matchRow w with
  | some cmd => simp [decode_cmd hm]
  | none => simp [decode, decodeCommand, hm]

theorem decode_cmd_toInstr_iff {w : Word} {cmd : Command} :
    decode (.cmd w) = .ok cmd.toInstr ↔ SelectsRow w cmd := by
  simp only [decode_cmd_eq_ok_iff, toInstr_injective.eq_iff, exists_eq_right, matchRow_eq_some_iff]

/-! ### What a presented word that is not accepted leaves -/

theorem report_of_no_error {s : State} (h : s.err = false) (e : Cause) :
    s.report e = { s with err := true, errCause := e } := by
  simp [State.report, h]

theorem present_of_rejects {s : State} {w : Word} {cmd : Command} {e : Cause} (hb : s.busy = false)
    (hm : matchRow w = some cmd) (hr : s.rejects cmd = some e) : s.present w = s.report e := by
  simp [State.present, hb, hm, hr]

theorem present_of_no_row {s : State} {w : Word} (hb : s.busy = false) (hm : matchRow w = none) :
    s.present w = s.report .illegalCmd := by
  simp [State.present, hb, hm]

theorem toNat_bufLenWord : bufLenWord.toNat = Config.bufLen := by
  have := bufLen_bounds
  rw [bufLenWord, BitVec.toNat_ofNat, Nat.mod_eq_of_lt (by omega)]

/-- A PREPARE at a rate in range whose length is 0 or above `BUF_LEN` (R180). -/
theorem rejects_prepare_badBlockSize {s : State} {len : BitVec 16} (hr : badRate s.fsArg = false)
    (hl : len.toNat = 0 ∨ Config.bufLen < len.toNat) : s.rejects (.prepare len) = some .badBlockSize := by
  have hw : zextLen len = 0#32 ∨ bufLenWord < zextLen len := by
    rwa [BitVec.lt_def, word_eq_iff, zext_nat, toNat_bufLenWord]
  simp [State.rejects, hr, hw]

/-- An UPDATE_AND_PROCESS above `MAXBLK` on a prepared block (R180). -/
theorem rejects_updateAndProcess_blockTooLong {s : State} {len : BitVec 16} (hp : s.prepared = true)
    (hl : s.maxBlk.toNat < len.toNat) : s.rejects (.updateAndProcess len) = some .blockTooLong := by
  have hw : s.maxBlk < zextLen len := by rwa [BitVec.lt_def, zext_nat]
  simp [State.rejects, hp, hw]

/-- The first rejection since `ERR` was cleared latches its cause and changes nothing else (60_exceptions.md R222). -/
theorem exec_writeCmd_rejected {s : State} {w : Word} {cmd : Command} {e : Cause} (hb : s.busy = false)
    (he : s.err = false) (hm : SelectsRow w cmd) (hr : s.rejects cmd = some e) :
    exec (.memWrite 0x008#32 4 w) s = .next { s with err := true, errCause := e } := by
  rw [exec_writeCmd, present_of_rejects hb (matchRow_eq_some_iff.mpr hm) hr, report_of_no_error he]

/-- Settles O2: each row by `decode_cmd_toInstr_iff`, the two rejections by the check order of R180. -/
theorem commandWordsDecodeByTheOpcodeMap : Obligations.CommandWordsDecodeByTheOpcodeMap := by
  intro w
  refine ⟨decode_cmd_toInstr_iff (cmd := .nop), fun len => decode_cmd_toInstr_iff (cmd := .prepare len),
    decode_cmd_toInstr_iff (cmd := .reset), fun len => decode_cmd_toInstr_iff (cmd := .updateAndProcess len),
    fun i h => ?onlyRows, fun s hb he => ⟨fun hw hr hl => ?prepare, fun hw hp hl => ?updateAndProcess⟩⟩
  case onlyRows =>
    obtain ⟨cmd, -, rfl⟩ := decode_cmd_eq_ok_iff.mp h
    cases cmd <;> simp [Command.toInstr]
  case prepare =>
    rw [← toNat_lenField] at hl
    exact exec_writeCmd_rejected (cmd := .prepare (lenField w)) hb he ⟨hw, rfl⟩ (rejects_prepare_badBlockSize hr hl)
  case updateAndProcess =>
    rw [← toNat_lenField] at hl
    exact exec_writeCmd_rejected (cmd := .updateAndProcess (lenField w)) hb he ⟨hw, rfl⟩
      (rejects_updateAndProcess_blockTooLong hp hl)

/-! ### The illegal words -/

/-- The illegal words as R93 lists them: an opcode above 3, `RSV` not 0, NOP or RESET with `LEN` not 0. -/
def IllegalWord (w : Word) : Prop :=
  4 ≤ w.toNat % 256 ∨ w.toNat / 256 % 256 ≠ 0 ∨
    ((w.toNat % 256 = 0 ∨ w.toNat % 256 = 2) ∧ w.toNat / 65536 ≠ 0)

/-- R93's list is complete: the words no row of R92 matches. -/
theorem matchRow_eq_none_iff {w : Word} : matchRow w = none ↔ IllegalWord w := by
  rw [matchRow_eq, IllegalWord]
  split_ifs <;> simp <;> omega

theorem decode_cmd_ok_iff {w : Word} : (∃ i, decode (.cmd w) = .ok i) ↔ ¬IllegalWord w := by
  rw [← matchRow_eq_none_iff, ← ne_eq, Option.ne_none_iff_exists']
  exact ⟨fun ⟨_, h⟩ => (decode_cmd_eq_ok_iff.mp h).imp fun _ => And.left, fun ⟨cmd, h⟩ => ⟨cmd.toInstr, decode_cmd h⟩⟩

/-- Settles O3: R93's list is the words without a row, and `State.present` reports such a word when idle. -/
theorem illegalCommandWordsAreExactlyTheUnmatchedOnes : Obligations.IllegalCommandWordsAreExactlyTheUnmatchedOnes := by
  refine fun w => ⟨decode_cmd_ok_iff, fun h s hb => ?_⟩
  rw [exec_writeCmd, present_of_no_row hb (matchRow_eq_none_iff.mpr h)]
  rfl

end Sys2Proof
end

section
/-! Proofs of the statements about the biquad stage (41_biquad_stage.md): the setters and the clear (R140, R141, R146),
the transparent bypass (R147), and the 0 dB peak (R148). -/
namespace Sys2Proof

open Machine

/-! ### One stage written -/

/-- The written stage holds what was written. -/
theorem stage_setStage_same (s : State) (c : Lane) (j : StageIdx) (st : Stage) : (s.setStage c j st).stage c j = st :=
  (s.stage_setStage ..).trans (if_pos ⟨rfl, rfl⟩)

/-- Every other stage stays. -/
theorem stage_setStage_other (s : State) {c c' : Lane} {j j' : StageIdx} (st : Stage) (h : ¬(c' = c ∧ j' = j)) :
    (s.setStage c j st).stage c' j' = s.stage c' j' :=
  (s.stage_setStage ..).trans (if_neg h)

/-- A stage written with what it holds changes nothing. -/
theorem setStage_stage (s : State) (c : Lane) (j : StageIdx) : s.setStage c j (s.stage c j) = s := by
  have hl : (s.setStage c j (s.stage c j)).lanes = s.lanes := by
    refine State.lanes_ext fun c' j' => ?_
    by_cases h : c' = c ∧ j' = j
    · obtain ⟨rfl, rfl⟩ := h
      exact stage_setStage_same ..
    · exact stage_setStage_other _ _ h
  exact congrArg (fun l => { s with lanes := l }) hl

/-- `STAGE_SET_COEFF` as executed (R140). -/
theorem exec_stageSetCoeff (c : Lane) (j : StageIdx) (set : CoeffSet) (s : State) :
    exec (.stageSetCoeff c j set) s = .next (s.setStage c j { s.stage c j with coeffs := set }) := rfl

/-- `STAGE_SET_BYPASS` as executed (R141). -/
theorem exec_stageSetBypass (c : Lane) (j : StageIdx) (b : Bool) (s : State) :
    exec (.stageSetBypass c j b) s = .next (s.setStage c j { s.stage c j with bypass := b }) := rfl

/-- `STAGE_CLEAR` as executed (R146). -/
theorem exec_stageClear (c : Lane) (j : StageIdx) (s : State) :
    exec (.stageClear c j) s = .next (s.setStage c j Stage.reset) := rfl

/-- Settles O34: both operations write one stage, with a value that differs from the old one in their field only. -/
theorem stageSettersChangeOnlyTheirField : Obligations.StageSettersChangeOnlyTheirField := by
  refine fun c j s => ⟨fun set => ?coeff, fun b => ?bypass⟩
  case coeff =>
    have hst := stage_setStage_same s c j { s.stage c j with coeffs := set }
    refine ⟨_, exec_stageSetCoeff c j set s, rfl, by rw [hst], by rw [hst], by rw [hst], by rw [hst],
      fun _ _ => stage_setStage_other s _, ?_⟩
    rintro rfl
    exact setStage_stage s c j
  case bypass =>
    refine ⟨_, exec_stageSetBypass c j b s, rfl, stage_setStage_same .., fun _ _ => stage_setStage_other s _, ?_⟩
    rintro rfl
    exact setStage_stage s c j

/-- Settles O39: the operation writes one stage, with the power-on value. -/
theorem stageClearRestoresThePowerOnStage : Obligations.StageClearRestoresThePowerOnStage :=
  fun c j s => ⟨_, exec_stageClear c j s, rfl, stage_setStage_same .., fun _ _ => stage_setStage_other s _⟩

/-! ### The transparent bypass -/

/-- A bypassed stage answers its sample and keeps the state, whatever result stood there before (R147). -/
theorem exec_stage_bypassed {s : State} {c : Lane} {j : StageIdx} (h : (s.stage c j).bypass = true) (x : F32)
    (r : UopResult) : exec (.stageProcess c j x) (s.withResult r) = .next (s.withResult (.sample x)) := by
  rw [exec_stage_withResult, stageProcess_bypassed h]

/-- After any list of samples through a bypassed stage, one more is answered as by the state before them, the result
record aside; `f` stands for the step of the fold (R147). -/
theorem foldl_stage_bypassed {s : State} {c : Lane} {j : StageIdx} (h : (s.stage c j).bypass = true)
    {f : Result → F32 → Result} (hf : ∀ u x, f (.next u) x = exec (.stageProcess c j x) u) (xs : List F32)
    (x : F32) (r : UopResult) :
    ∃ t, xs.foldl f (.next (s.withResult r)) = .next t ∧
      exec (.stageProcess c j x) t = .next (s.withResult (.sample x)) := by
  induction xs generalizing r with
  | nil => exact ⟨_, rfl, exec_stage_bypassed h x r⟩
  | cons z zs ih =>
    rw [List.foldl_cons, hf, exec_stage_bypassed h]
    exact ih (.sample z)

/-- Settles O35, by induction on the samples that have passed. -/
theorem bypassedStageIsTransparent : Obligations.BypassedStageIsTransparent :=
  fun _ _ s h xs x => foldl_stage_bypassed h (fun _ _ => rfl) xs x s.result

/-! ### The 0 dB peak -/

/-- `y` is what a 0 dB peak may answer to `x`: `x` itself, or +0 for -0 (R148). -/
def SameUpToNegZero (x y : F32) : Prop := y = x ∨ (x = 0x80000000#32 ∧ y = 0x00000000#32)

/-- +0 plus a zero of either sign is +0. -/
theorem add32_posZero {z : F32} (hz : IsZero32 z) (n : Nat) : add32 n 0x00000000#32 z = 0x00000000#32 := by
  rcases hz with rfl | rfl <;> exact add32_eq (p := 0) (by decide +kernel) n

/-- A zero added to a finite value gives the value back, but may turn -0 into +0. -/
theorem add32_zero_sameUpToNegZero {x z : F32} {s : Bool} {m : Nat} (hx : val32 x = .fin s m) (hz : IsZero32 z)
    (n : Nat) : SameUpToNegZero x (add32 n x z) := by
  by_cases hm : m = 0
  · subst hm
    rcases zero_of_val hx with rfl | rfl
    · exact .inl (add32_posZero hz n)
    · exact (add32_zeros (.inr rfl) hz n).elim (fun h => .inr ⟨rfl, h⟩) .inl
  · exact .inl (add32_zero_right hx hm hz n)

/-- A product of finite values takes no draw. -/
theorem mul32_draw {a b : F32} {s t : Bool} {m k : Nat} (ha : val32 a = .fin s m) (hb : val32 b = .fin t k)
    (n n' : Nat) : mul32 n a b = mul32 n' a b := by
  unfold mul32
  rw [ha, hb]
  rfl

/-- A coefficient below 2 times a sample below 2^126 does not overflow. -/
theorem mul32_finite_of_lt {k x : F32} {sk sx : Bool} {mk mx : Nat} (hk : val32 k = .fin sk mk)
    (hx : val32 x = .fin sx mx) (hkb : mk < 2 * 2 ^ 149) (hxb : mx < 2 ^ 126 * 2 ^ 149) (n : Nat) :
    ∃ s m, val32 (mul32 n k x) = .fin s m := by
  refine mul32_finite (e := 252) hk hx ?_ (by omega) n
  refine (Nat.div_lt_iff_lt_mul (Nat.two_pow_pos _)).2 ((Nat.mul_lt_mul'' hkb hxb).trans_eq ?_)
  decide +kernel

/-- The two products of a 0 dB peak cancel: equal finite products, or zeros (R148). -/
theorem sub32_products_isZero {k x y : F32} {sk sx : Bool} {mk mx : Nat} (hk : val32 k = .fin sk mk)
    (hx : val32 x = .fin sx mx) (hkb : mk < 2 * 2 ^ 149) (hxb : mx < 2 ^ 126 * 2 ^ 149) (hy : SameUpToNegZero x y)
    (n i l : Nat) : IsZero32 (sub32 n (mul32 i k x) (mul32 l k y)) := by
  rcases hy with rfl | ⟨rfl, rfl⟩
  · obtain ⟨s, m, hp⟩ := mul32_finite_of_lt hk hx hkb hxb l
    rw [mul32_draw hk hx i l]
    exact .inl (sub32_self hp n)
  · exact sub32_zeros (mul32_zero hk (.inr rfl) i) (mul32_zero hk (.inl rfl) l) n

/-- A stage with the unity form answers its sample, and its state words become zeros again (R148). -/
theorem active_unityForm {st : Stage} {a b x : F32} {sa sb sx : Bool} {ma mb mx : Nat}
    (hc : st.coeffs = ⟨0x3F800000#32, a, b, a, b⟩) (ha : val32 a = .fin sa ma) (hab : ma < 2 * 2 ^ 149)
    (hb : val32 b = .fin sb mb) (hbb : mb < 2 ^ 149) (hx : val32 x = .fin sx mx) (hxb : mx < 2 ^ 126 * 2 ^ 149)
    (h1 : IsZero32 st.s1) (h2 : IsZero32 st.s2) (n : Nat) :
    SameUpToNegZero x (st.active n x).1 ∧ IsZero32 (st.active n x).2.s1 ∧ IsZero32 (st.active n x).2.s2 := by
  unfold Stage.active
  simp only [hc, mul32_one hx]
  have hy := add32_zero_sameUpToNegZero hx h1 (n + 1)
  exact ⟨hy, add32_zeros (sub32_products_isZero ha hx hab hxb hy ..) h2 _,
    sub32_products_isZero hb hx (by omega) hxb hy ..⟩

/-- `STAGE_PROCESS` of an active stage gives the sample and writes the stage that `ACTIVE_PROCESS` computes (R143). -/
theorem exec_stage_active {s : State} {c : Lane} {j : StageIdx} (h : (s.stage c j).bypass = false) (x : F32) :
    ∃ t, exec (.stageProcess c j x) s = .next t ∧
      t.result = .sample ((s.stage c j).active s.nanDraws x).1 ∧
      t.stage c j = ((s.stage c j).active s.nanDraws x).2 := by
  rw [exec_stage, stageProcess_active h]
  exact ⟨_, rfl, rfl, stage_setStage_same s c j _⟩

/-- Settles O40: the active stage has the unity form and a state of zeros. -/
theorem zeroDecibelPeakIsTheIdentity : Obligations.ZeroDecibelPeakIsTheIdentity := by
  intro c j a b x s sa sb sx ma mb mx hbp hc ha hab hb hbb hx hxb h1 h2
  obtain ⟨t, ht, hr, hst⟩ := exec_stage_active hbp x
  have hy := active_unityForm hc ha hab hb hbb hx hxb h1 h2 s.nanDraws
  rw [← hst] at hy
  exact ⟨t, _, ht, hr, hy⟩

end Sys2Proof
end

section
/-! Proofs of the statements about the cut chain and the mono chain (42_cut_chain.md): the order codes (R161), order
selection (R160, R162), the chain as its four slots (R164), and the lane as its three parts (R165). -/
namespace Sys2Proof

open Machine

/-! ### Order codes -/

/-- `CONVERT_SNAPSHOT` as executed (40_coeff_factory.md R118). -/
theorem exec_convertSnapshot (fsd : F64) (s : State) :
    exec (.convertSnapshot fsd) s = .next (s.withResult (.snapshot (convertSnapshot s.snap fsd))) := rfl

/-- Both order codes of a conversion are order codes of a chain (R161). -/
theorem convertSnapshot_orders_le_three (snap : Vector F32 7) (fsd : F64) :
    (convertSnapshot snap fsd).kL ≤ 3 ∧ (convertSnapshot snap fsd).kH ≤ 3 :=
  ⟨convSlope_le_three snap[5], convSlope_le_three snap[6]⟩

/-- A code above 3 is the fault, whatever the sequence (R161). -/
theorem orderFault_orderCode {k : Nat} (h : 3 < k) (seq : List CoeffSet) : orderFault k seq = some (.orderCode k) :=
  if_pos h

/-- Settles O33: the only result of a conversion is the converted snapshot, whose order codes are slopes; the order code
is the first thing order selection checks. -/
theorem orderCodesAboveThreeAreRefused : Obligations.OrderCodesAboveThreeAreRefused := by
  refine ⟨fun fsd s t P ht hP => ?conversion, fun c ch k seq s hk => ?chain⟩
  case conversion =>
    rw [exec_convertSnapshot] at ht
    cases ht
    cases hP
    exact convertSnapshot_orders_le_three s.snap fsd
  case chain =>
    simp only [exec, execChainApplyOrder, orderFault_orderCode hk]

/-! ### The stage numbers of a chain -/

/-- The slots of a chain are four stages in a row (10_state.md R31). -/
theorem slotStage_val (ch : Chain) (i : Slot) : (slotStage ch i).val = (slotStage ch 0).val + i.val := by
  cases ch <;> simp [slotStage]

/-- The stage at offset `i` in the row is slot `i`. -/
theorem eq_slotStage {ch : Chain} {j : StageIdx} {i : Nat} (hi : i < 4) (h : j.val = (slotStage ch 0).val + i) :
    j = slotStage ch ⟨i, hi⟩ :=
  Fin.ext (h.trans (slotStage_val ch ⟨i, hi⟩).symm)

/-- A stage before or behind the row is no slot. -/
theorem outsideChain_of_val {ch : Chain} {j : StageIdx}
    (h : j.val < (slotStage ch 0).val ∨ (slotStage ch 0).val + 4 ≤ j.val) : OutsideChain ch j := by
  rintro i rfl
  rw [slotStage_val] at h
  omega

/-! ### Order selection, slot by slot -/

/-- Order selection keeps the state words of every slot (R160). -/
theorem applyOrder_slot_state (c : Lane) (ch : Chain) (k : Nat) (seq : List CoeffSet) (i : Slot) (s : State) :
    ((applyOrder c ch k seq s).stage c (slotStage ch i)).s1 = (s.stage c (slotStage ch i)).s1 ∧
      ((applyOrder c ch k seq s).stage c (slotStage ch i)).s2 = (s.stage c (slotStage ch i)).s2 := by
  rw [applyOrder_slot]
  split <;> exact ⟨rfl, rfl⟩

/-- A slot up to `k` is active with its entry of the sequence (R162). -/
theorem applyOrder_slot_active {k : Nat} {seq : List CoeffSet} {i : Slot} (hi : i.val ≤ k) (hs : k + 1 ≤ seq.length)
    (c : Lane) (ch : Chain) (s : State) :
    ((applyOrder c ch k seq s).stage c (slotStage ch i)).bypass = false ∧
      seq[i.val]? = some ((applyOrder c ch k seq s).stage c (slotStage ch i)).coeffs := by
  obtain ⟨set, htake, hseq⟩ := (take_get hs i.val).1 hi
  rw [applyOrder_slot, htake]
  exact ⟨rfl, hseq⟩

/-- A slot above `k` is bypassed with its old coefficients (R162). -/
theorem applyOrder_slot_bypassed {k : Nat} {seq : List CoeffSet} {i : Slot} (hi : k < i.val)
    (hs : k + 1 ≤ seq.length) (c : Lane) (ch : Chain) (s : State) :
    ((applyOrder c ch k seq s).stage c (slotStage ch i)).bypass = true ∧
      ((applyOrder c ch k seq s).stage c (slotStage ch i)).coeffs = (s.stage c (slotStage ch i)).coeffs := by
  rw [applyOrder_slot, (take_get hs i.val).2 hi]
  exact ⟨rfl, rfl⟩

/-- Settles O41: `applyOrder` slot by slot, outside the chain, and twice; `base` is the stage number of slot 0. -/
theorem applyOrderActivatesExactlyTheFirstSlots : Obligations.ApplyOrderActivatesExactlyTheFirstSlots := by
  intro c ch k seq s hk hs base
  have hbase : base = (slotStage ch 0).val := by cases ch <;> rfl
  refine ⟨_, exec_applyOrder hk hs c ch s, applyOrder_onlyLanes c ch k seq s, fun j i hi hj => ?slot,
    fun c' j h => ?other, ?twice⟩
  case slot =>
    obtain rfl := eq_slotStage hi (hbase ▸ hj)
    obtain ⟨h1, h2⟩ := applyOrder_slot_state c ch k seq ⟨i, hi⟩ s
    exact ⟨h1, h2, fun h => applyOrder_slot_active h hs c ch s, fun h => applyOrder_slot_bypassed h hs c ch s⟩
  case other =>
    rw [hbase] at h
    exact applyOrder_other c ch k seq s (h.imp_right outsideChain_of_val)
  case twice =>
    rw [exec_applyOrder hk hs, applyOrder_twice]

/-! ### The chain as its four slots -/

/-- `CHAIN_PROCESS` as executed (R164). -/
theorem exec_chainProcess (c : Lane) (ch : Chain) (x : F32) (s : State) :
    exec (.chainProcess c ch x) s = .next ((chainProcess c ch x s).2.withResult (.sample (chainProcess c ch x s).1)) := rfl

/-- A stage fed the output of the part before, in the state that part left (R164). -/
theorem exec_stage_next {c : Lane} {j : StageIdx} {r r' : F32 × State} (h : r' = stageProcess c j r.1 r.2) :
    exec (.stageProcess c j r.1) (r.2.withResult (.sample r.1)) = .next (r'.2.withResult (.sample r'.1)) :=
  h ▸ exec_stage_withResult ..

/-- Settles O42: each `STAGE_PROCESS` starts from the state the one before left, whose result record it does not read. -/
theorem chainProcessIsItsSlotsInOrder : Obligations.ChainProcessIsItsSlotsInOrder := by
  intro c ch x s slot
  have hslot : slot = slotStage ch := by
    funext i
    cases ch <;> fin_cases i <;> rfl
  clear_value slot
  subst hslot
  refine ⟨?slots, fun h => ?bypassed⟩
  case slots =>
    obtain ⟨r0, r1, r2, r3, h0, h1, h2, h3, hchain⟩ := chainProcess_eq c ch x s
    have hfirst : exec (.stageProcess c (slotStage ch 0) x) s = .next (r0.2.withResult (.sample r0.1)) :=
      h0 ▸ exec_stage ..
    have hall : exec (.chainProcess c ch x) s = .next (r3.2.withResult (.sample r3.1)) :=
      hchain ▸ exec_chainProcess ..
    exact ⟨_, _, _, _, _, _, _, _, hfirst, rfl, exec_stage_next h1, rfl, exec_stage_next h2, rfl,
      exec_stage_next h3, rfl, hall⟩
  case bypassed =>
    rw [exec_chainProcess, chainProcess_bypassed h]
    rfl

/-! ### The lane as its three parts -/

/-- The frame of sample processing with the result record written. -/
theorem withResult_of_onlyFilterState {s t : State} (h : OnlyFilterState s t) (r : UopResult) :
    t.withResult r = { s with lanes := t.lanes, nanDraws := t.nanDraws, result := r } :=
  congrArg (State.withResult · r) h

/-- Settles O43: each part starts from the state the one before left, whose result record it does not read; what changes
is what `monoProcess` changes. -/
theorem monoProcessIsLowPeakHigh : Obligations.MonoProcessIsLowPeakHigh := by
  refine fun c x s => ⟨?parts, fun h => ?bypassed⟩
  case parts =>
    obtain ⟨u, v, w, hu, hv, hw, hmono⟩ := monoProcess_eq c x s
    have hlow : exec (.chainProcess c .low x) s = .next (u.2.withResult (.sample u.1)) := hu ▸ exec_chainProcess ..
    have hhigh : exec (.chainProcess c .high v.1) (v.2.withResult (.sample v.1)) =
        .next (w.2.withResult (.sample w.1)) := hw ▸ exec_chain ..
    have hall : exec (.monoProcess c x) s = .next (w.2.withResult (.sample w.1)) := hmono ▸ exec_mono ..
    have hkeeps := monoProcess_keepsShape c x s
    rw [hmono] at hkeeps
    obtain ⟨hframe, hshape, hlane⟩ := hkeeps
    exact ⟨_, _, _, _, _, _, hlow, rfl, exec_stage_next hv, rfl, hhigh, rfl, hall,
      withResult_of_onlyFilterState hframe _, hlane, hshape c⟩
  case bypassed =>
    rw [exec_mono, monoProcess_bypassed h]
    rfl

end Sys2Proof
end

section
/-! Proofs of the statements about the stereo processor (43_stereo_processor.md): acceptance (R180), the update protocol
(R184 to R186), unwritten samples (R189), and the commands NOP and RESET (R200, R202). -/
namespace Sys2Proof

open Machine

/-! ### Acceptance, check by check -/

/-- The opcode of a command's row (30_encoding.md R92). -/
def Command.opcode : Command → BitVec 8
  | .nop => 0x00#8
  | .prepare _ => 0x01#8
  | .reset => 0x02#8
  | .updateAndProcess _ => 0x03#8

/-- A word carries the opcode of the row it selects. -/
theorem opcField_of_matchRow {w : Word} {cmd : Command} (h : matchRow w = some cmd) : opcField w = cmd.opcode := by
  rw [matchRow_eq_some_iff] at h
  apply BitVec.eq_of_toNat_eq
  rw [toNat_opcField]
  cases cmd <;>
    simp only [SelectsRow, word_eq_iff, toNat_and_low, toNat_and_all, BitVec.toNat_ofNat] at h <;>
    simp only [Command.opcode, BitVec.toNat_ofNat] <;> omega

/-- A word decodes to no command exactly when it selects no row. -/
theorem decode_cmd_toOption_eq_none_iff {w : Word} : (decode (.cmd w)).toOption = none ↔ matchRow w = none := by
  cases hm : matchRow w with
  | none => simp [decode, decodeCommand, hm, Except.toOption]
  | some cmd => simp [decode_cmd hm, Except.toOption]

/-- `BAD_RATE` with the values of `FS_MIN` and `FS_MAX` (R180). -/
theorem badRate_iff (f : F32) :
    badRate f = true ↔ isNaN32 f ∨ lt32 f 0x45FA0000#32 ∨ lt32 0x483B8000#32 f := by
  simp [badRate, Config.fsMin, Config.fsMax, or_assoc]

/-- The checks of a PREPARE, on the number its length is (R180). -/
theorem rejects_prepare (s : State) (len : BitVec 16) :
    s.rejects (.prepare len) =
      if isNaN32 s.fsArg ∨ lt32 s.fsArg 0x45FA0000#32 ∨ lt32 0x483B8000#32 s.fsArg then some .badRate
      else if len.toNat = 0 ∨ Config.bufLen < len.toNat then some .badBlockSize
      else none := by
  simp only [State.rejects, badRate_iff, BitVec.lt_def, word_eq_iff, zext_nat, toNat_bufLenWord]
  rfl

/-- The checks of an UPDATE_AND_PROCESS, on the number its length is (R180). -/
theorem rejects_updateAndProcess (s : State) (len : BitVec 16) :
    s.rejects (.updateAndProcess len) =
      if s.prepared = false then some .notPrepared
      else if s.maxBlk.toNat < len.toNat then some .blockTooLong
      else none := by
  simp only [State.rejects, BitVec.lt_def, zext_nat, Bool.not_eq_true']

/-- A busy block reports `CMD_BUSY` whatever the word (R180). -/
theorem present_of_busy {s : State} (hb : s.busy = true) (w : Word) : s.present w = s.report .cmdBusy := by
  simp [State.present, hb]

/-- A legal word on an idle block is reported with the cause that rejects its command, or accepted (R180). -/
theorem present_of_row {s : State} {w : Word} {cmd : Command} (hb : s.busy = false) (hm : matchRow w = some cmd) :
    s.present w = (s.rejects cmd).elim (s.accept w cmd) s.report := by
  cases hr : s.rejects cmd <;> simp [State.present, hb, hm, hr]

/-- The state acceptance leaves, by the command whose row the word selects (R180). -/
theorem accept_of_row {w : Word} {cmd : Command} (hm : matchRow w = some cmd) (s : State) :
    s.accept w cmd =
      { s with
        busy := true
        done := false
        pending := some { opc := cmd.opcode, len := lenField w, fsLatched := s.latchedRate cmd }
        snap := s.snapAfter cmd } := by
  rw [← opcField_of_matchRow hm]
  rfl

/-- Settles O9: an idle block looks for the word's row; each command then has its own checks, which stand in R180's list
under its opcode. -/
theorem acceptanceFollowsTheCheckOrder : Obligations.AcceptanceFollowsTheCheckOrder := by
  intro s w opc len raise
  rw [exec_writeCmd]
  refine congrArg _ ?_
  cases hb : s.busy with
  | true => exact present_of_busy hb w
  | false =>
    simp only [decode_cmd_toOption_eq_none_iff]
    cases hm : matchRow w with
    | none => exact present_of_no_row hb hm
    | some cmd =>
      have hopc : opc = cmd.opcode := opcField_of_matchRow hm
      rw [present_of_row hb hm, accept_of_row hm, hopc]
      cases cmd with
      | nop | reset => rfl
      | prepare l =>
        obtain rfl : l = len := (matchRow_eq_some_iff.mp hm).2
        rw [rejects_prepare]
        simp only [Command.opcode, BitVec.reduceEq, Bool.false_eq_true, reduceCtorEq, false_and, true_and, reduceIte]
        split_ifs <;> rfl
      | updateAndProcess l =>
        obtain rfl : l = len := (matchRow_eq_some_iff.mp hm).2
        rw [rejects_updateAndProcess]
        simp only [Command.opcode, BitVec.reduceEq, Bool.false_eq_true, reduceCtorEq, false_and, true_and, reduceIte]
        split_ifs <;> rfl

/-! ### The update protocol -/

/-- Both lanes' low-cut chains are as order selection leaves them (R184). -/
theorem updateCut_low_eq_applyOrder (kL : Nat) (lowSeq : List CoeffSet) (kH : Nat) (highSeq : List CoeffSet) (s : State)
    (c : Lane) (i : Slot) :
    (updateCut kL lowSeq kH highSeq s).stage c (slotStage .low i) =
      (applyOrder c .low kL lowSeq s).stage c (slotStage .low i) :=
  (updateCut_low ..).trans (applyOrder_slot ..).symm

/-- Both lanes' high-cut chains are as order selection leaves them (R184). -/
theorem updateCut_high_eq_applyOrder (kL : Nat) (lowSeq : List CoeffSet) (kH : Nat) (highSeq : List CoeffSet)
    (s : State) (c : Lane) (i : Slot) :
    (updateCut kL lowSeq kH highSeq s).stage c (slotStage .high i) =
      (applyOrder c .high kH highSeq s).stage c (slotStage .high i) :=
  (updateCut_high ..).trans (applyOrder_slot ..).symm

/-- The cut update keeps every state word (R184). -/
theorem updateCut_keepsState (kL : Nat) (lowSeq : List CoeffSet) (kH : Nat) (highSeq : List CoeffSet) (s : State)
    (c : Lane) (j : StageIdx) :
    ((updateCut kL lowSeq kH highSeq s).stage c j).s1 = (s.stage c j).s1 ∧
      ((updateCut kL lowSeq kH highSeq s).stage c j).s2 = (s.stage c j).s2 := by
  rcases stage_cases j with ⟨i, rfl⟩ | rfl | ⟨i, rfl⟩
  · rw [updateCut_low_eq_applyOrder]; exact applyOrder_slot_state ..
  · rw [updateCut_peak]; exact ⟨rfl, rfl⟩
  · rw [updateCut_high_eq_applyOrder]; exact applyOrder_slot_state ..

/-- Settles O45: the four chain updates are `updateCut` taken apart; a chain's slots are as its own order selection
leaves them. -/
theorem updateCutUpdatesBothLanes : Obligations.UpdateCutUpdatesBothLanes := by
  intro kL kH lowSeq highSeq s hkL hlow hkH hhigh
  refine ⟨_, _, _, _, exec_applyOrder hkL hlow 0 .low s, exec_applyOrder hkH hhigh 0 .high _,
    exec_applyOrder hkL hlow 1 .low _, exec_applyOrder hkH hhigh 1 .high _,
    exec_updateCut hkL hlow hkH hhigh s, updateCut_onlyLanes kL lowSeq kH highSeq s, fun c => ⟨?low, ?high,
      updateCut_peak kL lowSeq kH highSeq s c, updateCut_keepsState kL lowSeq kH highSeq s c⟩⟩
  case low =>
    intro i j hj
    obtain rfl : j = slotStage .low i := Fin.ext hj
    have he := updateCut_low_eq_applyOrder kL lowSeq kH highSeq s c i
    exact he ▸ ⟨fun hi => applyOrder_slot_active hi hlow c .low s,
      fun hi => applyOrder_slot_bypassed hi hlow c .low s⟩
  case high =>
    intro i j hj
    obtain rfl : j = slotStage .high i := Fin.ext hj
    have he := updateCut_high_eq_applyOrder kL lowSeq kH highSeq s c i
    exact he ▸ ⟨fun hi => applyOrder_slot_active hi hhigh c .high s,
      fun hi => applyOrder_slot_bypassed hi hhigh c .high s⟩

/-- `UPDATE_PEAK` as executed (R185). -/
theorem exec_updatePeak (set : CoeffSet) (s : State) : exec (.updatePeak set) s = .next (updatePeak set s) := rfl

/-- Settles O46: `peakStage` is stage 4. -/
theorem updatePeakActivatesBothPeakStages : Obligations.UpdatePeakActivatesBothPeakStages :=
  fun set s => ⟨_, exec_updatePeak set s, updatePeak_onlyLanes set s, updatePeak_stage set s⟩

/-- `DESIGN_PEAK` as executed (40_coeff_factory.md R120). -/
theorem exec_designPeak (peakF gainDb q fsd : F64) (s : State) :
    exec (.designPeak peakF gainDb q fsd) s = .next (s.withResult (.coeffs (designPeak peakF gainDb q fsd))) := rfl

/-- `DESIGN_LOWCUT` of an order code goes on (40_coeff_factory.md R124). -/
theorem exec_designLowcut {k : Nat} (hk : k ≤ 3) (f fsd : F64) (s : State) :
    exec (.designLowcut f k fsd) s = .next (s.withResult (.sequence (designLowcut f k fsd))) := by
  simp only [exec, execDesignLowcut, checkOrder_eq_none.mpr hk]

/-- `DESIGN_HIGHCUT` of an order code goes on (40_coeff_factory.md R125). -/
theorem exec_designHighcut {k : Nat} (hk : k ≤ 3) (f fsd : F64) (s : State) :
    exec (.designHighcut f k fsd) s = .next (s.withResult (.sequence (designHighcut f k fsd))) := by
  simp only [exec, execDesignHighcut, checkOrder_eq_none.mpr hk]

/-- `UPDATE` as executed (R186). -/
theorem exec_update (s : State) : exec .update s = .next (update s) := rfl

/-- A state that keeps every stage and everything else is the state itself. -/
theorem eq_of_onlyLanes {s t : State} (h : OnlyLanes s t) (hst : ∀ c j, t.stage c j = s.stage c j) : t = s :=
  Eq.trans (show t = { s with lanes := t.lanes } from h) (by rw [State.lanes_ext hst])

/-- What only writes stages keeps the rate and the snapshot. -/
theorem fs_snap_of_onlyLanes {s t : State} (h : OnlyLanes s t) : t.fs = s.fs ∧ t.snap = s.snap := by
  unfold OnlyLanes at h
  rw [h]
  exact ⟨rfl, rfl⟩

/-- Order selection of a slot reads nothing but the slot, so a slot it has made stays (R162). -/
theorem applyOrder_slot_fixed {c : Lane} {ch : Chain} {k : Nat} {seq : List CoeffSet} {i : Slot} {s t : State}
    (h : t.stage c (slotStage ch i) = (applyOrder c ch k seq s).stage c (slotStage ch i)) :
    (applyOrder c ch k seq t).stage c (slotStage ch i) = t.stage c (slotStage ch i) := by
  rw [applyOrder_slot, h, applyOrder_slot]
  split <;> rfl

/-- The cut update and the peak update, done again, change nothing (R186). -/
theorem updatePeak_updateCut_twice (set : CoeffSet) (kL : Nat) (lowSeq : List CoeffSet) (kH : Nat)
    (highSeq : List CoeffSet) {s t : State} (ht : t = updatePeak set (updateCut kL lowSeq kH highSeq s)) :
    updatePeak set (updateCut kL lowSeq kH highSeq t) = t := by
  refine eq_of_onlyLanes ((updateCut_onlyLanes ..).trans (updatePeak_onlyLanes ..)) fun c j => ?_
  have hst : t.stage c j = _ := ht ▸ updatePeak_stage set _ c j
  rw [updatePeak_stage]
  rcases stage_cases j with ⟨i, rfl⟩ | rfl | ⟨i, rfl⟩
  · have hi : slotStage .low i ≠ peakStage := (peakStage_outside .low i).symm
    rw [if_neg hi, updateCut_low_eq_applyOrder] at hst ⊢
    exact applyOrder_slot_fixed hst
  · rw [if_pos rfl, updateCut_peak] at hst ⊢
    rw [hst]
  · have hi : slotStage .high i ≠ peakStage := (peakStage_outside .high i).symm
    rw [if_neg hi, updateCut_high_eq_applyOrder] at hst ⊢
    exact applyOrder_slot_fixed hst

/-- The update done again changes nothing: it keeps the rate and the snapshot, so it designs the same sets (R186). -/
theorem update_twice (s : State) : update (update s) = update s := by
  obtain ⟨hfs, hsnap⟩ := fs_snap_of_onlyLanes (update_onlyLanes s)
  rw [update_eq (update s), hfs, hsnap]
  exact updatePeak_updateCut_twice _ _ _ _ _ (update_eq s)

/-- Settles O47: the conversion gives order codes of a chain, for which the designs and the cut update go on. -/
theorem updateIsItsStepsInOrder : Obligations.UpdateIsItsStepsInOrder := by
  intro s fsd
  obtain ⟨hL, hH⟩ := convertSnapshot_orders_le_three s.snap fsd
  exact ⟨_, _, _, _, _, _, _, _, _, _, exec_convertSnapshot fsd s, rfl, exec_designPeak .., rfl,
    exec_designLowcut hL _ fsd s, rfl, exec_designHighcut hH _ fsd s, rfl,
    exec_updateCut hL (cutSequence_length _ _ hL fsd).ge hH (cutSequence_length _ _ hH fsd).ge s, exec_updatePeak ..,
    exec_update s, update_onlyLanes s, update_keepsState s, LanesAgree.update,
    (exec_update _).trans (congrArg _ (update_twice s))⟩

/-! ### Unwritten samples -/

/-- A block with a word that holds no value stops at such a word (R189). -/
theorem blockProcess_unwritten {n : Nat} {s : State} (h : ∃ c i, i < n ∧ s.bufRead c i = none) :
    ∃ c i, i < n ∧ s.bufRead c i = none ∧ blockProcess n s = .error (.unwrittenSample c i) := by
  cases hp : blockProcess n s with
  | ok t =>
    obtain ⟨c, i, hi, hn⟩ := h
    have := blockProcess_reads hp c hi
    simp [hn] at this
  | error e =>
    obtain ⟨c, i, hi, rfl, hn⟩ := blockProcess_stops hp
    exact ⟨c, i, hi, hn, rfl⟩

/-- Settles O49: both run `blockProcess`, the command after an update, which leaves the buffer alone. -/
theorem unwrittenSamplesFault : Obligations.UnwrittenSamplesFault := by
  refine fun n s h => ⟨?operation, fun hp => ?command⟩
  case operation =>
    obtain ⟨c, i, hi, hn, he⟩ := blockProcess_unwritten h
    exact ⟨c, i, hi, hn, by simp only [exec, execBlockProcess, he]⟩
  case command =>
    obtain ⟨p, hp⟩ := Option.isSome_iff_exists.mp hp
    have hbuf := bufRead_of_mem (update_mem s)
    simp only [← hbuf] at h ⊢
    obtain ⟨c, i, hi, hn, he⟩ := blockProcess_unwritten h
    exact ⟨c, i, hi, hn, (execUpdateAndProcess_pending hp n).trans (by rw [he])⟩

/-! ### NOP and RESET -/

/-- A write of `CMD` on a busy block reports `CMD_BUSY` (R180). -/
theorem exec_writeCmd_busy {s : State} (hb : s.busy = true) (w : Word) :
    exec (.memWrite 0x008#32 4 w) s = .next (s.report .cmdBusy) := by
  rw [exec_writeCmd, present_of_busy hb]

/-- A write of `CMD` on an idle block that no check rejects is accepted (R180). -/
theorem exec_writeCmd_accepted {s : State} {w : Word} {cmd : Command} (hb : s.busy = false)
    (hm : matchRow w = some cmd) (hr : s.rejects cmd = none) :
    exec (.memWrite 0x008#32 4 w) s = .next (s.accept w cmd) := by
  rw [exec_writeCmd, present_of_row hb hm, hr]
  rfl

/-- The end of a completion step that wrote stages only (R181). -/
theorem complete_of_onlyLanes {s t : State} (h : OnlyLanes s t) :
    t.complete = { s with lanes := t.lanes, busy := false, done := true, pending := none } :=
  congrArg State.complete h

/-- Settles O52: no check is made of a NOP on an idle block. -/
theorem nopOnlyCompletes : Obligations.NopOnlyCompletes :=
  fun _ => ⟨fun hb => exec_writeCmd_accepted hb matchRow_nop rfl, fun hb => exec_writeCmd_busy hb _,
    fun _ hp => execNop_pending hp⟩

/-- Settles O54: no check is made of a RESET on an idle block, and its effect is the chain reset, which writes stages
only. -/
theorem resetClearsBothLanesAndNothingElse : Obligations.ResetClearsBothLanesAndNothingElse :=
  fun s => ⟨fun hb => exec_writeCmd_accepted hb matchRow_reset rfl, fun hb => exec_writeCmd_busy hb _,
    fun _ hp => ⟨_, exec_chainsReset s,
      (execReset_pending hp).trans (congrArg _ (complete_of_onlyLanes (chainsReset_onlyLanes s)))⟩⟩

end Sys2Proof
end

section
/-! Proof of the statement about the host's acknowledgement of errors and completions (60_exceptions.md R224). -/
namespace Sys2Proof

open Machine

/-- A write of `STATUS` as seen from the bus (10_state.md R23). -/
theorem exec_writeStatus (v : Word) (s : State) : exec (.memWrite 0x00C#32 4 v) s = .next (s.writeStatus v) :=
  exec_memWrite (by decide) (by decide) v s

/-- Settles O11: the address map puts `STATUS` at the offset, and a flag masked by the complement of its acknowledge bit
is the flag cleared where that bit is set. -/
theorem statusWriteAcknowledges : Obligations.StatusWriteAcknowledges := by
  intro s v
  rw [exec_writeStatus, writeStatus_eq]
  simp only [Bool.if_false_left, Bool.decide_eq_true, Bool.and_comm]

end Sys2Proof
end

section
/-! Proofs of the statements about encoding (30_encoding.md), about what one step runs, and about the invariant that
every step keeps (10_state.md sections 2, 6 and 7). -/
namespace Sys2Proof

open Machine

/-! ### Encoding -/

/-- Settles O1: one round trip for each row of the instruction table. -/
theorem decodingAnEncodedInstructionGivesItBack : Obligations.DecodingAnEncodedInstructionGivesItBack := by
  intro i
  cases i with
  | nop => exact Laws.RoundTrip.nop
  | prepare len => exact Laws.RoundTrip.prepare len
  | reset => exact Laws.RoundTrip.reset
  | updateAndProcess len => exact Laws.RoundTrip.updateAndProcess len
  | convertSnapshot fsd => exact Laws.RoundTrip.convertSnapshot fsd
  | designPeak peakF gainDb q fsd => exact Laws.RoundTrip.designPeak peakF gainDb q fsd
  | designLowcut lowF kL fsd => exact Laws.RoundTrip.designLowcut lowF kL fsd
  | designHighcut highF kH fsd => exact Laws.RoundTrip.designHighcut highF kH fsd
  | stageSetCoeff c j set => exact Laws.RoundTrip.stageSetCoeff c j set
  | stageSetBypass c j b => exact Laws.RoundTrip.stageSetBypass c j b
  | stageProcess c j x => exact Laws.RoundTrip.stageProcess c j x
  | stageClear c j => exact Laws.RoundTrip.stageClear c j
  | chainApplyOrder c ch k seq => exact Laws.RoundTrip.chainApplyOrder c ch k seq
  | chainProcess c ch x => exact Laws.RoundTrip.chainProcess c ch x
  | monoProcess c x => exact Laws.RoundTrip.monoProcess c x
  | updateCut kL lowSeq kH highSeq => exact Laws.RoundTrip.updateCut kL lowSeq kH highSeq
  | updatePeak peakSet => exact Laws.RoundTrip.updatePeak peakSet
  | update => exact Laws.RoundTrip.update
  | blockProcess n => exact Laws.RoundTrip.blockProcess n
  | chainsReset => exact Laws.RoundTrip.chainsReset
  | memRead a n => exact Laws.RoundTrip.memRead a n
  | memWrite a n v => exact Laws.RoundTrip.memWrite a n v

/-- Settles O4: the decoder evaluated on each of the words. -/
theorem writtenOutWordsDecode : Obligations.WrittenOutWordsDecode := by
  refine ⟨?_, ?_, ?_, ?_, ?_, ?_, ?_, ?_⟩ <;> decide

/-! ### What a step runs -/

/-- Settles O5: each kind of request is fetched as the packet it stands for. -/
theorem stepRunsTheDecodedInstruction : Obligations.StepRunsTheDecodedInstruction := by
  refine fun s rest => ⟨fun ws i hr hd => ?host, fun ws i hr hd => ?micro, fun p i hr hp hd => ?engine,
    fun p i hr hp hd => ?stopped⟩
  case host => exact step_of_packet (fetch_host hr) hd
  case micro => exact step_of_packet (fetch_micro hr) hd
  case engine => exact step_of_packet ((fetch_engine hr).trans (engineTurn_pending hp)) hd
  case stopped => exact step_of_packet ((fetch_nil hr).trans (engineTurn_pending hp)) hd

/-- A power-on request is the reset of the state without it (70_reset_and_hazards.md R250). -/
theorem step_powerOn {s : State} {rest : List Request} (h : s.inbox = .powerOn :: rest) :
    step s = .next { s with inbox := rest }.powerOnReset := by
  simp only [step, fetch_powerOn h]

/-- Settles O7: `State.powerOnReset` is the reset state with the draws and the list kept. -/
theorem powerOnResetRestoresTheResetState : Obligations.PowerOnResetRestoresTheResetState :=
  fun _ _ h => step_powerOn h

/-- A step that fetches nothing leaves the state it fetched from (70_reset_and_hazards.md R263). -/
theorem step_idle {s t : State} (h : fetch s = .idle t) : step s = .next t := by
  simp only [step, h]

/-- A state that a step leaves as it is stays so however many steps follow. -/
theorem run_of_step_self {s : State} (h : step s = .next s) (n : Nat) : run n s = .next s := by
  induction n with
  | zero => rfl
  | succ n ih => rw [run_succ_next h, ih]

/-- Settles O8: the engine's turn with nothing pending fetches nothing. -/
theorem anIdleBlockStaysAsItIs : Obligations.AnIdleBlockStaysAsItIs :=
  fun _ hp => ⟨fun hr => run_of_step_self (step_idle ((fetch_nil hr).trans (engineTurn_idle hp))),
    fun _ hr => step_idle ((fetch_engine hr).trans (engineTurn_idle hp))⟩

/-! ### The invariant through a fetch -/

/-- The state a fetch leaves, whatever it found to do. -/
def fetchedState : Fetched → State
  | .idle s => s
  | .powerOn s => s
  | .packet _ s => s

/-- The engine's turn takes nothing off the state. -/
theorem fetchedState_engineTurn (s : State) : fetchedState (engineTurn s) = s := by
  cases hp : s.pending with
  | none => rw [engineTurn_idle hp]; rfl
  | some p => rw [engineTurn_pending hp]; rfl

/-- A fetch changes nothing but the list. -/
theorem Inv.fetch {s : State} (h : Inv s) : Inv (fetchedState (fetch s)) := by
  cases hr : s.inbox with
  | nil => rw [fetch_nil hr, fetchedState_engineTurn]; exact h
  | cons r rest =>
    have hpop := h.pop hr
    cases r with
    | host ws => rw [fetch_host hr]; exact hpop
    | engine => rw [fetch_engine hr, fetchedState_engineTurn]; exact hpop
    | micro ws => rw [fetch_micro hr]; exact hpop
    | powerOn => rw [fetch_powerOn hr]; exact hpop

/-- The packets of an engine's turn are those of the command in flight. -/
theorem engineTurn_packet {s t : State} {p : Packet} (h : engineTurn s = .packet p t) :
    ∃ q, t.pending = some q ∧ p = .cmd (commandWord q.opc q.len) := by
  cases hp : s.pending with
  | none => rw [engineTurn_idle hp] at h; cases h
  | some q => rw [engineTurn_pending hp] at h; cases h; exact ⟨q, hp, rfl⟩

/-- Without internal operations on their own a packet is a bus transaction or the command in flight (log 23). -/
theorem Inv.fetch_packet {s t : State} {p : Packet} (h : Inv s) (hf : Machine.fetch s = .packet p t) :
    (∃ ws, p = .bus ws) ∨ ∃ q, t.pending = some q ∧ p = .cmd (commandWord q.opc q.len) := by
  cases hr : s.inbox with
  | nil => exact .inr (engineTurn_packet ((fetch_nil hr).symm.trans hf))
  | cons r rest =>
    cases r with
    | host ws => rw [fetch_host hr] at hf; cases hf; exact .inl ⟨ws, rfl⟩
    | engine => exact .inr (engineTurn_packet ((fetch_engine hr).symm.trans hf))
    | micro ws => exact absurd (hr ▸ List.mem_cons_self) (h.noMicro ws)
    | powerOn => rw [fetch_powerOn hr] at hf; cases hf

/-! ### The invariant through an instruction -/

/-- A buffer without a value is in its canonical form. -/
theorem memOk_nil : MemOk [] :=
  ⟨List.Pairwise.nil, fun _ hp => absurd hp List.not_mem_nil, fun _ _ _ _ _ => rfl⟩

/-- The form rests on the buffer only. -/
theorem MemOk.congr {m m' : Memory} (h : MemOk m) (e : m' = m) : MemOk m' := by
  rwa [e]

/-- Power-on reset leaves a state with the invariant, where no internal operation is to come. -/
theorem inv_powerOnReset {s : State} (h : ∀ ws, Request.micro ws ∉ s.inbox) : Inv s.powerOnReset :=
  Inv.of rfl (iff_of_true rfl rfl) memOk_nil (lanesAgree_reset.of_lanes s.powerOnReset_lanes) nofun nofun h

/-- Settles O56: the reset state is the power-on reset of itself. -/
theorem invariantHoldsAtReset : Obligations.InvariantHoldsAtReset :=
  inv_powerOnReset (s := State.reset) fun _ => List.not_mem_nil

/-- A read keeps the invariant: it writes no field the invariant speaks of (20_memory.md R64). -/
theorem Inv.read {s t : State} (h : Inv s) (ht : t = { s with readData := t.readData, readDraws := t.readDraws }) :
    Inv t := by
  rw [ht]
  exact Inv.of h.busy h.cause h.memOk h.lanesAgree h.prepared
    (fun p hp => (h.pending p hp).congr rfl rfl) h.noMicro

/-- A bus access keeps the invariant. -/
theorem Inv.access {i : Instr} {s t : State} (h : Inv s) (ha : IsAccess i) (he : exec i s = .next t) : Inv t := by
  rcases ha with ⟨a, n, rfl⟩ | ⟨a, n, v, rfl⟩
  · obtain ⟨-, -, -, hr⟩ := accessing_next (show accessing a n s.readTarget = .next t from he)
    exact h.read (readTarget_frame hr)
  · obtain ⟨-, -, -, hw⟩ :=
      accessing_next (show accessing a n (fun x => .next (s.writeTarget v x)) = .next t from he)
    exact Host.Outcome.next.inj hw ▸ h.write v _

/-- What a completion leaves of the fields it does not write, and the end it sets (43_stereo_processor.md R181). -/
theorem completionFrame_fields {s t : State} (h : CompletionFrame s t) :
    t.busy = false ∧ t.pending = none ∧ t.err = s.err ∧ t.errCause = s.errCause ∧ t.inbox = s.inbox := by
  unfold CompletionFrame at h
  rw [h]
  exact ⟨rfl, rfl, rfl, rfl, rfl⟩

/-- What only writes stages writes neither the buffer nor a field that PREPARE writes. -/
theorem rate_mem_of_onlyLanes {s t : State} (h : OnlyLanes s t) :
    t.fs = s.fs ∧ t.maxBlk = s.maxBlk ∧ t.prepared = s.prepared ∧ t.mem = s.mem := by
  unfold OnlyLanes at h
  rw [h]
  exact ⟨rfl, rfl, rfl, rfl⟩

/-- A block writes no field that PREPARE writes (R187). -/
theorem blockProcess_rate {n : Nat} {s t : State} (h : blockProcess n s = .ok t) :
    t.fs = s.fs ∧ t.maxBlk = s.maxBlk ∧ t.prepared = s.prepared := by
  obtain ⟨hframe, -, -⟩ := blockProcess_frame h
  rw [hframe]
  exact ⟨rfl, rfl, rfl⟩

/-- The fields PREPARE writes, once prepared, are in their ranges (40_coeff_factory.md R110, 10_state.md R28). -/
def RateOk (s : State) : Prop :=
  s.prepared = true → badRate s.fs = false ∧ 1 ≤ s.maxBlk.toNat ∧ s.maxBlk.toNat ≤ Config.bufLen

/-- The ranges rest on the fields PREPARE writes only. -/
theorem RateOk.congr {s t : State} (h : RateOk s) (hr : t.fs = s.fs ∧ t.maxBlk = s.maxBlk ∧ t.prepared = s.prepared) :
    RateOk t := by
  obtain ⟨hfs, hblk, hprep⟩ := hr
  unfold RateOk
  rw [hfs, hblk, hprep]
  exact h

/-- The end of a completion keeps the invariant when the effect left the buffer, the lanes and the ranges in order. -/
theorem Inv.completion {s u : State} (h : Inv s) (hf : CompletionFrame s u.complete) (hm : MemOk u.mem)
    (hl : LanesAgree u.complete) (hr : RateOk u) : Inv u.complete := by
  obtain ⟨hbusy, hpending, herr, hcause, hinbox⟩ := completionFrame_fields hf
  refine Inv.of rfl (by rw [herr, hcause]; exact h.cause) (hm.congr u.complete_mem) hl
    (hr.congr ⟨u.complete_fs, u.complete_maxBlk, u.complete_prepared⟩) ?_ (hinbox ▸ h.noMicro)
  intro p e
  rw [hpending] at e
  cases e

/-- What a PREPARE leaves of the fields the invariant speaks of (43_stereo_processor.md R201). -/
theorem prepareEffect_fields (s : State) (len : BitVec 16) (f : F32) :
    (s.prepareEffect len f).mem = (chainsReset s).mem ∧ (s.prepareEffect len f).fs = f ∧
      (s.prepareEffect len f).maxBlk = zextLen len := by
  simp only [State.prepareEffect, and_self]

/-- The completion of the command in flight keeps the invariant (43_stereo_processor.md R200 to R203): a PREPARE takes
the rate and the length that acceptance has checked. -/
theorem Inv.command {s t : State} {p : Pending} {cmd : Command} (h : Inv s) (hp : s.pending = some p)
    (hm : matchRow (commandWord p.opc p.len) = some cmd) (he : exec cmd.toInstr s = .next t) : Inv t := by
  have hl : LanesAgree t := h.lanesAgree.command he
  have hrate : RateOk s := h.prepared
  obtain ⟨hreset_fs, hreset_blk, hreset_prep, hreset_mem⟩ := rate_mem_of_onlyLanes (chainsReset_onlyLanes s)
  have hreset_mem : MemOk (chainsReset s).mem := h.memOk.congr hreset_mem
  obtain ⟨hf, hcases⟩ := execCommand_pending hp he
  rcases hcases with ⟨-, rfl⟩ | ⟨-, rfl⟩ | ⟨len, rfl, rfl⟩ | ⟨len, u, -, hu, rfl⟩
  case inl => exact h.completion hf h.memOk hl hrate
  case inr.inl => exact h.completion hf hreset_mem hl (hrate.congr ⟨hreset_fs, hreset_blk, hreset_prep⟩)
  case inr.inr.inl =>
    obtain ⟨cmd, hm', hchecked, -⟩ := h.pending p hp
    obtain ⟨hr, h1, h2⟩ := hchecked len (Option.some.inj (hm'.symm.trans hm))
    obtain ⟨hmem, hfs, hblk⟩ := prepareEffect_fields s len p.fsLatched
    refine h.completion hf (hreset_mem.congr hmem) hl fun _ => ?_
    rw [hfs, hblk, zext_nat]
    exact ⟨hr, h1, h2⟩
  case inr.inr.inr =>
    obtain ⟨hfs, hblk, hprep, hmem⟩ := rate_mem_of_onlyLanes (update_onlyLanes s)
    have hm : MemOk u.mem := MemOk.blockProcess hu (h.memOk.congr hmem)
    have hr : RateOk u := RateOk.congr (hrate.congr ⟨hfs, hblk, hprep⟩) (blockProcess_rate hu)
    exact h.completion hf hm hl hr

/-- Settles O57: a step fetches nothing, a power-on request, a bus transaction or the command in flight. -/
theorem everyStepKeepsTheInvariant : Obligations.EveryStepKeepsTheInvariant := by
  intro s t h hstep
  have hfetch := h.fetch
  rcases step_next hstep with hf | ⟨u, hf, rfl⟩ | ⟨p, u, i, hf, hd, he⟩
  case inl => rwa [hf] at hfetch
  case inr.inl =>
    rw [hf] at hfetch
    exact inv_powerOnReset hfetch.noMicro
  case inr.inr =>
    rw [hf] at hfetch
    rcases h.fetch_packet hf with ⟨ws, rfl⟩ | ⟨q, hq, rfl⟩
    · exact hfetch.access (decode_bus hd) he
    · obtain ⟨cmd, hm, rfl⟩ := decode_cmd_eq_ok_iff.mp hd
      exact hfetch.command hq hm he

end Sys2Proof
end

section
/-! Proofs of the statements over all instructions: who writes the error latch, the parameters, the rate and block size,
`BUSY` and the pending command (10_state.md sections 2, 3 and 6, 60_exceptions.md R222). -/
namespace Sys2Proof

open Machine

/-! ### What an instruction cannot write -/

/-- `t` is `s` but for what a bus write can reach: stages, rate, block size, `PREPARED`, draws, results and the list
stay. -/
def WriteFrame (s t : State) : Prop :=
  t = { s with
    busy := t.busy
    done := t.done
    err := t.err
    errCause := t.errCause
    fsArg := t.fsArg
    param := t.param
    mem := t.mem
    snap := t.snap
    pending := t.pending }

/-- Every write of the bus window stays in the frame (20_memory.md R65 to R68). -/
theorem writeTarget_frame (s : State) (v : Word) (x : Target) : WriteFrame s (s.writeTarget v x) := by
  rcases writeTarget_cases s v x with
    e | ⟨-, e⟩ | ⟨-, e⟩ | ⟨-, e⟩ | ⟨i, -, e⟩ | ⟨c, i, -, -, -, e⟩ | ⟨c, i, -, -, -, e⟩ <;> rw [e]
  case inr.inl =>
    rcases present_cases s v with ⟨e, -, he⟩ | ⟨-, cmd, -, -, ha⟩
    · rw [he]; rfl
    · rw [ha]; rfl
  case inr.inr.inl => rw [writeStatus_eq]; rfl
  all_goals rfl

/-- What a bus write leaves, field by field. -/
theorem writeFrame_fields {s t : State} (h : WriteFrame s t) :
    t.lanes = s.lanes ∧ t.fs = s.fs ∧ t.maxBlk = s.maxBlk ∧ t.prepared = s.prepared ∧ t.nanDraws = s.nanDraws ∧
      t.inbox = s.inbox := by
  unfold WriteFrame at h
  rw [h]
  exact ⟨rfl, rfl, rfl, rfl, rfl, rfl⟩

/-- What a read leaves, field by field (20_memory.md R64). -/
theorem readFrame_fields {s t : State} (h : t = { s with readData := t.readData, readDraws := t.readDraws }) :
    t.lanes = s.lanes ∧ t.fs = s.fs ∧ t.maxBlk = s.maxBlk ∧ t.prepared = s.prepared ∧ t.nanDraws = s.nanDraws ∧
      t.inbox = s.inbox := by
  rw [h]
  exact ⟨rfl, rfl, rfl, rfl, rfl, rfl⟩

/-- The registers that neither a read nor an internal operation writes. -/
structure SameRegisters (s t : State) : Prop where
  busy : t.busy = s.busy
  prepared : t.prepared = s.prepared
  err : t.err = s.err
  errCause : t.errCause = s.errCause
  fs : t.fs = s.fs
  maxBlk : t.maxBlk = s.maxBlk
  param : t.param = s.param
  snap : t.snap = s.snap
  pending : t.pending = s.pending

theorem SameRegisters.refl (s : State) : SameRegisters s s := ⟨rfl, rfl, rfl, rfl, rfl, rfl, rfl, rfl, rfl⟩

/-- A read writes no register (20_memory.md R64). -/
theorem SameRegisters.of_read {s t : State}
    (h : t = { s with readData := t.readData, readDraws := t.readDraws }) : SameRegisters s t := by
  rw [h]
  exact ⟨rfl, rfl, rfl, rfl, rfl, rfl, rfl, rfl, rfl⟩

/-- An internal operation on its own writes none of these registers. -/
theorem SameRegisters.of_micro {s t : State} (h : MicroFrame s t) : SameRegisters s t := by
  unfold MicroFrame at h
  rw [h]
  exact ⟨rfl, rfl, rfl, rfl, rfl, rfl, rfl, rfl, rfl⟩

/-- What a completion leaves besides the fields of `completionFrame_fields`. -/
theorem completionFrame_registers {s t : State} (h : CompletionFrame s t) :
    t.param = s.param ∧ t.snap = s.snap ∧ t.done = true := by
  unfold CompletionFrame at h
  rw [h]
  exact ⟨rfl, rfl, rfl⟩

/-- Every instruction that goes on writes no register, is a bus write, or completes the command in flight. -/
theorem exec_registers {i : Instr} {s t : State} (h : exec i s = .next t) :
    SameRegisters s t ∨
    (∃ a v, i = .memWrite a 4 v ∧ a.toNat % 4 = 0 ∧ t = s.writeTarget v (target a.toNat)) ∨
    ∃ (cmd : Command) (p : Pending), i = cmd.toInstr ∧ s.pending = some p ∧ exec cmd.toInstr s = .next t := by
  rcases exec_cases h with
    ⟨a, -, hr⟩ | ⟨a, v, hi, ha, -, ht⟩ | ⟨-, -, rfl⟩ | ⟨cmd, p, hi, hp, he⟩ | ⟨hm, -, -⟩
  · exact .inl (.of_read hr)
  · exact .inr (.inl ⟨a, v, hi, ha, ht⟩)
  · exact .inl (.refl t)
  · exact .inr (.inr ⟨cmd, p, hi, hp, he⟩)
  · exact .inl (.of_micro hm)

/-- A word is the constant its number is. -/
theorem eq_ofNat_of_toNat {a : Word} {n : Nat} (h : a.toNat = n) : a = BitVec.ofNat 32 n := by
  rw [← h, BitVec.ofNat_toNat, BitVec.setWidth_eq]

/-! ### The rate and the block size -/

/-- Only a PREPARE completes with another rate, block size or `PREPARED` (43_stereo_processor.md R200 to R203). -/
theorem command_rate {cmd : Command} {s t : State} {p : Pending} (hp : s.pending = some p)
    (he : exec cmd.toInstr s = .next t) (hn : ∀ len, cmd ≠ .prepare len) :
    t.fs = s.fs ∧ t.maxBlk = s.maxBlk ∧ t.prepared = s.prepared := by
  rcases (execCommand_pending hp he).2 with ⟨-, rfl⟩ | ⟨-, rfl⟩ | ⟨len, rfl, -⟩ | ⟨len, u, -, hu, rfl⟩
  · simp only [State.complete_fs, State.complete_maxBlk, State.complete_prepared, and_self]
  · obtain ⟨hfs, hblk, hprep, -⟩ := rate_mem_of_onlyLanes (chainsReset_onlyLanes s)
    simp only [State.complete_fs, State.complete_maxBlk, State.complete_prepared, hfs, hblk, hprep, and_self]
  · exact absurd rfl (hn len)
  · obtain ⟨hfs, hblk, hprep, -⟩ := rate_mem_of_onlyLanes (update_onlyLanes s)
    obtain ⟨hfs', hblk', hprep'⟩ := blockProcess_rate hu
    simp only [State.complete_fs, State.complete_maxBlk, State.complete_prepared, hfs', hblk', hprep', hfs, hblk, hprep,
      and_self]

/-- Settles O15: of the instructions, only bus writes and completions write registers; those write these fields in a
PREPARE only. -/
theorem onlyPrepareSetsRateAndBlockSize : Obligations.OnlyPrepareSetsRateAndBlockSize := by
  intro i s t h hn
  rcases exec_registers h with hs | ⟨a, v, -, -, rfl⟩ | ⟨cmd, p, rfl, hp, he⟩
  · exact ⟨hs.fs, hs.maxBlk, hs.prepared⟩
  · obtain ⟨-, hfs, hblk, hprep, -, -⟩ := writeFrame_fields (writeTarget_frame s v (target a.toNat))
    exact ⟨hfs, hblk, hprep⟩
  · exact command_rate hp he fun len e => hn len (e ▸ rfl)

/-! ### `BUSY` and the pending command -/

/-- A bus write moves `BUSY` or the pending command only by an acceptance at `CMD` (43_stereo_processor.md R180). -/
theorem writeTarget_busy_pending (s : State) (v : Word) (x : Target) :
    ((s.writeTarget v x).busy = s.busy ∧ (s.writeTarget v x).pending = s.pending) ∨
    (x = .cmd ∧ s.busy = false ∧ (s.writeTarget v x).busy = true ∧ (s.writeTarget v x).pending.isSome = true) := by
  rcases writeTarget_cases s v x with
    e | ⟨hx, e⟩ | ⟨-, e⟩ | ⟨-, e⟩ | ⟨i, -, e⟩ | ⟨c, i, -, -, -, e⟩ | ⟨c, i, -, -, -, e⟩ <;> rw [e]
  case inr.inl =>
    rcases present_cases s v with ⟨e, -, he⟩ | ⟨hb, cmd, -, -, ha⟩
    · exact .inl (he ▸ ⟨rfl, rfl⟩)
    · exact .inr ⟨hx, hb, ha ▸ ⟨rfl, rfl⟩⟩
  case inr.inr.inl => exact .inl (writeStatus_eq s v ▸ ⟨rfl, rfl⟩)
  all_goals exact .inl ⟨rfl, rfl⟩

/-- Settles O16: a bus write moves them by acceptance, a completion ends the command in flight. -/
theorem onlyAcceptanceAndCompletionMoveBusy : Obligations.OnlyAcceptanceAndCompletionMoveBusy := by
  intro i s t h hmoved
  rcases exec_registers h with hs | ⟨a, v, rfl, -, rfl⟩ | ⟨cmd, p, rfl, hp, he⟩
  · exact absurd hmoved (by simp [hs.busy, hs.pending])
  · rcases writeTarget_busy_pending s v (target a.toNat) with ⟨hb, hp⟩ | ⟨hx, hb, hb', hp⟩
    · exact absurd hmoved (by simp [hb, hp])
    · obtain rfl : a = 0x008#32 := eq_ofNat_of_toNat (target_eq_cmd.mp hx)
      exact .inl ⟨hb, hb', hp, v, rfl⟩
  · obtain ⟨hf, -⟩ := execCommand_pending hp he
    obtain ⟨hbusy, hpending, -⟩ := completionFrame_fields hf
    obtain ⟨-, -, hdone⟩ := completionFrame_registers hf
    exact .inr ⟨hp ▸ rfl, hbusy, hdone, hpending, cmd, rfl⟩

/-! ### The error latch -/

/-- A bus write leaves the error latch, reports a cause at `CMD` or at a sample, or is a write of `STATUS`
(60_exceptions.md R222, R224). -/
theorem writeTarget_err (s : State) (v : Word) (x : Target) :
    ((s.writeTarget v x).err = s.err ∧ (s.writeTarget v x).errCause = s.errCause) ∨
    ((x = .cmd ∨ ∃ c i, x = .sample c i) ∧ ∃ e, e ≠ .none ∧ s.writeTarget v x = s.report e) ∨
    (x = .status ∧ s.writeTarget v x = s.writeStatus v) := by
  rcases writeTarget_cases s v x with
    e | ⟨hx, e⟩ | ⟨hx, e⟩ | ⟨-, e⟩ | ⟨i, -, e⟩ | ⟨c, i, hx, -, -, e⟩ | ⟨c, i, -, -, -, e⟩ <;> rw [e]
  case inr.inl =>
    rcases present_cases s v with ⟨e, hne, he⟩ | ⟨-, cmd, -, -, ha⟩
    · exact .inr (.inl ⟨.inl hx, e, hne, he⟩)
    · exact .inl (ha ▸ ⟨rfl, rfl⟩)
  case inr.inr.inl => exact .inr (.inr ⟨hx, rfl⟩)
  case inr.inr.inr.inr.inr.inl => exact .inr (.inl ⟨.inr ⟨c, i, hx⟩, .accessBusy, nofun, rfl⟩)
  all_goals exact .inl ⟨rfl, rfl⟩

/-- What an instruction that goes on can do to the error latch: nothing, the report of a cause at `CMD` or at a sample,
or a write of `STATUS`. -/
theorem exec_err {i : Instr} {s t : State} (h : exec i s = .next t) :
    (t.err = s.err ∧ t.errCause = s.errCause) ∨
    (∃ e, e ≠ .none ∧ t = s.report e ∧ ∃ a v, i = .memWrite a 4 v ∧ (a = 0x008#32 ∨ 0x10000 ≤ a.toNat)) ∨
    ∃ v, i = .memWrite 0x00C#32 4 v ∧ t = s.writeStatus v := by
  rcases exec_registers h with hs | ⟨a, v, rfl, -, rfl⟩ | ⟨cmd, p, rfl, hp, he⟩
  · exact .inl ⟨hs.err, hs.errCause⟩
  · rcases writeTarget_err s v (target a.toNat) with hsame | ⟨hx, e, hne, he⟩ | ⟨hx, he⟩
    · exact .inl hsame
    · refine .inr (.inl ⟨e, hne, he, a, v, rfl, ?_⟩)
      rcases hx with hx | ⟨c, i, hx⟩
      · exact .inl (eq_ofNat_of_toNat (target_eq_cmd.mp hx))
      · exact .inr (not_lt.mp fun hlow => target_low_ne_sample hlow c i hx)
    · obtain rfl : a = 0x00C#32 := eq_ofNat_of_toNat (target_eq_status.mp hx)
      exact .inr (.inr ⟨v, rfl, he⟩)
  · obtain ⟨-, -, herr, hcause, -⟩ := completionFrame_fields (execCommand_pending hp he).1
    exact .inl ⟨herr, hcause⟩

/-- Settles O10: `exec_err` for a latch that is clear and for one that is set. -/
theorem theFirstCauseIsKeptAndNothingElseIsWritten : Obligations.TheFirstCauseIsKeptAndNothingElseIsWritten := by
  refine fun i s t h => ⟨fun hs ht => ?raised, fun hs hack => ?kept⟩
  case raised =>
    rcases exec_err h with ⟨herr, -⟩ | ⟨e, hne, rfl, hi⟩ | ⟨v, -, rfl⟩
    · rw [herr, hs] at ht
      cases ht
    · rw [report_of_no_error hs]
      exact ⟨hne, rfl, hi⟩
    · simp [writeStatus_eq, hs] at ht
  case kept =>
    rcases exec_err h with ⟨herr, hcause⟩ | ⟨e, -, rfl, -⟩ | ⟨v, hi, rfl⟩
    · exact ⟨herr.trans hs, hcause⟩
    · exact ⟨rfl, if_pos hs⟩
    · rw [writeStatus_eq, hack v hi, hs]
      exact ⟨rfl, rfl⟩

/-! ### The parameters and their snapshot -/

/-- The offset of a parameter register. -/
theorem toNat_paramOffset (k : Fin 7) : (BitVec.ofNat 32 (0x040 + 4 * k.val)).toNat = 0x040 + 4 * k.val := by
  rw [BitVec.toNat_ofNat, Nat.mod_eq_of_lt (by omega)]

/-- A write of a parameter register stores the pattern (10_state.md R29). -/
theorem exec_writeParam (k : Fin 7) (v : F32) (s : State) :
    exec (.memWrite (BitVec.ofNat 32 (0x040 + 4 * k.val)) 4 v) s = .next { s with param := s.param.set k v } := by
  have hoff := toNat_paramOffset k
  rw [exec_memWrite (by omega) (by unfold windowSize; omega), hoff, target_param]
  rfl

/-- A read of a parameter register returns the pattern (10_state.md R29). -/
theorem exec_readParam (k : Fin 7) (s : State) :
    exec (.memRead (BitVec.ofNat 32 (0x040 + 4 * k.val)) 4) s = .next { s with readData := some s.param[k] } := by
  have hoff := toNat_paramOffset k
  rw [exec_memRead (by omega) (by unfold windowSize; omega), hoff, target_param]
  rfl

/-- Acceptance leaves the snapshot or copies all parameters (43_stereo_processor.md R180). -/
theorem snapAfter_eq (s : State) (cmd : Command) : s.snapAfter cmd = s.snap ∨ s.snapAfter cmd = s.param := by
  cases cmd with
  | nop | reset | prepare => exact .inl rfl
  | updateAndProcess => exact .inr rfl

/-- A bus write changes a parameter at its own register only, and the snapshot at `CMD` only, to the parameters. -/
theorem writeTarget_param_snap (s : State) (v : Word) (x : Target) :
    ((s.writeTarget v x).param = s.param ∨ ∃ k, x = .param k) ∧
    ((s.writeTarget v x).snap = s.snap ∨ (x = .cmd ∧ (s.writeTarget v x).snap = s.param)) := by
  rcases writeTarget_cases s v x with
    e | ⟨hx, e⟩ | ⟨-, e⟩ | ⟨-, e⟩ | ⟨k, hx, e⟩ | ⟨c, i, -, -, -, e⟩ | ⟨c, i, -, -, -, e⟩ <;> rw [e]
  case inr.inl =>
    rcases present_cases s v with ⟨e, -, he⟩ | ⟨-, cmd, -, -, ha⟩
    · exact he ▸ ⟨.inl rfl, .inl rfl⟩
    · exact ha ▸ ⟨.inl rfl, (snapAfter_eq s cmd).imp_right fun hs => ⟨hx, hs⟩⟩
  case inr.inr.inl => exact writeStatus_eq s v ▸ ⟨.inl rfl, .inl rfl⟩
  case inr.inr.inr.inr.inl => exact ⟨.inr ⟨k, hx⟩, .inl rfl⟩
  all_goals exact ⟨.inl rfl, .inl rfl⟩

/-- Only a write of a parameter register changes a parameter (10_state.md R29). -/
theorem exec_param {i : Instr} {s t : State} (h : exec i s = .next t) (hne : t.param ≠ s.param) :
    ∃ (k : Fin 7) (v : F32), i = .memWrite (BitVec.ofNat 32 (0x040 + 4 * k.val)) 4 v := by
  rcases exec_registers h with hs | ⟨a, v, rfl, ha, rfl⟩ | ⟨cmd, p, -, hp, he⟩
  · exact absurd hs.param hne
  · rcases (writeTarget_param_snap s v (target a.toNat)).1 with hsame | ⟨k, hk⟩
    · exact absurd hsame hne
    · exact ⟨k, v, eq_ofNat_of_toNat (target_eq_param hk ha) ▸ rfl⟩
  · exact absurd (completionFrame_registers (execCommand_pending hp he).1).1 hne

/-- Only a write of `CMD` changes the snapshot, to the parameters (10_state.md section 6). -/
theorem exec_snap {i : Instr} {s t : State} (h : exec i s = .next t) (hne : t.snap ≠ s.snap) :
    (∃ w, i = .memWrite 0x008#32 4 w) ∧ t.snap = s.param := by
  rcases exec_registers h with hs | ⟨a, v, rfl, -, rfl⟩ | ⟨cmd, p, -, hp, he⟩
  · exact absurd hs.snap hne
  · rcases (writeTarget_param_snap s v (target a.toNat)).2 with hsame | ⟨hx, hsnap⟩
    · exact absurd hsame hne
    · exact ⟨⟨v, eq_ofNat_of_toNat (target_eq_cmd.mp hx) ▸ rfl⟩, hsnap⟩
  · exact absurd (completionFrame_registers (execCommand_pending hp he).1).2.1 hne

/-- Settles O14: the two accesses by the address map, the two changes by what a bus write can change. -/
theorem parameterRegisters : Obligations.ParameterRegisters :=
  ⟨rfl, fun s => ⟨fun k v => ⟨exec_writeParam k v s, exec_readParam k s⟩, fun _ _ => exec_param, fun _ _ => exec_snap⟩⟩

end Sys2Proof
end

section
/-! Proofs of the statements about what bus accesses return and write (20_memory.md sections 1 to 3, 10_state.md sections 2
and 4). -/
namespace Sys2Proof

open Machine

/-! ### Reads -/

/-- A read as executed, where it goes on. -/
theorem exec_memRead_next {a : Word} {n : Nat} {s t : State} (h : exec (.memRead a n) s = .next t) :
    a.toNat % 4 = 0 ∧ s.readTarget (target a.toNat) = .next t := by
  obtain ⟨-, ha, -, hr⟩ := accessing_next (show accessing a n s.readTarget = .next t from h)
  exact ⟨ha, hr⟩

/-- An idle read takes no arbitrary word (20_memory.md R66). -/
theorem readTarget_idle_draws {s t : State} {x : Target} (hb : s.busy = false) (h : s.readTarget x = .next t) :
    t.readDraws = s.readDraws := by
  cases x with
  | stageView c j w => rw [readTarget_stageView hb] at h; cases h; rfl
  | viewGap => rw [readTarget_viewGap hb] at h; cases h; rfl
  | sample c i =>
    rcases Nat.lt_or_ge i Config.bufLen with hi | hi
    · rw [readTarget_sample hb hi] at h
      split at h
      · cases h; rfl
      · cases h
    · rw [readTarget_sample_beyond hi] at h; cases h; rfl
  | _ => cases h; rfl

/-- Settles O24: `readTarget_frame`, and an idle read takes no draw. -/
theorem readsHaveNoSideEffect : Obligations.ReadsHaveNoSideEffect := by
  intro s t a n h
  obtain ⟨-, hr⟩ := exec_memRead_next h
  exact ⟨readTarget_frame hr, fun hb => readTarget_idle_draws hb hr⟩

/-- Settles O12: the address map puts each register at its offset; `STATUS` by its four flags, `ERRCAUSE` by its
causes. -/
theorem controlRegisterReads : Obligations.ControlRegisterReads := by
  intro s reads
  have hreads : ∀ {off w : Word}, off.toNat % 4 = 0 → off.toNat < windowSize →
      s.readTarget (target off.toNat) = s.returns w → reads off w :=
    fun ha hw h => (exec_memRead ha hw s).trans h
  have hstatus : s.statusWord =
      BitVec.ofNat 32 (s.busy.toNat + 2 * s.prepared.toNat + 4 * s.done.toNat + 8 * s.err.toNat) := by
    unfold State.statusWord
    cases s.busy <;> cases s.prepared <;> cases s.done <;> cases s.err <;> rfl
  refine ⟨hreads (by decide) (by decide) rfl, hreads (by decide) (by decide) rfl, hreads (by decide) (by decide) rfl,
    hreads (by decide) (by decide) (congrArg s.returns hstatus), fun e he hcause => ?cause,
    hreads (by decide) (by decide) rfl, hreads (by decide) (by decide) rfl, hreads (by decide) (by decide) rfl⟩
  case cause =>
    have hword : s.errCauseWord = BitVec.ofNat 32 e.2 := by
      unfold State.errCauseWord
      rw [hcause]
      simp only [List.mem_cons, List.not_mem_nil, or_false] at he
      rcases he with rfl | rfl | rfl | rfl | rfl | rfl | rfl | rfl <;> rfl
    exact hreads (by decide) (by decide) (congrArg s.returns hword)

/-! ### Which accesses complete -/

/-- A read of the window returns a word unless it is an idle read of a sample word without a value. -/
theorem readTarget_completes {s : State} {x : Target}
    (h : ∀ c i, x = .sample c i → i < Config.bufLen → s.busy = true ∨ (s.bufRead c i).isSome = true) :
    ∃ t w, s.readTarget x = .next t ∧ t.readData = some w := by
  cases x with
  | stageView | viewGap => simp only [State.readTarget]; split <;> exact ⟨_, _, rfl, rfl⟩
  | sample c i =>
    rcases Nat.lt_or_ge i Config.bufLen with hi | hi
    · cases hb : s.busy with
      | true => exact ⟨_, _, readTarget_sample_busy hb hi, rfl⟩
      | false =>
        obtain ⟨w, hw⟩ : ∃ w, s.bufRead c i = some w := by
          simpa [hb, Option.isSome_iff_exists] using h c i rfl hi
        exact ⟨{ s with readData := some w }, w, by rw [readTarget_sample hb hi, hw], rfl⟩
    · exact ⟨_, _, readTarget_sample_beyond hi s c, rfl⟩
  | _ => exact ⟨_, _, rfl, rfl⟩

/-- An aligned access beyond the window faults (20_memory.md R60, log 15). -/
theorem accessing_outside {a : Word} (ha : a.toNat % 4 = 0) (hw : windowSize ≤ a.toNat) (go : Target → Result) :
    accessing a 4 go = .fault (.outsideWindow a.toNat) := by
  unfold accessing
  rw [checkAccess_eq_none.mpr ⟨rfl, ha⟩]
  exact if_neg (not_lt.mpr hw)

/-- Settles O23: a write of the window always goes on, a read by what stands at its offset. -/
theorem alignedAccessesComplete : Obligations.AlignedAccessesComplete := by
  refine fun s a ha => ⟨fun hw v => ⟨_, exec_memWrite ha hw v s⟩, fun hw hval => ?read, fun hw =>
    ⟨accessing_outside ha hw s.readTarget, fun v => accessing_outside ha hw fun x => .next (s.writeTarget v x)⟩⟩
  case read =>
    rw [exec_memRead ha hw]
    exact readTarget_completes fun c i hx hi => hval c i hi (target_eq_sample hx ha).1

/-! ### What an access writes -/

/-- A bus write changes a byte of the buffer only on an idle block, and only of the sample word it writes
(20_memory.md R66). -/
theorem writeTarget_byte {s : State} {v : Word} {x : Target} {b : Nat}
    (h : (s.writeTarget v x).mem.readByte b ≠ s.mem.readByte b) :
    s.busy = false ∧ ∃ c i, x = .sample c i ∧ bufOffset c i ≤ b ∧ b < bufOffset c i + 4 := by
  rcases writeTarget_cases s v x with
    e | ⟨-, e⟩ | ⟨-, e⟩ | ⟨-, e⟩ | ⟨k, -, e⟩ | ⟨c, i, -, -, -, e⟩ | ⟨c, i, hx, -, hb, e⟩ <;> rw [e] at h
  case inr.inl =>
    rcases present_cases s v with ⟨e, -, he⟩ | ⟨-, cmd, -, -, ha⟩
    · rw [he] at h; exact absurd rfl h
    · rw [ha] at h; exact absurd rfl h
  case inr.inr.inl => rw [writeStatus_eq] at h; exact absurd rfl h
  case inr.inr.inr.inr.inr.inr =>
    refine ⟨hb, c, i, hx, ?_⟩
    by_contra hout
    exact h (Memory.readByte_writeWord_outside s.mem _ v b (by omega))
  all_goals exact absurd rfl h

/-- A sample stands in the buffer's part of the window. -/
theorem bufOffset_ge (c : Lane) (i : Nat) : 0x10000 ≤ bufOffset c i := by
  unfold bufOffset
  omega

/-- Settles O17: the frames of a read and of a bus write, and `writeTarget_byte`. -/
theorem hostAccessesWriteNoStage : Obligations.HostAccessesWriteNoStage := by
  intro i s t ha h
  rcases ha with ⟨a, n, rfl⟩ | ⟨a, n, v, rfl⟩
  · obtain ⟨-, hr⟩ := exec_memRead_next h
    have hframe := readTarget_frame hr
    obtain ⟨hl, hfs, hblk, hprep, hdraws, hinbox⟩ := readFrame_fields hframe
    refine ⟨hl, hfs, hblk, hprep, hdraws, hinbox, fun b hne => absurd ?_ hne⟩
    rw [hframe]
  · obtain ⟨rfl, haligned, -, hw⟩ :=
      accessing_next (show accessing a n (fun x => .next (s.writeTarget v x)) = .next t from h)
    obtain rfl := Host.Outcome.next.inj hw
    obtain ⟨hl, hfs, hblk, hprep, hdraws, hinbox⟩ := writeFrame_fields (writeTarget_frame s v (target a.toNat))
    refine ⟨hl, hfs, hblk, hprep, hdraws, hinbox, fun b hne => ?_⟩
    obtain ⟨hb, c, i, hx, hlo, hhi⟩ := writeTarget_byte hne
    rw [← (target_eq_sample hx haligned).1] at hlo hhi
    exact ⟨hb, a, v, rfl, (target_eq_sample hx haligned).1 ▸ bufOffset_ge c i, hlo, hhi⟩

/-! ### The stage view -/

/-- The flag word as a number (10_state.md R32). -/
theorem bit_eq_ofNat (b : Bool) : bit b = BitVec.ofNat 32 b.toNat := by
  cases b
  · rfl
  · rfl

/-- The word of a stage at each place of the view (10_state.md R32). -/
theorem viewWord_eq (st : Stage) (w : Fin 8) :
    st.viewWord w = #v[st.coeffs.b0, st.coeffs.b1, st.coeffs.b2, st.coeffs.a1, st.coeffs.a2, st.s1, st.s2,
      BitVec.ofNat 32 st.bypass.toNat][w] := by
  rw [← bit_eq_ofNat]
  fin_cases w <;> rfl

/-- Past the nine stages of a lane there is only the gap (10_state.md R32). -/
theorem viewTarget_gap {d : Nat} (h : 0x120 ≤ d) (c : Lane) : viewTarget c d = .viewGap :=
  dif_neg (by omega)

/-- The gaps of the view, in the address map. -/
theorem target_viewGap {off : Nat} (h : (0x220 ≤ off ∧ off < 0x300) ∨ (0x420 ≤ off ∧ off < 0x500)) :
    target off = .viewGap := by
  unfold target
  rw [if_neg (by omega), if_neg (by omega)]
  rcases h with ⟨hlo, hhi⟩ | ⟨hlo, hhi⟩
  · rw [if_pos hhi, viewTarget_gap (by omega)]
  · rw [if_neg (by omega), if_pos hhi, viewTarget_gap (by omega)]

/-- Settles O18: `target_stageView` and `target_viewGap` idle, `target_view` busy and written. -/
theorem stageView : Obligations.StageView := by
  refine fun s => ⟨fun c j w => ?word, fun off ha hlo hhi => ?region⟩
  case word =>
    intro off st word hb
    have hoff : off.toNat = 0x100 + 0x200 * c.val + 0x20 * j.val + 4 * w.val := by
      rw [BitVec.toNat_ofNat, Nat.mod_eq_of_lt (by omega)]
      omega
    rw [exec_memRead (by omega) (by unfold windowSize; omega), hoff, target_stageView, readTarget_stageView hb,
      viewWord_eq]
  case region =>
    have hw : off.toNat < windowSize := by unfold windowSize; omega
    refine ⟨fun v => exec_memWrite_view ha hlo hhi v s, fun hb => ⟨Config.busyWord s.readDraws, ?_⟩, fun hb hgap => ?_⟩
    · rw [exec_memRead ha hw, readTarget_view_busy hb (target_view hlo hhi)]
    · rw [exec_memRead ha hw, target_viewGap (by omega), readTarget_viewGap hb]

/-! ### The sample buffer -/

/-- Byte `k` of a word after it is written. -/
theorem readByte_writeWord_lane (m : Memory) (a : Nat) (v : Word) {k : Nat} (hk : k < 4) :
    (m.writeWord a v).readByte (a + k) = some (v.extractLsb' (8 * k) 8) := by
  rw [Memory.readByte_writeWord]
  interval_cases k <;> simp [byteLane]

/-- Settles O19: a sample's offset holds that sample; what it does then is the model's for an idle and for a busy
block. -/
theorem sampleBufferAccess : Obligations.SampleBufferAccess := by
  intro s c i hi off
  have hlen := bufLen_bounds
  obtain ⟨hoff, ha, hw⟩ := bufOffset_word c (show i < 16384 by omega)
  have ht : target off.toNat = .sample c i := hoff ▸ target_sample c (by omega)
  rw [← hoff] at ha hw
  have hwrite : ∀ v, exec (.memWrite off 4 v) s = .next (s.writeTarget v (.sample c i)) :=
    fun v => ht ▸ exec_memWrite ha hw v s
  have hread : exec (.memRead off 4) s = s.readTarget (.sample c i) := ht ▸ exec_memRead ha hw s
  refine ⟨fun hb v => ⟨s.bufWrite c i v, ?write, rfl, ?same, fun k hk => ?bytes, fun a hout => ?other⟩,
    fun hb v hv => ?value, fun hb hv => ?noValue, fun hb v => ?busyWrite,
    fun hb => ⟨_, hread.trans (readTarget_sample_busy hb hi)⟩, fun v => ?fsArg, fun k v => exec_writeParam k v s⟩
  case write => rw [hwrite, writeTarget_sample hb v hi]
  case same => rw [State.bufRead, if_pos hi]; exact Memory.readWord_writeWord_same s.mem _ v
  case bytes => exact readByte_writeWord_lane s.mem _ v hk
  case other => exact Memory.readByte_writeWord_outside s.mem _ v a hout
  case value => rw [hread, readTarget_sample hb hi, hv]
  case noValue => rw [hread, readTarget_sample hb hi, hv]
  case busyWrite => rw [hwrite, writeTarget_sample_busy hb v hi]; rfl
  case fsArg => exact (sampleRateArgumentRegister.2 s v).1

end Sys2Proof
end

section
/-! Proofs of the statements about the host commands (43_stereo_processor.md sections 1 and 3): the chain reset and PREPARE
(R201, R251), UPDATE_AND_PROCESS (R203), the completion of what was accepted (R182) and its atomicity (R183). -/
namespace Sys2Proof

open Machine

/-! ### The chain reset and PREPARE -/

/-- The chain reset leaves the register file of power-on (70_reset_and_hazards.md R251). -/
theorem chainsReset_lanes (s : State) : (chainsReset s).lanes = State.reset.lanes :=
  State.lanes_ext fun c j => (chainsReset_stage s c j).trans (reset_stage c j).symm

/-- Settles O51: the chain reset stage by stage. -/
theorem chainsResetClearsBothLanes : Obligations.ChainsResetClearsBothLanes :=
  fun s => ⟨_, exec_chainsReset s, chainsReset_onlyLanes s, chainsReset_stage s, chainsReset_lanes s⟩

/-- What a PREPARE leaves (R201). -/
theorem prepareEffect_complete (s : State) (len : BitVec 16) (f : F32) :
    (s.prepareEffect len f).complete = { s with
      lanes := (chainsReset s).lanes
      fs := f
      maxBlk := BitVec.ofNat 32 len.toNat
      prepared := true
      busy := false
      done := true
      pending := none } := by
  have h : OnlyLanes s (chainsReset s) := chainsReset_onlyLanes s
  unfold OnlyLanes at h
  unfold State.prepareEffect
  rw [BitVec.ofNat_toNat, h]
  rfl

/-- Settles O53: the effect of a PREPARE writes the stages of the chain reset and its own three fields. -/
theorem prepareSetsRateSizeAndResetsBothLanes : Obligations.PrepareSetsRateSizeAndResetsBothLanes :=
  fun s p len hp => ⟨_, exec_chainsReset s,
    (execPrepare_pending hp len).trans (congrArg _ (prepareEffect_complete s len p.fsLatched))⟩

/-! ### UPDATE_AND_PROCESS -/

/-- `BLOCK_PROCESS` as executed where it goes on (R187). -/
theorem exec_blockProcess_ok {n : BitVec 16} {s t : State} (h : blockProcess n.toNat s = .ok t) :
    exec (.blockProcess n) s = .next t := by
  simp only [exec, execBlockProcess, h]

/-- A block that goes on, as executed, is the block (R187). -/
theorem blockProcess_of_exec {n : BitVec 16} {s t : State} (h : exec (.blockProcess n) s = .next t) :
    blockProcess n.toNat s = .ok t := by
  simp only [exec, execBlockProcess] at h
  split at h
  · rename_i u hu
    rw [hu, Host.Outcome.next.inj h]
  · cases h

/-- A block whose words all hold a value completes (R187). -/
theorem blockProcess_of_written {n : Nat} {s : State} (h : ∀ c i, i < n → (s.bufRead c i).isSome = true) :
    ∃ t, blockProcess n s = .ok t :=
  blockProcess_completes fun c i hi => Option.isSome_iff_exists.mp (h c i hi)

/-- After the update, which writes no sample, the block still completes (R203). -/
theorem blockProcess_update_of_written {n : Nat} {s : State} (h : ∀ c i, i < n → (s.bufRead c i).isSome = true) :
    ∃ t, blockProcess n (update s) = .ok t :=
  blockProcess_of_written fun c i hi => by rw [bufRead_of_mem (update_mem s)]; exact h c i hi

/-- Settles O55: a block of length 0 leaves the updated state as it is. -/
theorem updateAndProcessUpdatesThenProcesses : Obligations.UpdateAndProcessUpdatesThenProcesses := by
  intro s p len hp hw
  obtain ⟨v, hv⟩ := blockProcess_update_of_written hw
  refine ⟨update s, v, exec_update s, fun h0 => ?empty, fun _ => exec_blockProcess_ok hv, ?command⟩
  case empty =>
    subst h0
    cases hv
    rfl
  case command =>
    refine (execUpdateAndProcess_pending hp len).trans ?_
    rw [hv]
    rfl

/-! ### Every accepted command completes -/

/-- The command in flight completes in one step of the engine, where the words of its block hold values (R181, R182). -/
theorem PendingLegal.completes {s : State} {p : Pending} (h : PendingLegal s p) (hp : s.pending = some p)
    (hw : p.opc = 0x03#8 → ∀ c i, i < p.len.toNat → (s.bufRead c i).isSome = true) :
    ∃ i t, decode (.cmd (commandWord p.opc p.len)) = .ok i ∧ exec i s = .next t ∧
      t.pending = none ∧ t.busy = false ∧ t.done = true := by
  obtain ⟨cmd, hm, -, -⟩ := h
  have hnext : ∃ t, exec cmd.toInstr s = .next t := by
    cases cmd with
    | nop => exact ⟨_, execNop_pending hp⟩
    | prepare len => exact ⟨_, execPrepare_pending hp len⟩
    | reset => exact ⟨_, execReset_pending hp⟩
    | updateAndProcess len =>
      have hopc : p.opc = 0x03#8 := (opcField_commandWord p.opc p.len).symm.trans (opcField_of_matchRow hm)
      obtain rfl : len = p.len := (matchRow_eq_some_iff.mp hm).2.trans (lenField_commandWord p.opc p.len)
      obtain ⟨u, hu⟩ := blockProcess_update_of_written (hw hopc)
      exact ⟨u.complete, (execUpdateAndProcess_pending hp p.len).trans (by rw [hu])⟩
  obtain ⟨t, ht⟩ := hnext
  obtain ⟨hf, -⟩ := execCommand_pending hp ht
  obtain ⟨hbusy, hpending, -⟩ := completionFrame_fields hf
  exact ⟨cmd.toInstr, t, decode_cmd hm, ht, hpending, hbusy, (completionFrame_registers hf).2.2⟩

/-- A request of the host for one aligned word of the window. -/
def AlignedAccess (r : Request) : Prop :=
  ∃ a v, a.toNat % 4 = 0 ∧ a.toNat < 0x40000 ∧ (r = .host [0#32, a, 4#32] ∨ r = .host [1#32, a, 4#32, v])

/-- During a command such a request is taken off the list and leaves what the command's effect depends on (R183). -/
theorem step_alignedAccess {s : State} {r : Request} {rest : List Request} (hr : s.inbox = r :: rest)
    (h : AlignedAccess r) (hb : s.busy = true) : ∃ t, step s = .next t ∧ t.inbox = rest ∧ Eff s t := by
  obtain ⟨a, v, ha, hw, h⟩ := h
  have hform : checkAccess a 4 = none := checkAccess_eq_none.mpr ⟨rfl, ha⟩
  obtain ⟨hread, hwrite⟩ := access_busy (s := { s with inbox := rest }) hb ha hw
  have hpop : Eff s { s with inbox := rest } := ⟨rfl, rfl, rfl, rfl, rfl, rfl, rfl, rfl, rfl⟩
  rcases h with rfl | rfl
  · obtain ⟨t, ht, hin⟩ := hread
    exact ⟨t, (step_of_packet (fetch_host hr) (Laws.RoundTrip.memRead a 4 hform)).trans ht, hin,
      hpop.trans (Eff.access hb (.inl ⟨a, 4, rfl⟩) ht)⟩
  · obtain ⟨t, ht, hin⟩ := hwrite v
    exact ⟨t, (step_of_packet (fetch_host hr) (Laws.RoundTrip.memWrite a 4 v hform)).trans ht, hin,
      hpop.trans (Eff.access hb (.inr ⟨a, 4, v, rfl⟩) ht)⟩

/-- A step that ends in the wanted state is a run of one step. -/
theorem run_one {s t : State} (h : step s = .next t) : run 1 s = .next t := run_succ_next h 0

/-- Settles O59, by induction on the requests: the engine's turn completes the command, an access before it leaves the
command as it was. -/
theorem everyAcceptedCommandCompletes : Obligations.EveryAcceptedCommandCompletes := by
  intro s p h hp hreq hw
  generalize hl : s.inbox = l at hreq ⊢
  induction l generalizing s with
  | nil =>
    obtain ⟨i, t, hd, ht, hdone⟩ := (h.pending p hp).completes hp hw
    have hf := (fetch_nil hl).trans (engineTurn_pending hp)
    exact ⟨1, t, le_refl 1, run_one ((step_of_packet hf hd).trans ht), hdone⟩
  | cons r rest ih =>
    rcases hreq r List.mem_cons_self with rfl | ha
    · have hpop : PendingLegal { s with inbox := rest } p := (h.pop hl).pending p hp
      obtain ⟨i, t, hd, ht, hdone⟩ := hpop.completes hp hw
      have hf := (fetch_engine hl).trans (engineTurn_pending hp)
      exact ⟨1, t, by simp, run_one ((step_of_packet hf hd).trans ht), hdone⟩
    · obtain ⟨u, hu, hin, heff⟩ := step_alignedAccess hl ha (by rw [h.busy, hp]; rfl)
      obtain ⟨n, t, hn, ht, hdone⟩ := ih u (everyStepKeepsTheInvariant s u h hu) (heff.pending.trans hp)
        (fun ho c i hi => by rw [heff.bufRead]; exact hw ho c i hi) hin (fun r hr => hreq r (List.mem_cons_of_mem _ hr))
      exact ⟨n + 1, t, Nat.succ_le_succ hn, (run_succ_next hu n).trans ht, hdone⟩

/-! ### Atomicity -/

/-- Any number of bus accesses during a command leave what its effect depends on (R183). -/
theorem Eff.hostAccesses {s t : State} (h : HostAccesses s t) (hb : s.busy = true) : Eff s t := by
  induction h with
  | none s => exact .refl s
  | more access runs rest ih =>
    have heff := Eff.access hb access runs
    exact heff.trans (ih (heff.busy.trans hb))

/-- Settles O60: a command's effect is the same in two states that agree on what it depends on. -/
theorem hostAccessesCannotDisturbACommandInFlight : Obligations.HostAccessesCannotDisturbACommandInFlight := by
  intro s t p hb hp h
  have heff := Eff.hostAccesses h hb
  refine ⟨heff.busy.trans hb, heff.pending.trans hp, fun cmd u hu => ?_⟩
  obtain ⟨u', hu', he, hdone⟩ := heff.command hp hu
  exact ⟨u', hu', he.lanes, he.mem, he.fs, he.maxBlk, he.prepared, he.nanDraws, he.busy, hdone, he.pending⟩

end Sys2Proof
end

section
/-! Proofs of the statements about block processing (43_stereo_processor.md R187, R188, 70_reset_and_hazards.md R262): every
sample in place, and lanes that are isolated and causal. -/
namespace Sys2Proof

open Machine

/-! ### The states between the samples of a lane -/

/-- Two states with the same stages and draws: all that sample processing reads. -/
def SameFilter (s s' : State) : Prop := s.lanes = s'.lanes ∧ s.nanDraws = s'.nanDraws

/-- A lane gives the same output and leaves the same stages and draws. -/
theorem SameFilter.monoProcess {s s' : State} (h : SameFilter s s') (c : Lane) (x : F32) :
    (monoProcess c x s).1 = (monoProcess c x s').1 ∧ SameFilter (monoProcess c x s).2 (monoProcess c x s').2 := by
  have hstage : ∀ c j, s.stage c j = s'.stage c j := fun c j => by simp only [State.stage, h.1]
  obtain ⟨hy, hsame, hdraws⟩ := monoProcess_sameLane ⟨hstage c, h.2⟩ x
  refine ⟨hy, State.lanes_ext fun c' j => ?_, hdraws⟩
  by_cases hc : c' = c
  · subst hc
    exact hsame j
  · obtain ⟨-, -, hother⟩ := monoProcess_keepsShape c x s
    obtain ⟨-, -, hother'⟩ := monoProcess_keepsShape c x s'
    rw [hother c' j hc, hother' c' j hc, hstage]

/-- The state before sample `i` of lane `c`, where the samples of the lane are `input` and `s` is the state before the
first: what executing `MONO_PROCESS` on each leaves. -/
def laneRun (c : Lane) (input : Nat → F32) (s : State) : Nat → State
  | 0 => s
  | i + 1 =>
    let r := monoProcess c (input i) (laneRun c input s i)
    r.2.withResult (.sample r.1)

theorem laneRun_zero (c : Lane) (input : Nat → F32) (s : State) : laneRun c input s 0 = s := rfl

theorem laneRun_succ (c : Lane) (input : Nat → F32) (s : State) (i : Nat) :
    laneRun c input s (i + 1) = (monoProcess c (input i) (laneRun c input s i)).2.withResult
      (.sample (monoProcess c (input i) (laneRun c input s i)).1) := rfl

/-- Neither storing a sample nor handing it out touches the stages or the draws. -/
theorem SameFilter.bufWrite_withResult {s s' : State} (h : SameFilter s s') (c : Lane) (i : Nat) (x : F32) (r : UopResult) :
    SameFilter (s.bufWrite c i x) (s'.withResult r) := h

/-- A sample in place leaves the stages and draws of the same sample executed on its own (R187). -/
theorem SameFilter.processSample_laneRun {c : Lane} {u s : State} {input : Nat → F32} {i : Nat}
    (h : SameFilter u (laneRun c input s i)) :
    SameFilter (processSample c i (input i) u) (laneRun c input s (i + 1)) := by
  obtain ⟨-, hmono⟩ := h.monoProcess c (input i)
  rw [laneRun_succ]
  exact hmono.bufWrite_withResult ..

/-- A lane's block passes through the states of `laneRun` and writes their outputs in place (R187). -/
theorem blockLane_laneRun {c : Lane} {n i : Nat} {u t s : State} {input : Nat → F32} (h : blockLane c n i u = .ok t)
    (hin : ∀ k, i ≤ k → k < i + n → u.bufRead c k = some (input k)) (hf : SameFilter u (laneRun c input s i)) :
    SameFilter t (laneRun c input s (i + n)) ∧
    ∀ k, i ≤ k → k < i + n → t.bufRead c k = some (monoProcess c (input k) (laneRun c input s k)).1 := by
  induction n generalizing i u with
  | zero => cases h; exact ⟨hf, fun k hlo hhi => by omega⟩
  | succ n ih =>
    have hx := hin i le_rfl (by omega)
    have hi := bufRead_some_lt hx
    obtain ⟨hy, -⟩ := hf.monoProcess c (input i)
    rw [blockLane_succ, hx] at h
    have hrest := ih (u := processSample c i (input i) u) h
      (fun k hlo hhi => by rw [bufRead_processSample (.inr (by omega)) hi]; exact hin k (by omega) (by omega))
      hf.processSample_laneRun
    rw [show i + 1 + n = i + (n + 1) by omega] at hrest
    refine ⟨hrest.1, fun k hlo hhi => ?_⟩
    rcases Nat.eq_or_lt_of_le hlo with rfl | hlt
    · rw [blockLane_bufRead_before h (by omega), bufRead_processSample_self hi, hy]
    · exact hrest.2 k hlt hhi

/-- The samples of a lane, +0 where a word holds no value (a block that completes reads no such word). -/
def laneInput (s : State) (c : Lane) (i : Nat) : F32 := (s.bufRead c i).getD 0#32

theorem laneInput_of_bufRead {s : State} {c : Lane} {i : Nat} {x : F32} (h : s.bufRead c i = some x) :
    laneInput s c i = x := by
  rw [laneInput, h]
  rfl

/-- The states before the samples of a block: lane 0 from `s`, then lane 1 from where lane 0 ends (logs 8 and 22). -/
def blockRun (n : Nat) (s : State) (c : Lane) : Nat → State :=
  laneRun c (laneInput s c) (if c = 0 then s else laneRun 0 (laneInput s 0) s n)

/-- A written sample is the input of its step of the run. -/
theorem blockRun_input {s : State} {c : Lane} {i : Nat} {x : F32} (hx : s.bufRead c i = some x) (n : Nat) :
    exec (.monoProcess c x) (blockRun n s c i) = .next (blockRun n s c (i + 1)) ∧
      (blockRun n s c (i + 1)).result = .sample (monoProcess c x (blockRun n s c i)).1 := by
  unfold blockRun
  rw [laneRun_succ, laneInput_of_bufRead hx]
  exact ⟨exec_mono .., rfl⟩

/-- A block ends with the stages and draws of its run, and its words are the outputs of the run (R187). -/
theorem blockProcess_blockRun {n : Nat} {s t : State} (h : blockProcess n s = .ok t) :
    SameFilter t (blockRun n s 1 n) ∧
    ∀ c i x, i < n → s.bufRead c i = some x → t.bufRead c i = some (monoProcess c x (blockRun n s c i)).1 := by
  obtain ⟨u, hu, ht⟩ := blockProcess_ok h
  have hwritten : ∀ c i, i < n → s.bufRead c i = some (laneInput s c i) := by
    intro c i hi
    obtain ⟨x, hx⟩ := Option.isSome_iff_exists.mp (blockProcess_reads h c hi)
    rw [laneInput_of_bufRead hx, hx]
  have hlane0 : SameFilter u (blockRun n s 0 n) ∧
      ∀ k, 0 ≤ k → k < 0 + n → u.bufRead 0 k = some (monoProcess 0 (laneInput s 0 k) (blockRun n s 0 k)).1 := by
    have hrun := blockLane_laneRun (s := s) (input := laneInput s 0) hu (fun k _ hk => hwritten 0 k (by omega)) ⟨rfl, rfl⟩
    rwa [Nat.zero_add] at hrun ⊢
  have hlane1 : SameFilter t (blockRun n s 1 n) ∧
      ∀ k, 0 ≤ k → k < 0 + n → t.bufRead 1 k = some (monoProcess 1 (laneInput s 1 k) (blockRun n s 1 k)).1 := by
    have hrun := blockLane_laneRun (s := blockRun n s 0 n) (input := laneInput s 1) ht
      (fun k _ hk => by rw [blockLane_bufRead_other hu (by decide)]; exact hwritten 1 k (by omega)) hlane0.1
    rwa [Nat.zero_add] at hrun ⊢
  refine ⟨hlane1.1, fun c i x hi hx => ?_⟩
  rw [← laneInput_of_bufRead hx]
  match c with
  | 0 => rw [blockLane_bufRead_other ht (by decide)]; exact hlane0.2 i (by omega) (by omega)
  | 1 => exact hlane1.2 i (by omega) (by omega)

/-- Settles O48: `blockRun` holds the states, and a block's own frame the rest. -/
theorem blockProcessRunsEverySampleInPlace : Obligations.BlockProcessRunsEverySampleInPlace := by
  intro n s hw
  obtain ⟨t, ht⟩ := blockProcess_of_written hw
  obtain ⟨hfilter, hout⟩ := blockProcess_blockRun ht
  obtain ⟨hframe, hshape, -⟩ := blockProcess_frame ht
  refine ⟨t, blockRun n.toNat s, exec_blockProcess_ok ht, rfl, rfl, rfl, fun c i hi => ?_, hfilter.1, hframe,
    fun a ha => blockProcess_bytes ht ha, hshape⟩
  obtain ⟨x, hx⟩ := Option.isSome_iff_exists.mp (hw c i hi)
  obtain ⟨hexec, hresult⟩ := blockRun_input hx n.toNat
  exact ⟨x, _, hx, hexec, hresult, hout c i x hi hx⟩

/-! ### Isolation and causality -/

/-- What lane `c` leaves of another lane: its words and its stages (R188). -/
theorem blockLane_otherLane {c c' : Lane} {n : Nat} {s t : State} (h : blockLane c n 0 s = .ok t) (hc : c' ≠ c) :
    (∀ i, t.bufRead c' i = s.bufRead c' i) ∧ ∀ j, t.stage c' j = s.stage c' j :=
  ⟨blockLane_bufRead_other h hc, fun j => (blockLane_frame h).other c' j hc⟩

/-- Settles O50: a lane's block is causal, the other lane's block leaves its words and stages, and takes as many draws in
both runs. -/
theorem lanesAreIsolatedAndCausal : Obligations.LanesAreIsolatedAndCausal := by
  intro n c k s s' t t' hk hstage hflags hdraws hin ht ht'
  obtain ⟨u, hu, hut⟩ := blockProcess_ok (blockProcess_of_exec ht)
  obtain ⟨u', hu', hut'⟩ := blockProcess_ok (blockProcess_of_exec ht')
  match c with
  | 0 =>
    -- lane 0 runs first, and lane 1 leaves what it made
    obtain ⟨hout, hend⟩ := blockLane_causal ⟨hstage, hdraws⟩ (fun m _ hm => hin m hm) (by omega) hu hu'
    obtain ⟨hbuf, hst⟩ := blockLane_otherLane hut (c' := 0) (by decide)
    obtain ⟨hbuf', hst'⟩ := blockLane_otherLane hut' (c' := 0) (by decide)
    refine ⟨fun i hi => ?_, fun he j => ?_⟩
    · rw [hbuf, hbuf', hout i (by omega) hi]
    · rw [hst, hst', (hend (by omega)).1 j]
  | 1 =>
    -- lane 1 starts from the stages and words that lane 0 leaves, and the draws are as many
    obtain ⟨hbuf, hst⟩ := blockLane_otherLane hu (c' := 1) (by decide)
    obtain ⟨hbuf', hst'⟩ := blockLane_otherLane hu' (c' := 1) (by decide)
    obtain ⟨-, hdraws'⟩ := blockLane_sameFlags ⟨hflags, hdraws⟩ hu hu'
    have hlane : SameLane 1 u u' := ⟨fun j => by rw [hst, hst', hstage], hdraws'⟩
    obtain ⟨hout, hend⟩ := blockLane_causal hlane (fun m _ hm => by rw [hbuf, hbuf', hin m hm]) (by omega) hut hut'
    exact ⟨fun i hi => hout i (by omega) hi, fun he j => (hend (by omega)).1 j⟩

end Sys2Proof
end

section
/-! Proofs of the statements about an active stage (41_biquad_stage.md section 2): its nine operations (R143), NaNs (R144),
the worked cases (R145), and the silence of a zero state (43_stereo_processor.md section 3). -/
namespace Sys2Proof

open Machine

/-! ### Operation by operation -/

/-- Settles O36: an active stage writes itself and the draws. -/
theorem activeStageIsTransposedDirectFormII : Obligations.ActiveStageIsTransposedDirectFormII := by
  intro c j x s h st n y
  refine ⟨_, exec_stage c j x s, ?_⟩
  rw [stageProcess_active h]
  exact ⟨rfl, rfl, stage_setStage_same s c j _, fun _ _ => stage_setStage_other s _⟩

/-! ### NaNs -/

/-- A NaN in `s1` is a summand of the output, and the output a factor in both state words (R144). -/
theorem active_of_isNaN_s1 {st : Stage} (h : isNaN32 st.s1 = true) (n : Nat) (x : F32) :
    isNaN32 (st.active n x).1 = true ∧ isNaN32 (st.active n x).2.s1 = true ∧ isNaN32 (st.active n x).2.s2 = true := by
  have hy : isNaN32 (st.active n x).1 = true := isNaN32_add32 _ (.inr h)
  exact ⟨hy, isNaN32_add32 _ (.inl (isNaN32_sub32 _ (.inr (isNaN32_mul32 _ (.inr hy))))),
    isNaN32_sub32 _ (.inr (isNaN32_mul32 _ (.inr hy)))⟩

/-- A NaN in `s2` is a summand of the new `s1` (R144). -/
theorem active_of_isNaN_s2 {st : Stage} (h : isNaN32 st.s2 = true) (n : Nat) (x : F32) :
    isNaN32 (st.active n x).2.s1 = true := isNaN32_add32 _ (.inr h)

/-- Settles O37: the operations hand a NaN on. -/
theorem naNPoisonsAnActiveStage : Obligations.NaNPoisonsAnActiveStage := by
  intro c j x s hactive
  obtain ⟨t, ht, hresult, hstage⟩ := exec_stage_active hactive x
  refine ⟨fun h1 => ⟨t, _, ht, hresult, ?_⟩, fun h2 => ⟨t, ht, ?_⟩⟩
  · rw [hstage]
    exact active_of_isNaN_s1 h1 ..
  · rw [hstage]
    exact active_of_isNaN_s2 h2 ..

/-! ### The worked cases -/

/-- The output from zero state: the product `b0 * x`, with pattern `p`, plus +0, with pattern `q` (R143). -/
theorem exec_stage_of_zeroState {s : State} {c : Lane} {j : StageIdx} {set : CoeffSet} {x : F32} {p q : Nat}
    (hp : (val32 set.b0).mul .b32 (val32 x) = some p) (hq : (val32 (BitVec.ofNat 32 p)).add .b32 (val32 0#32) = some q)
    (h : s.stage c j = { coeffs := set, s1 := 0#32, s2 := 0#32, bypass := false }) :
    ∃ t, exec (.stageProcess c j x) s = .next t ∧ t.result = .sample (BitVec.ofNat 32 q) := by
  obtain ⟨t, ht, hresult, -⟩ := exec_stage_active (s := s) (c := c) (j := j) (by rw [h]) x
  refine ⟨t, ht, ?_⟩
  rw [hresult, h]
  simp only [Stage.active, mul32_eq hp, add32_eq hq]

/-- Settles O38: the products and sums of the five cases, computed. -/
theorem subnormalsZerosAndOverflow : Obligations.SubnormalsZerosAndOverflow := by
  refine ⟨fun _ _ _ => ?least, fun _ _ _ => ?tie, fun _ _ _ => ?one, fun _ _ _ => ?negZero, fun _ _ _ => ?greatest⟩
  case least => exact exec_stage_of_zeroState (p := 0) (q := 0) (by decide +kernel) (by decide +kernel)
  case tie => exact exec_stage_of_zeroState (p := 2) (q := 2) (by decide +kernel) (by decide +kernel)
  case one => exact exec_stage_of_zeroState (p := 0x3F000000) (q := 0x3F000000) (by decide +kernel) (by decide +kernel)
  case negZero => exact exec_stage_of_zeroState (p := 0x80000000) (q := 0) (by decide +kernel) (by decide +kernel)
  case greatest =>
    exact exec_stage_of_zeroState (p := 0x7F800000) (q := 0x7F800000) (by decide +kernel) (by decide +kernel)

/-! ### Silence -/

/-- A stage with state words that are zeros and coefficients that are finite. -/
structure Quiet (st : Stage) : Prop where
  s1 : IsZero32 st.s1
  s2 : IsZero32 st.s2
  coeffs : ∀ k ∈ [st.coeffs.b0, st.coeffs.b1, st.coeffs.b2, st.coeffs.a1, st.coeffs.a2], isFinite32 k = true

/-- A finite coefficient times a zero is a zero. -/
theorem Quiet.mul32 {st : Stage} (h : Quiet st) {k z : F32}
    (hk : k ∈ [st.coeffs.b0, st.coeffs.b1, st.coeffs.b2, st.coeffs.a1, st.coeffs.a2]) (hz : IsZero32 z) (n : Nat) :
    IsZero32 (mul32 n k z) := by
  obtain ⟨sign, mag, hval⟩ := isFinite32_iff.1 (h.coeffs k hk)
  exact mul32_zero hval hz n

/-- A quiet stage answers a zero with a zero and is quiet again (R143). -/
theorem Quiet.active {st : Stage} (h : Quiet st) {x : F32} (hx : IsZero32 x) (n : Nat) :
    IsZero32 (st.active n x).1 ∧ Quiet (st.active n x).2 := by
  have hy : IsZero32 (st.active n x).1 := add32_zeros (h.mul32 (by simp) hx _) h.s1 _
  have hs1 : IsZero32 (st.active n x).2.s1 :=
    add32_zeros (sub32_zeros (h.mul32 (by simp) hx _) (h.mul32 (by simp) hy _) _) h.s2 _
  have hs2 : IsZero32 (st.active n x).2.s2 := sub32_zeros (h.mul32 (by simp) hx _) (h.mul32 (by simp) hy _) _
  exact ⟨hy, hs1, hs2, h.coeffs⟩

/-- A zero sample at a point of lane `c` where every stage of the lane is quiet. -/
def SilentAt (c : Lane) (r : F32 × State) : Prop := IsZero32 r.1 ∧ ∀ j, Quiet (r.2.stage c j)

/-- The stage that an active stage writes (R143). -/
theorem stageProcess_stage_self {s : State} {c : Lane} {j : StageIdx} (h : (s.stage c j).bypass = false) (x : F32) :
    (stageProcess c j x s).2.stage c j = ((s.stage c j).active s.nanDraws x).2 := by
  rw [stageProcess_active h]
  exact stage_setStage_same s c j _

/-- A stage leaves the lane silent, bypassed (R142) or active (R143). -/
theorem SilentAt.stageProcess {c : Lane} {r r' : F32 × State} (h : SilentAt c r) {j : StageIdx}
    (hr : r' = stageProcess c j r.1 r.2) : SilentAt c r' := by
  subst hr
  obtain ⟨hx, hquiet⟩ := h
  cases hb : (r.2.stage c j).bypass with
  | true => rw [stageProcess_bypassed hb]; exact ⟨hx, hquiet⟩
  | false =>
    obtain ⟨hy, hst⟩ := (hquiet j).active hx r.2.nanDraws
    refine ⟨?output, fun j' => ?stage⟩
    case output => rw [stageProcess_active hb]; exact hy
    case stage =>
      by_cases hj : j' = j
      · rw [hj, stageProcess_stage_self hb]
        exact hst
      · rw [(stageProcess_stage c j r.1 r.2 c j').2.2 fun h => hj h.2]
        exact hquiet j'

/-- A cut chain leaves the lane silent (R164). -/
theorem SilentAt.chainProcess {c : Lane} {r r' : F32 × State} (h : SilentAt c r) {ch : Chain}
    (hr : r' = chainProcess c ch r.1 r.2) : SilentAt c r' := by
  obtain ⟨r0, r1, r2, r3, h0, h1, h2, h3, hchain⟩ := chainProcess_eq c ch r.1 r.2
  rw [hr, hchain]
  exact (((h.stageProcess h0).stageProcess h1).stageProcess h2).stageProcess h3

/-- The whole lane leaves itself silent (R165). -/
theorem SilentAt.monoProcess {c : Lane} {r : F32 × State} (h : SilentAt c r) : SilentAt c (monoProcess c r.1 r.2) := by
  obtain ⟨u, v, w, hu, hv, hw, hmono⟩ := monoProcess_eq c r.1 r.2
  rw [hmono]
  exact ((h.chainProcess hu).stageProcess hv).chainProcess hw

/-- Settles O44: a silent lane stays silent through every stage. -/
theorem silenceStaysSilence : Obligations.SilenceStaysSilence := by
  intro c x s hzero hfinite hx
  have hsilent : SilentAt c (x, s) := ⟨hx, fun j => ⟨(hzero j).1, (hzero j).2, hfinite j⟩⟩
  obtain ⟨hy, hquiet⟩ := hsilent.monoProcess
  refine ⟨_, _, exec_mono c x s, State.withResult_result .., hy, fun j => ?_⟩
  rw [State.withResult_stage]
  exact ⟨(hquiet j).s1, (hquiet j).s2⟩

end Sys2Proof
end

section
/-! Proofs of the statements about parameter conversion and the designs (40_coeff_factory.md sections 1 to 5, and the
0 dB peak of section 6). -/
namespace Sys2Proof

open Machine

/-! ### The functions of `DESIGN_FN` -/

/-- The cosine of a factory angle (R112, property 2). -/
theorem cos64_bounds {w : F64} (hw : factoryAngle w = true) :
    isFinite64 (cos64 w) = true ∧ le64 0xBFF0000000000000#64 (cos64 w) = true ∧ lt64 (cos64 w) one64 = true := by
  unfold cos64
  simp only [hw, if_true]
  split
  · rename_i h
    simpa only [Bool.and_eq_true, and_assoc] using h
  · decide +kernel

/-- The sine of a factory angle (R112, property 2). -/
theorem sin64_bounds {w : F64} (hw : factoryAngle w = true) :
    isFinite64 (sin64 w) = true ∧ lt64 0#64 (sin64 w) = true := by
  unfold sin64
  simp only [hw, if_true]
  split
  · rename_i h
    simpa only [Bool.and_eq_true] using h
  · decide +kernel

/-- The linear gain of 0 dB (R112, property 1). -/
theorem exp10_64_of_isZero {x : F64} (h : isZero64 x = true) : exp10_64 x = one64 := if_pos h

/-- The linear gain of a factory exponent (R112, property 3). -/
theorem exp10_64_bounds {x : F64} (hx : factoryExponent x = true) :
    isFinite64 (exp10_64 x) = true ∧ lt64 0#64 (exp10_64 x) = true := by
  unfold exp10_64
  simp only [hx, if_true]
  split
  · decide +kernel
  · split
    · rename_i h
      simpa only [Bool.and_eq_true] using h
    · decide +kernel

/-- Settles O25: each function is free inside its bounds, and a value inside them stands for one outside. -/
theorem designFunctionsHaveTheirProperties : Obligations.DesignFunctionsHaveTheirProperties := by
  refine ⟨⟨exp10_64_of_isZero (by decide +kernel), exp10_64_of_isZero (by decide +kernel)⟩, fun w hlo hhi => ?_,
    fun x hlo hhi => exp10_64_bounds (Bool.and_eq_true_iff.2 ⟨hlo, hhi⟩)⟩
  have hw : factoryAngle w = true := Bool.and_eq_true_iff.2 ⟨hlo, hhi⟩
  obtain ⟨hcos, hge, hlt⟩ := cos64_bounds hw
  exact ⟨hcos, hge, hlt, sin64_bounds hw⟩

/-! ### Parameter conversion -/

/-- Settles O26: the conversions are the model's, and the cases of the slope exclude each other (R113 to R118). -/
theorem convertSnapshotClampsEveryParameter : Obligations.ConvertSnapshotClampsEveryParameter := by
  intro fsd s hi freq slope
  have hslope : ∀ v, slope v (convSlope v) := by
    intro v
    refine ⟨fun hn => ?nan, fun hn h0 => ?low, fun hn h0 h3 => ?high, fun hn h0 h3 => ?between⟩
    case nan => simp [convSlope, hn]
    case low => simp [convSlope, hn, h0]
    case high => simp [convSlope, hn, h0, h3]
    case between => simpa [convSlope, hn, h0, h3] using truncNat_le_two h0 h3
  exact ⟨_, exec_convertSnapshot fsd s, rfl, rfl, rfl, rfl, rfl, hslope _, hslope _⟩

/-- A register or its default is no NaN. -/
theorem isNaN64_default {v : F32} {d : F64} (hd : isNaN64 d = false) :
    isNaN64 (if isNaN32 v then d else widen v) = false := by
  split
  · exact hd
  · rename_i hv
    exact isNaN64_widen (Bool.eq_false_iff.2 hv)

/-- The upper bound of the frequencies is between 20 and 20000 where its second term is 20 or more (R113). -/
theorem freqHigh_range {fsd : F64} (h : le64 0x4034000000000000#64 (mul64 0x3FDF5C28F5C28F5C#64 fsd) = true) :
    le64 0x4034000000000000#64 (freqHigh fsd) = true ∧ le64 (freqHigh fsd) 0x40D3880000000000#64 = true := by
  have hlim := (le64_iff.1 h).2.1
  have htop : isNaN64 0x40D3880000000000#64 = false := by decide +kernel
  unfold freqHigh
  rw [min64_eq htop hlim]
  split
  · decide +kernel
  · rename_i hgt
    exact ⟨h, le64_total htop hlim hgt⟩

/-- A converted frequency is between 20 and 20000 (R114). -/
theorem convFreq_range {fsd d : F64} (h : le64 0x4034000000000000#64 (mul64 0x3FDF5C28F5C28F5C#64 fsd) = true)
    (hd : isNaN64 d = false) (v : F32) :
    le64 0x4034000000000000#64 (convFreq fsd v d) = true ∧ le64 (convFreq fsd v d) 0x40D3880000000000#64 = true := by
  obtain ⟨hlo, hhi⟩ := freqHigh_range h
  obtain ⟨hge, hle⟩ := clamp (isNaN64_default (v := v) hd) hlo
  exact ⟨hge, le64_trans hle hhi⟩

/-- A converted gain is between -24 and 24 dB (R115). -/
theorem convGain_range (v : F32) :
    le64 0xC038000000000000#64 (convGain v) = true ∧ le64 (convGain v) 0x4038000000000000#64 = true :=
  clamp (isNaN64_default (by decide +kernel)) (by decide +kernel)

/-- A converted quality is between `Q_LO` and 10 (R116). -/
theorem convQuality_range (v : F32) :
    le64 0x3FB999999999999A#64 (convQuality v) = true ∧ le64 (convQuality v) 0x4024000000000000#64 = true :=
  clamp (isNaN64_default (by decide +kernel)) (by decide +kernel)

/-- Settles O27, conversion by conversion. -/
theorem convertedParametersAreInRange : Obligations.ConvertedParametersAreInRange := by
  intro fsd s t P hlim ht hP
  rw [exec_convertSnapshot] at ht
  cases ht
  cases hP
  obtain ⟨hgain, hgain'⟩ := convGain_range s.snap[3]
  obtain ⟨hquality, hquality'⟩ := convQuality_range s.snap[4]
  refine ⟨fun f hf => ?freqs, hgain, hgain', hquality, hquality', convertSnapshot_orders_le_three ..⟩
  case freqs =>
    simp only [List.mem_cons, List.not_mem_nil, or_false] at hf
    obtain rfl | rfl | rfl := hf
    · exact convFreq_range hlim (by decide +kernel) _
    · exact convFreq_range hlim (by decide +kernel) _
    · exact convFreq_range hlim (by decide +kernel) _

/-! ### The designs -/

/-- Settles O28: the operations of the model, in order. -/
theorem designPeakComputesTheCookbookSet : Obligations.DesignPeakComputesTheCookbookSet :=
  fun peakF gainDb q fsd s => ⟨_, exec_designPeak peakF gainDb q fsd s, rfl, rfl, rfl, rfl, rfl⟩

/-- The section of a cut design at an entry of the quality table (R123). -/
theorem cutSequence_getElem? {k i : Nat} {Q : F64} (hQ : (qRom k)[i]? = some Q) (kind : SectionKind) (f fsd : F64) :
    (cutSequence kind f k fsd)[i]? = some (cutSet kind (cos64 (angle f fsd)) (sin64 (angle f fsd)) Q) := by
  rw [cutSequence, List.getElem?_map, hQ, Option.map_some]

/-- Settles O30: the ten rows are the entries of `qRom`. -/
theorem cutDesignsComputeTheirSections : Obligations.CutDesignsComputeTheirSections := by
  intro row hrow freq fsd s c alpha a0
  obtain ⟨hk, hQ⟩ : row.1 ≤ 3 ∧ (qRom row.1)[row.2.1]? = some row.2.2 := by
    revert row
    decide
  exact ⟨⟨_, _, exec_designLowcut hk freq fsd s, cutSequence_length .hp freq hk fsd, cutSequence_getElem? hQ .hp freq fsd,
      rfl, rfl, rfl, rfl, rfl⟩,
    ⟨_, _, exec_designHighcut hk freq fsd s, cutSequence_length .lp freq hk fsd, cutSequence_getElem? hQ .lp freq fsd,
      rfl, rfl, rfl, rfl, rfl⟩⟩

/-! ### The peak at 0 dB -/

/-- The zeros of binary64. -/
theorem eq_zero_of_isZero64 {x : F64} (h : isZero64 x = true) : x = 0x0000000000000000#64 ∨ x = 0x8000000000000000#64 := by
  obtain ⟨sign, hx⟩ : ∃ sign, val64 x = .fin sign 0 := by
    unfold isZero64 at h
    split at h
    · rename_i sign m hv
      exact ⟨sign, hv.trans (congrArg _ (beq_iff_eq.1 h))⟩
    · cases h
  rw [← round64 hx Nat.one_pos]
  cases sign
  · left; decide +kernel
  · right; decide +kernel

/-- The cookbook's A is 1.0 at 0 dB (R120). -/
theorem peakAmplitude_of_isZero {gainDb : F64} (h : isZero64 gainDb = true) : peakAmplitude gainDb = one64 := by
  have hexp : isZero64 (div64 gainDb 0x4034000000000000#64) = true := by
    rcases eq_zero_of_isZero64 h with rfl | rfl
    · decide +kernel
    · decide +kernel
  rw [peakAmplitude, exp10_64_of_isZero hexp]
  decide +kernel

/-- With A = 1.0 the peak's numerator is its denominator (R127). -/
theorem peakSet_one64 {c s q : F64} (hfin : isFinite64 (div64 s (mul64 0x4000000000000000#64 q)) = true)
    (hsum : isFinite64 (add64 one64 (div64 s (mul64 0x4000000000000000#64 q))) = true)
    (hne : isZero64 (add64 one64 (div64 s (mul64 0x4000000000000000#64 q))) = false) :
    ∃ a b : F32, peakSet one64 c s q = ⟨0x3F800000#32, a, b, a, b⟩ := by
  have hone : rnd32 one64 = 0x3F800000#32 := by decide +kernel
  refine ⟨(peakSet one64 c s q).b1, (peakSet one64 c s q).b2, ?_⟩
  simp only [peakSet, mul64_one hfin, div64_one hfin, div64_self hsum hne, hone]

/-- Settles O29: at 0 dB the amplitude is 1.0. -/
theorem zeroDecibelPeakHasUnityForm : Obligations.ZeroDecibelPeakHasUnityForm := by
  refine ⟨fun peakF gainDb q fsd s => exec_designPeak peakF gainDb q fsd s, fun gainDb c s q hgain => ?_⟩
  rw [peakAmplitude_of_isZero hgain]
  exact peakSet_one64

end Sys2Proof
end

section
/-! Proofs of the statements about the sets the factory designs (40_coeff_factory.md section 6): stable (R126), finite and
bounded (R130), both where `DESIGN_FN` is within one unit in the last place (R112, log 27). -/
namespace Sys2Proof

open Machine

/-! ### The angle, the quality and the amplitude of a design -/

/-- Values for the cosine and the sine of an angle that the factory passes: finite, away from the poles' limits, and with
the square of the sine bounded by the margin `1 - c` (R119, R126). -/
structure DesignAngle (c s : F64) : Prop where
  cosFinite : isFinite64 c = true
  sinFinite : isFinite64 s = true
  cosGe : -(1 - 18 / 10000) ≤ rat64 c
  cosLe : rat64 c ≤ 1 - 209 / 10 ^ 9
  sinGe : 64 / 10 ^ 5 ≤ rat64 s
  sinLe : rat64 s ≤ 1 + 1 / 10 ^ 9
  sinSq : rat64 s ^ 2 ≤ 20001 / 10000 * (1 - rat64 c)

/-- The premise of R112 at the angle of a converted frequency gives such values. -/
theorem AccurateAngle.designAngle {fs v : F32} {d c s : F64} (h : badRate fs = false) (hd : isNaN64 d = false)
    (ha : AccurateAngle (angle (convFreq (widen fs) v d) (widen fs)) c s) : DesignAngle c s := by
  obtain ⟨-, hlo, hhi⟩ := angle_bounds h v hd
  obtain ⟨hc, hs, c1, c2, s1, s2, hsq⟩ := accurate_bounds ha hlo hhi
  exact ⟨hc, hs, c1, c2, s1, s2, hsq⟩

/-- A peak's quality and amplitude, and the linear gain the amplitude is the root of (R115, R116, R120). -/
structure DesignPeakShape (G A q : F64) : Prop where
  gainFinite : isFinite64 G = true
  gainGe : 1 / 15849 * 1000 ≤ rat64 G
  gainLe : rat64 G ≤ 15849 / 1000
  ampFinite : isFinite64 A = true
  ampGe : 249 / 1000 ≤ rat64 A
  ampLe : rat64 A ≤ 39821 / 10000
  ampSq : |rat64 A ^ 2 - rat64 G| ≤ rat64 G / 2 ^ 50
  qualFinite : isFinite64 q = true
  qualGe : 999 / 10000 ≤ rat64 q
  qualLe : rat64 q ≤ 10

/-- The premise of R112 at a converted gain, and a converted quality, give such values. -/
theorem AccurateExp10.designPeakShape {G : F64} {v : F32}
    (h : AccurateExp10 (div64 (convGain v) 0x4034000000000000#64) G) (v' : F32) :
    DesignPeakShape G (sqrt64 G) (convQuality v') := by
  obtain ⟨hG, g1, g2⟩ := gain_bounds (exponent_bounds v) h
  obtain ⟨hA, a1, a2, hsq⟩ := amplitude_bounds hG g1 g2
  obtain ⟨hq, q1, q2⟩ := quality_bounds v'
  exact ⟨hG, g1, g2, hA, a1, a2, hsq, hq, q1, q2⟩

/-! ### Alpha and the damping -/

/-- The alpha of a design (R120, R122). -/
def designAlpha (s q : F64) : F64 := div64 s (mul64 0x4000000000000000#64 q)

/-- The alpha and the damping `alpha / A` of a peak set, bounded by the sine. -/
structure PeakDamping (s A al t : F64) : Prop where
  alphaFinite : isFinite64 al = true
  alphaGe : 31 / 10 ^ 6 ≤ rat64 al
  alphaLe : rat64 al ≤ 50051 / 10000 * rat64 s
  dampFinite : isFinite64 t = true
  dampGe : 7 / 10 ^ 6 ≤ rat64 t
  dampLe : rat64 t ≤ 2011 / 100 * rat64 s
  dampError : |rat64 t - rat64 al / rat64 A| ≤ 2 / 10 ^ 15 * (rat64 al / rat64 A)

/-- The bounds of alpha and of the damping at a design's angle, quality and amplitude. -/
theorem DesignAngle.peakDamping {c s G A q : F64} (h : DesignAngle c s) (hp : DesignPeakShape G A q) :
    PeakDamping s A (designAlpha s q) (div64 (designAlpha s q) A) := by
  obtain ⟨hal, al1, al2, ht, t1, t2, herr⟩ := peak_damping h.sinFinite h.sinGe h.sinLe hp.qualFinite hp.qualGe hp.qualLe
    hp.ampFinite hp.ampGe hp.ampLe
  exact ⟨hal, al1, al2, ht, t1, t2, herr⟩

/-- The alpha of a cut section: its quality is between 1/2 and 3 (R121). -/
theorem DesignAngle.cutDamping {c s Q : F64} (h : DesignAngle c s) {k : Nat} (hQ : Q ∈ qRom k) :
    isFinite64 (designAlpha s Q) = true ∧ 9 / 10 ^ 5 ≤ rat64 (designAlpha s Q) ∧
    rat64 (designAlpha s Q) ≤ 1001 / 1000 * rat64 s := by
  obtain ⟨hfin, q1, q2⟩ := qRom_bounds k Q hQ
  have s1 := h.sinGe
  obtain ⟨hal, herr⟩ := alpha_bounds h.sinFinite hfin s1 h.sinLe (by linarith) (by linarith)
  have hlo : rat64 s / 6 ≤ rat64 s / (2 * rat64 Q) := div_le_div_of_nonneg_left (by linarith) (by linarith) (by linarith)
  have hhi : rat64 s / (2 * rat64 Q) ≤ rat64 s := div_le_self (by linarith) (by linarith)
  obtain ⟨e1, e2⟩ := abs_le.1 herr
  unfold designAlpha
  generalize rat64 s / (2 * rat64 Q) = x at *
  exact ⟨hal, by linarith, by linarith⟩

/-! ### Stability -/

/-- A damping of at most 20.11 times the sine keeps within the margin of the cosine (R126). -/
theorem DesignAngle.dampingSq {c s t : F64} (h : DesignAngle c s) (t0 : 0 ≤ rat64 t) (ht : rat64 t ≤ 2011 / 100 * rat64 s) :
    rat64 t ^ 2 ≤ 811 * (1 - rat64 c) :=
  calc rat64 t ^ 2 ≤ (2011 / 100 * rat64 s) ^ 2 := by gcongr
    _ = (2011 / 100) ^ 2 * rat64 s ^ 2 := mul_pow ..
    _ ≤ (2011 / 100) ^ 2 * (20001 / 10000 * (1 - rat64 c)) := by gcongr; exact h.sinSq
    _ ≤ 811 * (1 - rat64 c) := by have := h.cosLe; linarith

/-- A set with such an angle and damping is stable (R126). -/
theorem DesignAngle.polesInside {c s t : F64} (h : DesignAngle c s) (ht : isFinite64 t = true) (t1 : 7 / 10 ^ 6 ≤ rat64 t)
    (t2 : rat64 t ≤ 2011 / 100 * rat64 s) {k : CoeffSet}
    (ha1 : k.a1 = rnd32 (div64 (mul64 0xC000000000000000#64 c) (add64 one64 t)))
    (ha2 : k.a2 = rnd32 (div64 (sub64 one64 t) (add64 one64 t))) : PolesInside k := by
  have hs := h.sinLe
  exact polesInside_of_damping c t h.cosFinite ht h.cosGe h.cosLe t1 (by linarith) (h.dampingSq (by linarith) t2) k ha1 ha2

/-- A peak set is stable (R126). -/
theorem DesignAngle.peakSet_polesInside {c s G A q : F64} (h : DesignAngle c s) (hp : DesignPeakShape G A q) :
    PolesInside (peakSet A c s q) := by
  have hd := h.peakDamping hp
  exact h.polesInside hd.dampFinite hd.dampGe hd.dampLe rfl rfl

/-- A cut section is stable (R126). -/
theorem DesignAngle.cutSet_polesInside {c s Q : F64} (h : DesignAngle c s) {k : Nat} (hQ : Q ∈ qRom k)
    (kind : SectionKind) : PolesInside (cutSet kind c s Q) := by
  obtain ⟨hal, al1, al2⟩ := h.cutDamping hQ
  have hs := h.sinGe
  exact h.polesInside hal (by linarith) (by linarith) rfl rfl

/-- The three default frequencies are numbers (R114). -/
theorem isNaN64_defaultFreqs : isNaN64 0x4034000000000000#64 = false ∧ isNaN64 0x40D3880000000000#64 = false ∧
    isNaN64 0x4087700000000000#64 = false := by decide +kernel

/-- Settles O31: the bounds of the angle, of the gain and of the quality leave the poles a margin. -/
theorem designedSetsAreStable : Obligations.DesignedSetsAreStable := by
  intro fs snap hrate fsd P
  obtain ⟨hlow, hhigh, hpeak⟩ := isNaN64_defaultFreqs
  refine ⟨fun c s G hangle hgain => ?peak, fun c s hangle Q hQ => ?lowcut, fun c s hangle Q hQ => ?highcut⟩
  case peak => exact (hangle.designAngle hrate hpeak).peakSet_polesInside (hgain.designPeakShape snap[4])
  case lowcut => exact (hangle.designAngle hrate hlow).cutSet_polesInside hQ .hp
  case highcut => exact (hangle.designAngle hrate hhigh).cutSet_polesInside hQ .lp

/-! ### Range -/

/-- A computed value whose exact value is at most `B`. -/
def WithinOf (B : ℚ) (v : F64) : Prop := isFinite64 v = true ∧ ∃ M : ℚ, |M| ≤ B ∧ |rat64 v - M| ≤ 1 / 2 ^ 46

/-- A correctly rounded value is one. -/
theorem WithinOf.of_near {v : F64} {M B : ℚ} (h : Near64 v M) (hM : |M| ≤ B) (hB : B ≤ 21) : WithinOf B v :=
  ⟨h.1, M, hM, (rounding_error_small (hM.trans hB) h.error).trans (by norm_num)⟩

section
variable {c s : F64} (h : DesignAngle c s)
include h

/-- Such a cosine is at most 1 in magnitude. -/
theorem DesignAngle.abs_cos_le : |rat64 c| ≤ 1 := by
  have := h.cosGe
  have := h.cosLe
  rw [abs_le]
  constructor <;> linarith

/-- The numerator of `a1` of every design, and of `b1` of a peak (R120, R122). -/
theorem DesignAngle.doubleCos_withinOf : WithinOf 2 (mul64 0xC000000000000000#64 c) := by
  obtain ⟨hfin, hval⟩ := const_negTwo64
  have hM : |rat64 0xC000000000000000#64 * rat64 c| ≤ 2 := by
    rw [hval, abs_mul]
    norm_num
    linarith [h.abs_cos_le]
  exact .of_near (mul64_near hfin h.cosFinite (hM.trans (by norm_num))) hM (by norm_num)

/-- `1 + c`, correctly rounded, for the numerators of a high-pass section (R122). -/
theorem DesignAngle.oneAddCos : Near64 (add64 one64 c) (1 + rat64 c) ∧ |1 + rat64 c| ≤ 2 := by
  have hM : |1 + rat64 c| ≤ 2 := (abs_add_le _ _).trans (by rw [abs_one]; linarith [h.abs_cos_le])
  have hnear := add64_near fin_one64 h.cosFinite (by rw [rat_one64]; exact hM.trans (by norm_num))
  rw [rat_one64] at hnear
  exact ⟨hnear, hM⟩

/-- `1 - c`, correctly rounded, for the numerators of a low-pass section (R122). -/
theorem DesignAngle.oneSubCos : Near64 (sub64 one64 c) (1 - rat64 c) ∧ |1 - rat64 c| ≤ 2 := by
  have hM : |1 - rat64 c| ≤ 2 := (abs_sub _ _).trans (by rw [abs_one]; linarith [h.abs_cos_le])
  have hnear := sub64_near fin_one64 h.cosFinite (by rw [rat_one64]; exact hM.trans (by norm_num))
  rw [rat_one64] at hnear
  exact ⟨hnear, hM⟩

end

/-- Half of such a value, for `b0` and `b2` of a cut section (R122). -/
theorem WithinOf.half_of_near {v : F64} {M : ℚ} (h : Near64 v M) (hM : |M| ≤ 2) :
    WithinOf 2 (div64 v 0x4000000000000000#64) := by
  obtain ⟨hfin, herr⟩ := half_near h.1 hM (rounding_error_small (hM.trans (by norm_num)) h.error)
  refine ⟨hfin, M / 2, ?_, herr⟩
  rw [abs_div, abs_two]
  linarith

/-- Unary minus is exact, for `b1` of a high-pass section (R122). -/
theorem WithinOf.neg64 {v : F64} {B : ℚ} (h : WithinOf B v) : WithinOf B (neg64 v) := by
  obtain ⟨hfin, M, hM, herr⟩ := h
  obtain ⟨hfin', hval⟩ := neg64_exact hfin
  refine ⟨hfin', -M, by rwa [abs_neg], ?_⟩
  rwa [hval, neg_sub_neg, abs_sub_comm]

/-- The numerators of a cut section (R122). -/
theorem DesignAngle.sectionN_withinOf {c s : F64} (h : DesignAngle c s) (kind : SectionKind) :
    WithinOf 2 (sectionN0 kind c) ∧ WithinOf 2 (sectionN1 kind c) := by
  obtain ⟨hadd, hadd2⟩ := h.oneAddCos
  obtain ⟨hsub, hsub2⟩ := h.oneSubCos
  cases kind with
  | lp => exact ⟨.half_of_near hsub hsub2, .of_near hsub hsub2 (by norm_num)⟩
  | hp => exact ⟨.half_of_near hadd hadd2, (WithinOf.of_near hadd hadd2 (by norm_num)).neg64⟩

/-- `1 - t`, for `a2` of every design (R120, R122). -/
theorem oneSub_withinOf {t : F64} {B : ℚ} (ht : isFinite64 t = true) (h : |1 - rat64 t| ≤ B) (hB : B ≤ 21) :
    WithinOf B (sub64 one64 t) := by
  have hnear := sub64_near fin_one64 ht (by rw [rat_one64]; exact (h.trans hB).trans (by norm_num))
  rw [rat_one64] at hnear
  exact .of_near hnear h hB

/-- No coefficient of a cut section is beyond 2 (R130). -/
theorem DesignAngle.cutSet_within {c s Q : F64} (h : DesignAngle c s) {k : Nat} (hQ : Q ∈ qRom k) (kind : SectionKind) :
    CoeffsWithin 2 (cutSet kind c s Q) := by
  obtain ⟨hal, al1, al2⟩ := h.cutDamping hQ
  have hs := h.sinLe
  have al3 : rat64 (designAlpha s Q) ≤ 11 / 10 := by linarith
  have hcoeff : ∀ {num : F64}, WithinOf 2 num →
      isFinite32 (rnd32 (div64 num (add64 one64 (designAlpha s Q)))) = true ∧
      |rat32 (rnd32 (div64 num (add64 one64 (designAlpha s Q))))| ≤ 2 := by
    rintro num ⟨hfin, M, hM, herr⟩
    exact cut_coeff hfin hal al1 al3 hM herr
  obtain ⟨hn0, hn1⟩ := h.sectionN_withinOf kind
  have hn2 : WithinOf 2 (sub64 one64 (designAlpha s Q)) :=
    oneSub_withinOf hal (by rw [abs_le]; constructor <;> linarith) (by norm_num)
  intro x hx
  simp only [List.mem_cons, List.not_mem_nil, or_false] at hx
  obtain rfl | rfl | rfl | rfl | rfl := hx
  · exact hcoeff hn0
  · exact hcoeff hn1
  · exact hcoeff hn0
  · exact hcoeff h.doubleCos_withinOf
  · exact hcoeff hn2

/-- The product `alpha * A` of a peak set, and its rounding (R120). -/
theorem PeakDamping.alphaTimesA {s G A q al t : F64} (hs : rat64 s ≤ 1 + 1 / 10 ^ 9) (hd : PeakDamping s A al t)
    (hp : DesignPeakShape G A q) :
    0 ≤ rat64 al * rat64 A ∧ rat64 al * rat64 A ≤ 1994 / 100 ∧ isFinite64 (mul64 al A) = true ∧
    |rat64 (mul64 al A) - rat64 al * rat64 A| ≤ 1 / 2 ^ 48 := by
  have a1 := hp.ampGe
  have al1 := hd.alphaGe
  have hlo : 0 ≤ rat64 al * rat64 A := mul_nonneg (by linarith) (by linarith)
  have hhi : rat64 al * rat64 A ≤ 1994 / 100 :=
    calc rat64 al * rat64 A ≤ 50052 / 10000 * (39821 / 10000) := by
          gcongr
          · linarith [hd.alphaLe]
          · exact hp.ampLe
      _ ≤ 1994 / 100 := by norm_num
  have habs : |rat64 al * rat64 A| ≤ 21 := by rw [abs_of_nonneg hlo]; linarith
  have hnear := mul64_near hd.alphaFinite hp.ampFinite (habs.trans (by norm_num))
  exact ⟨hlo, hhi, hnear.1, rounding_error_small habs hnear.error⟩

/-- No coefficient of a peak set is beyond 1 + 5 × 3.99 (R130). -/
theorem DesignAngle.peakSet_within {c s G A q : F64} (h : DesignAngle c s) (hp : DesignPeakShape G A q) :
    CoeffsWithin (1 + 5 * (399 / 100)) (peakSet A c s q) := by
  have hd := h.peakDamping hp
  have hs := h.sinLe
  have t1 := hd.dampGe
  have t2 := hd.dampLe
  obtain ⟨p0, p1, hmul, herr⟩ := hd.alphaTimesA hs hp
  obtain ⟨⟨hadd, hadd'⟩, hsub, hsub'⟩ := one_plus_near hmul p0 p1 herr
  have hcoeff : ∀ {num : F64}, WithinOf (2094 / 100) num →
      isFinite32 (rnd32 (div64 num (add64 one64 (div64 (designAlpha s q) A)))) = true ∧
      |rat32 (rnd32 (div64 num (add64 one64 (div64 (designAlpha s q) A))))| ≤ 1 + 5 * (399 / 100) := by
    rintro num ⟨hfin, M, hM, herr⟩
    obtain ⟨-, -, hcoeff⟩ := peak_coeff hfin hd.dampFinite (by linarith) (by linarith) hM herr
    exact hcoeff
  have hn0 : WithinOf (2094 / 100) (add64 one64 (mul64 (designAlpha s q) A)) :=
    ⟨hadd, _, by rw [abs_le]; constructor <;> linarith, hadd'⟩
  have hn2 : WithinOf (2094 / 100) (sub64 one64 (mul64 (designAlpha s q) A)) :=
    ⟨hsub, _, by rw [abs_le]; constructor <;> linarith, hsub'⟩
  have hn1 : WithinOf (2094 / 100) (mul64 0xC000000000000000#64 c) := by
    obtain ⟨hfin, M, hM, herr⟩ := h.doubleCos_withinOf
    exact ⟨hfin, M, hM.trans (by norm_num), herr⟩
  have hn3 : WithinOf (2094 / 100) (sub64 one64 (div64 (designAlpha s q) A)) :=
    oneSub_withinOf hd.dampFinite (by rw [abs_le]; constructor <;> linarith) (by norm_num)
  intro x hx
  simp only [List.mem_cons, List.not_mem_nil, or_false] at hx
  obtain rfl | rfl | rfl | rfl | rfl := hx
  · exact hcoeff hn0
  · exact hcoeff hn1
  · exact hcoeff hn2
  · exact hcoeff hn1
  · exact hcoeff hn3

/-- The peak's `b0` is at most the larger of 1 and the rounded gain (R130). -/
theorem DesignAngle.peakSet_b0_le {c s G A q : F64} (h : DesignAngle c s) (hp : DesignPeakShape G A q) :
    rat32 (peakSet A c s q).b0 ≤ max 1 (rat32 (rnd32 G)) := by
  have hd := h.peakDamping hp
  have hs := h.sinLe
  have t1 := hd.dampGe
  have t2 := hd.dampLe
  have al2 := hd.alphaLe
  have g1 := hp.gainGe
  have g2 := hp.gainLe
  obtain ⟨p0, p1, hmul, herr⟩ := hd.alphaTimesA hs hp
  obtain ⟨⟨hadd, hadd'⟩, -⟩ := one_plus_near hmul p0 p1 herr
  have hgain := damping_times_gain hd.alphaGe (by linarith) hp.ampGe hd.dampError hp.ampSq (by linarith) (by linarith)
  exact peak_b0_le (t := div64 (designAlpha s q) A) hadd hd.dampFinite (by linarith) (by linarith) p0 p1 hadd' hp.gainFinite (by linarith) hgain

/-- The gain, rounded to binary32, is at most 15.85 (R130). -/
theorem DesignPeakShape.rnd32_gain_le {G A q : F64} (hp : DesignPeakShape G A q) : rat32 (rnd32 G) ≤ 1585 / 100 := by
  have g1 := hp.gainGe
  have g2 := hp.gainLe
  have habs : |rat64 G| ≤ 16 := by rw [abs_le]; constructor <;> linarith
  have herr := (rnd32_near hp.gainFinite (habs.trans (by norm_num))).error
  have hsmall : |rat64 G| / 2 ^ 24 ≤ 16 / 2 ^ 24 := by gcongr
  have := (abs_le.1 herr).2
  linarith

/-- Settles O32, design by design. -/
theorem designedCoefficientsAreFiniteAndBounded : Obligations.DesignedCoefficientsAreFiniteAndBounded := by
  intro fs snap hrate fsd P
  obtain ⟨hlow, hhigh, hpeak⟩ := isNaN64_defaultFreqs
  refine ⟨fun c s G hangle hgain => ?peak, fun c s hangle Q hQ => ?lowcut, fun c s hangle Q hQ => ?highcut⟩
  case peak =>
    have hdesign := hangle.designAngle hrate hpeak
    have hshape := hgain.designPeakShape snap[4]
    exact ⟨hdesign.peakSet_within hshape, hdesign.peakSet_b0_le hshape, hshape.rnd32_gain_le⟩
  case lowcut => exact (hangle.designAngle hrate hlow).cutSet_within hQ .hp
  case highcut => exact (hangle.designAngle hrate hhigh).cutSet_within hQ .lp

end Sys2Proof
end
